-- ==== Sys2Proof/Word.lean ====
section
/-! DEFINITION. The units of data of the machine: bytes, words and the three access widths. -/

namespace Sys2Proof

/-- One byte of a byte-addressed space (10_state.md R21, R24). -/
abbrev Byte := BitVec 8

/-- One word of 64 bits: a register cell, a call-stack entry, a handle, the instruction pointer
(00_scope.md R7). -/
abbrev Word := BitVec 64

/-- The three widths of R7: BYTE = 1, HWORD = 4, WORD = 8 bytes.  No other width exists. -/
inductive Width where
  | byte
  | hword
  | word
deriving DecidableEq, Repr

/-- The width in bytes, the `w` of every rule (R7). -/
@[reducible] def Width.bytes : Width → Nat
  | .byte => 1
  | .hword => 4
  | .word => 8

/-- The width in bits, `8w`. -/
@[reducible] def Width.bits : Width → Nat
  | .byte => 8
  | .hword => 32
  | .word => 64

end Sys2Proof
end

