-- ==== Sys2Proof/Syntax.lean ====
section
/-! DEFINITION. The vocabulary of OVM-I: the stored instruction record, the error kinds, the five
relations, and `Instr`, one constructor per row of spec/opcode_table.json. -/

namespace Sys2Proof

/-- An instruction record as the program memory stores it, 80 bits: `rec[7:0]` is the opcode,
`rec[15:8]` the register index, `rec[79:16]` the operand (30_encoding.md R70). -/
structure Record where
  opcode : Byte
  registerIndex : Byte
  operand : Word
deriving DecidableEq, Repr

/-- The thirteen error kinds, in the order of their codes 1 to 13 (60_exceptions.md R260). -/
inductive ErrorKind where
  | stackOverflow
  | stackUnderflow
  | callStackOverflow
  | callStackUnderflow
  | invalidOpcode
  | invalidRegisterByte
  | invalidRegisterHWord
  | invalidRegisterWord
  | invalidProgramAddress
  | invalidPageAddress
  | outOfBounds
  | endOfProgram
  | outOfMemory
deriving DecidableEq, Repr

/-- The five relations of the comparison class (30_encoding.md R79). -/
inductive Relation where
  | eq
  | lt
  | lte
  | gt
  | gte
deriving DecidableEq, Repr

/-- The 84 instructions (30_encoding.md R80).  `imm`, `n` and `t` are the record's whole 64-bit `operand`
field (the value pushed, the element count or index, the target record index); `r` is its
`register_index` byte.  Fields that an instruction ignores are not carried. -/
inductive Instr where
  | pushByte (imm : Word)
  | pushHword (imm : Word)
  | pushWord (imm : Word)
  | pushRegByte (r : Byte)
  | pushRegHword (r : Byte)
  | pushRegWord (r : Byte)
  | popByte
  | popHword
  | popWord
  | movByte (r : Byte)
  | movHword (r : Byte)
  | movWord (r : Byte)
  | dupByte
  | dupHword
  | dupWord
  | plusByte
  | plusHword
  | plusWord
  | subByte
  | subHword
  | subWord
  | multByte
  | multHword
  | multWord
  | notByte
  | notHword
  | notWord
  | orByte
  | orHword
  | orWord
  | andByte
  | andHword
  | andWord
  | xorByte
  | xorHword
  | xorWord
  | eqByte
  | eqHword
  | eqWord
  | ltByte
  | ltHword
  | ltWord
  | lteByte
  | lteHword
  | lteWord
  | gtByte
  | gtHword
  | gtWord
  | gteByte
  | gteHword
  | gteWord
  | eqChar
  | eqInt
  | eqLong
  | ltChar
  | ltInt
  | ltLong
  | lteChar
  | lteInt
  | lteLong
  | gtChar
  | gtInt
  | gtLong
  | gteChar
  | gteInt
  | gteLong
  | mallocByte (n : Word)
  | mallocHword (n : Word)
  | mallocWord (n : Word)
  | mgetByte (n : Word)
  | mgetHword (n : Word)
  | mgetWord (n : Word)
  | msetByte (n : Word)
  | msetHword (n : Word)
  | msetWord (n : Word)
  | mdelete
  | msize
  | jumpAbs (t : Word)
  | jumpIfByte (t : Word)
  | jumpIfHword (t : Word)
  | jumpIfWord (t : Word)
  | call (t : Word)
  | ret
  | halt
deriving DecidableEq, Repr

end Sys2Proof
end

