-- ==== Sys2Proof/WellFormed.lean ====
section
/-! DEFINITION. When an instruction is one the wire format can carry. -/

namespace Sys2Proof

/-- An instruction is well formed iff its operand fits the payload its wire record has: one byte for
`PUSH_BYTE`, four for `PUSH_HWORD` (30_encoding.md R72, R84).  Every other operand is a whole word, a byte
register index, or absent, and fits whatever it is. -/
def Instr.wf : Instr → Bool
  | .pushByte imm => decide (imm.toNat < 2 ^ 8)
  | .pushHword imm => decide (imm.toNat < 2 ^ 32)
  | .pushWord _ => true
  | .pushRegByte _ => true
  | .pushRegHword _ => true
  | .pushRegWord _ => true
  | .popByte => true
  | .popHword => true
  | .popWord => true
  | .movByte _ => true
  | .movHword _ => true
  | .movWord _ => true
  | .dupByte => true
  | .dupHword => true
  | .dupWord => true
  | .plusByte => true
  | .plusHword => true
  | .plusWord => true
  | .subByte => true
  | .subHword => true
  | .subWord => true
  | .multByte => true
  | .multHword => true
  | .multWord => true
  | .notByte => true
  | .notHword => true
  | .notWord => true
  | .orByte => true
  | .orHword => true
  | .orWord => true
  | .andByte => true
  | .andHword => true
  | .andWord => true
  | .xorByte => true
  | .xorHword => true
  | .xorWord => true
  | .eqByte => true
  | .eqHword => true
  | .eqWord => true
  | .ltByte => true
  | .ltHword => true
  | .ltWord => true
  | .lteByte => true
  | .lteHword => true
  | .lteWord => true
  | .gtByte => true
  | .gtHword => true
  | .gtWord => true
  | .gteByte => true
  | .gteHword => true
  | .gteWord => true
  | .eqChar => true
  | .eqInt => true
  | .eqLong => true
  | .ltChar => true
  | .ltInt => true
  | .ltLong => true
  | .lteChar => true
  | .lteInt => true
  | .lteLong => true
  | .gtChar => true
  | .gtInt => true
  | .gtLong => true
  | .gteChar => true
  | .gteInt => true
  | .gteLong => true
  | .mallocByte _ => true
  | .mallocHword _ => true
  | .mallocWord _ => true
  | .mgetByte _ => true
  | .mgetHword _ => true
  | .mgetWord _ => true
  | .msetByte _ => true
  | .msetHword _ => true
  | .msetWord _ => true
  | .mdelete => true
  | .msize => true
  | .jumpAbs _ => true
  | .jumpIfByte _ => true
  | .jumpIfHword _ => true
  | .jumpIfWord _ => true
  | .call _ => true
  | .ret => true
  | .halt => true

end Sys2Proof
end

