-- ==== Sys2Proof/Decode.lean ====
section
/-! DEFINITION. The opcode decoder, the record decoder, the wire format in both directions, and the two
table-word functions.  Byte order is little-endian (20_memory.md R40, 30_encoding.md R74). -/

namespace Sys2Proof

/-! ## Byte order -/

/-- The number that bytes make with the least significant byte first (20_memory.md R40). -/
def leNat : List Byte → Nat
  | [] => 0
  | b :: bs => b.toNat + 256 * leNat bs

/-- The `n` low bytes of `v`, least significant first (20_memory.md R40). -/
def leBytes : Nat → Nat → List Byte
  | 0, _ => []
  | n + 1, v => BitVec.ofNat 8 v :: leBytes n (v / 256)

/-! ## The opcode byte -/

/-- The operation classes of 30_encoding.md R78. -/
inductive OpClass where
  | push | pushReg | pop | mov | dup | arith | logic | cmp | heap | ctrl | halt
deriving DecidableEq, Repr

/-- The operations within the classes (30_encoding.md R79).  `cmp` carries the signedness and the relation. -/
inductive Operation where
  | push | pushReg | pop | mov | dup
  | plus | sub | mult
  | not | or | and | xor
  | cmp (signed : Bool) (rel : Relation)
  | malloc | mget | mset | mdelete | msize
  | jumpAbs | jumpIf | call | ret
  | halt
deriving DecidableEq, Repr

/-- The outputs of `Decode` for a valid opcode: the tuple of 30_encoding.md R82. -/
structure Decoded where
  cls : OpClass
  op : Operation
  width : Option Width
  signed : Bool
  paylen : Nat
  usesReg : Bool
deriving DecidableEq, Repr

/-- The class table of 30_encoding.md R78: mask, match, class.  Class 0 has no row. -/
def classTable : List (Byte × Byte × OpClass) :=
  [(0xF0, 0x10, .push), (0xF0, 0x20, .pushReg), (0xF0, 0x30, .pop), (0xF0, 0x40, .mov),
   (0xF0, 0x50, .dup), (0xF0, 0x60, .arith), (0xF0, 0x70, .logic), (0xC0, 0x80, .cmp),
   (0xE0, 0xC0, .heap), (0xF0, 0xE0, .ctrl), (0xF0, 0xF0, .halt)]

/-- The class of an opcode: the row whose mask and match it meets (30_encoding.md R78). -/
def classOf (opcode : Byte) : Option OpClass :=
  (classTable.find? fun row => opcode &&& row.1 == row.2.1).map fun row => row.2.2

/-- Bits `lo .. lo + len - 1` of the opcode (30_encoding.md R76). -/
def opcodeField (opcode : Byte) (lo len : Nat) : Nat :=
  (opcode.extractLsb' lo len).toNat

/-- The width tag `opcode[1:0]` (30_encoding.md R77). -/
def widthTag (opcode : Byte) : Option Width :=
  match opcodeField opcode 0 2 with
  | 1 => some .byte
  | 2 => some .hword
  | 3 => some .word
  | _ => none

/-- The relation coded by `opcode[4:2]` (30_encoding.md R79). -/
def relationOf : Nat → Option Relation
  | 0 => some .eq
  | 1 => some .lt
  | 2 => some .lte
  | 3 => some .gt
  | 4 => some .gte
  | _ => none

/-- The operation field of each class (30_encoding.md R79). -/
def operationOf (cls : OpClass) (opcode : Byte) : Option Operation :=
  let sub := opcodeField opcode 2 2
  let wide := opcodeField opcode 2 3
  match cls with
  | .push => if sub = 0 then some .push else none
  | .pushReg => if sub = 0 then some .pushReg else none
  | .pop => if sub = 0 then some .pop else none
  | .mov => if sub = 0 then some .mov else none
  | .dup => if sub = 0 then some .dup else none
  | .arith =>
    match sub with
    | 0 => some .plus
    | 1 => some .sub
    | 2 => some .mult
    | _ => none
  | .logic =>
    match sub with
    | 0 => some .not
    | 1 => some .or
    | 2 => some .and
    | _ => some .xor
  | .cmp => (relationOf wide).map (Operation.cmp (opcodeField opcode 5 1 == 1))
  | .heap =>
    match wide with
    | 0 => some .malloc
    | 1 => some .mget
    | 2 => some .mset
    | 3 => some .mdelete
    | 4 => some .msize
    | _ => none
  | .ctrl =>
    match sub with
    | 0 => some .jumpAbs
    | 1 => some .jumpIf
    | 2 => some .call
    | _ => some .ret
  | .halt => if sub = 0 then some .halt else none

/-- Whether an operation has a width, and so needs a width tag other than `00` (30_encoding.md R77). -/
def Operation.hasWidth : Operation → Bool
  | .mdelete | .msize | .jumpAbs | .call | .ret | .halt => false
  | _ => true

/-- The number of operand bytes on the wire (30_encoding.md R72). -/
def Operation.paylen (op : Operation) (width : Option Width) : Nat :=
  match op with
  | .push => (width.map Width.bytes).getD 0
  | .malloc | .mget | .mset | .jumpAbs | .jumpIf | .call => 8
  | _ => 0

/-- Whether an operation uses the register index: exactly PUSH_REG and MOV (30_encoding.md R82). -/
def Operation.usesReg : Operation → Bool
  | .pushReg | .mov => true
  | _ => false

/-- Whether an operation is a signed comparison (30_encoding.md R82). -/
def Operation.isSigned : Operation → Bool
  | .cmp signed _ => signed
  | _ => false

/-- `Decode(opcode)` of 30_encoding.md R82, total on the 256 byte values; `none` is `Invalid`. -/
def decodeOpcode (opcode : Byte) : Option Decoded :=
  match classOf opcode with
  | none => none
  | some cls =>
    match operationOf cls opcode with
    | none => none
    | some op =>
      let width := widthTag opcode
      if width.isSome = op.hasWidth then
        some ⟨cls, op, width, op.isSigned, op.paylen width, op.usesReg⟩
      else none

/-! ## The stored record -/

/-- The instruction that a decoded operation is, with the record's register index `r` and operand `imm`
(30_encoding.md R80).  A combination that `decodeOpcode` never produces is no instruction. -/
def instrOf (op : Operation) (width : Option Width) (r : Byte) (imm : Word) : Option Instr :=
  match op, width with
  | .push, some .byte => some (.pushByte imm)
  | .push, some .hword => some (.pushHword imm)
  | .push, some .word => some (.pushWord imm)
  | .pushReg, some .byte => some (.pushRegByte r)
  | .pushReg, some .hword => some (.pushRegHword r)
  | .pushReg, some .word => some (.pushRegWord r)
  | .pop, some .byte => some (.popByte)
  | .pop, some .hword => some (.popHword)
  | .pop, some .word => some (.popWord)
  | .mov, some .byte => some (.movByte r)
  | .mov, some .hword => some (.movHword r)
  | .mov, some .word => some (.movWord r)
  | .dup, some .byte => some (.dupByte)
  | .dup, some .hword => some (.dupHword)
  | .dup, some .word => some (.dupWord)
  | .plus, some .byte => some (.plusByte)
  | .plus, some .hword => some (.plusHword)
  | .plus, some .word => some (.plusWord)
  | .sub, some .byte => some (.subByte)
  | .sub, some .hword => some (.subHword)
  | .sub, some .word => some (.subWord)
  | .mult, some .byte => some (.multByte)
  | .mult, some .hword => some (.multHword)
  | .mult, some .word => some (.multWord)
  | .not, some .byte => some (.notByte)
  | .not, some .hword => some (.notHword)
  | .not, some .word => some (.notWord)
  | .or, some .byte => some (.orByte)
  | .or, some .hword => some (.orHword)
  | .or, some .word => some (.orWord)
  | .and, some .byte => some (.andByte)
  | .and, some .hword => some (.andHword)
  | .and, some .word => some (.andWord)
  | .xor, some .byte => some (.xorByte)
  | .xor, some .hword => some (.xorHword)
  | .xor, some .word => some (.xorWord)
  | .cmp false .eq, some .byte => some (.eqByte)
  | .cmp false .eq, some .hword => some (.eqHword)
  | .cmp false .eq, some .word => some (.eqWord)
  | .cmp false .lt, some .byte => some (.ltByte)
  | .cmp false .lt, some .hword => some (.ltHword)
  | .cmp false .lt, some .word => some (.ltWord)
  | .cmp false .lte, some .byte => some (.lteByte)
  | .cmp false .lte, some .hword => some (.lteHword)
  | .cmp false .lte, some .word => some (.lteWord)
  | .cmp false .gt, some .byte => some (.gtByte)
  | .cmp false .gt, some .hword => some (.gtHword)
  | .cmp false .gt, some .word => some (.gtWord)
  | .cmp false .gte, some .byte => some (.gteByte)
  | .cmp false .gte, some .hword => some (.gteHword)
  | .cmp false .gte, some .word => some (.gteWord)
  | .cmp true .eq, some .byte => some (.eqChar)
  | .cmp true .eq, some .hword => some (.eqInt)
  | .cmp true .eq, some .word => some (.eqLong)
  | .cmp true .lt, some .byte => some (.ltChar)
  | .cmp true .lt, some .hword => some (.ltInt)
  | .cmp true .lt, some .word => some (.ltLong)
  | .cmp true .lte, some .byte => some (.lteChar)
  | .cmp true .lte, some .hword => some (.lteInt)
  | .cmp true .lte, some .word => some (.lteLong)
  | .cmp true .gt, some .byte => some (.gtChar)
  | .cmp true .gt, some .hword => some (.gtInt)
  | .cmp true .gt, some .word => some (.gtLong)
  | .cmp true .gte, some .byte => some (.gteChar)
  | .cmp true .gte, some .hword => some (.gteInt)
  | .cmp true .gte, some .word => some (.gteLong)
  | .malloc, some .byte => some (.mallocByte imm)
  | .malloc, some .hword => some (.mallocHword imm)
  | .malloc, some .word => some (.mallocWord imm)
  | .mget, some .byte => some (.mgetByte imm)
  | .mget, some .hword => some (.mgetHword imm)
  | .mget, some .word => some (.mgetWord imm)
  | .mset, some .byte => some (.msetByte imm)
  | .mset, some .hword => some (.msetHword imm)
  | .mset, some .word => some (.msetWord imm)
  | .mdelete, none => some .mdelete
  | .msize, none => some (.msize)
  | .jumpAbs, none => some (.jumpAbs imm)
  | .jumpIf, some .byte => some (.jumpIfByte imm)
  | .jumpIf, some .hword => some (.jumpIfHword imm)
  | .jumpIf, some .word => some (.jumpIfWord imm)
  | .call, none => some (.call imm)
  | .ret, none => some (.ret)
  | .halt, none => some (.halt)
  | _, _ => none

/-- The instruction a stored record is, or `none` where its opcode is reserved (40_engine.md R103).  Only the
opcode byte selects the instruction (30_encoding.md R80, R82). -/
def decodeRecord (rec : Record) : Option Instr :=
  (decodeOpcode rec.opcode).bind fun d => instrOf d.op d.width rec.registerIndex rec.operand

/-! ## The wire format -/

/-- Why a wire record is rejected.  Both are the error class `InvalidOpcode` of the machine
(30_encoding.md R83). -/
inductive DecodeError where
  /-- The opcode byte is one of the 172 reserved values (30_encoding.md R81). -/
  | unknownOpcode (opcode : Byte)
  /-- The stream ends inside the record (30_encoding.md R83). -/
  | truncatedRecord
deriving DecidableEq, Repr

/-- One turn of the loop of `DecodeStream` (30_encoding.md R83): the first record and the bytes after it. -/
def takeRecord : List Byte → Except DecodeError (Record × List Byte)
  | [] => .error .truncatedRecord
  | opcode :: tail =>
    match decodeOpcode opcode with
    | none => .error (.unknownOpcode opcode)
    | some d =>
      match tail with
      | [] => .error .truncatedRecord
      | reg :: payload =>
        if payload.length < d.paylen then .error .truncatedRecord
        else .ok (⟨opcode, reg, BitVec.ofNat 64 (leNat (payload.take d.paylen))⟩, payload.drop d.paylen)

/-- The first instruction of a byte string and the bytes after it, total on any bytes. -/
def decode (bytes : List Byte) : Except DecodeError (Instr × List Byte) :=
  match takeRecord bytes with
  | .error e => .error e
  | .ok (rec, rest) =>
    match decodeRecord rec with
    | some i => .ok (i, rest)
    | none => .error (.unknownOpcode rec.opcode)

/-- The loop of `DecodeStream` under fuel; every turn uses up at least two bytes, so fuel equal to the
number of bytes never runs out. -/
def decodeStreamFuel : Nat → List Byte → Except ErrorKind (List Record)
  | _, [] => .ok []
  | 0, _ :: _ => .error .invalidOpcode
  | fuel + 1, b :: bs =>
    match takeRecord (b :: bs) with
    | .error _ => .error .invalidOpcode
    | .ok (rec, rest) =>
      match decodeStreamFuel fuel rest with
      | .error k => .error k
      | .ok recs => .ok (rec :: recs)

/-- `DecodeStream(bytes)` of 30_encoding.md R83. -/
def decodeStream (bytes : List Byte) : Except ErrorKind (List Record) :=
  decodeStreamFuel bytes.length bytes

/-- The wire bytes of a record with a valid opcode (30_encoding.md R71, R84). -/
def recordBytes (rec : Record) : Option (List Byte) :=
  (decodeOpcode rec.opcode).map fun d =>
    rec.opcode :: rec.registerIndex :: leBytes d.paylen rec.operand.toNat

/-- `EncodeStream(P)` of 30_encoding.md R84, defined only where every opcode is valid. -/
def encodeStream : List Record → Option (List Byte)
  | [] => some []
  | rec :: recs =>
    match recordBytes rec, encodeStream recs with
    | some bytes, some rest => some (bytes ++ rest)
    | _, _ => none

/-- A record that the wire can carry whole: a valid opcode, and an operand that fits its payload
(30_encoding.md R84). -/
def Record.fitsWire (rec : Record) : Bool :=
  match decodeOpcode rec.opcode with
  | none => false
  | some d => decide (rec.operand.toNat < 2 ^ (8 * d.paylen))

/-! ## The encoder -/

/-- The fields of an instruction's wire record: opcode, register index, payload length, operand. -/
structure WireFields where
  opcode : Byte
  registerIndex : Byte
  paylen : Nat
  operand : Word
deriving DecidableEq, Repr

/-- The wire fields of each instruction, from the opcode map of 30_encoding.md R80 and the formats of R73.
An unused register index is written as 0 (R75). -/
def wireFields : Instr → WireFields
  | .pushByte imm => ⟨0x11, 0, 1, imm⟩
  | .pushHword imm => ⟨0x12, 0, 4, imm⟩
  | .pushWord imm => ⟨0x13, 0, 8, imm⟩
  | .pushRegByte r => ⟨0x21, r, 0, 0⟩
  | .pushRegHword r => ⟨0x22, r, 0, 0⟩
  | .pushRegWord r => ⟨0x23, r, 0, 0⟩
  | .popByte => ⟨0x31, 0, 0, 0⟩
  | .popHword => ⟨0x32, 0, 0, 0⟩
  | .popWord => ⟨0x33, 0, 0, 0⟩
  | .movByte r => ⟨0x41, r, 0, 0⟩
  | .movHword r => ⟨0x42, r, 0, 0⟩
  | .movWord r => ⟨0x43, r, 0, 0⟩
  | .dupByte => ⟨0x51, 0, 0, 0⟩
  | .dupHword => ⟨0x52, 0, 0, 0⟩
  | .dupWord => ⟨0x53, 0, 0, 0⟩
  | .plusByte => ⟨0x61, 0, 0, 0⟩
  | .plusHword => ⟨0x62, 0, 0, 0⟩
  | .plusWord => ⟨0x63, 0, 0, 0⟩
  | .subByte => ⟨0x65, 0, 0, 0⟩
  | .subHword => ⟨0x66, 0, 0, 0⟩
  | .subWord => ⟨0x67, 0, 0, 0⟩
  | .multByte => ⟨0x69, 0, 0, 0⟩
  | .multHword => ⟨0x6A, 0, 0, 0⟩
  | .multWord => ⟨0x6B, 0, 0, 0⟩
  | .notByte => ⟨0x71, 0, 0, 0⟩
  | .notHword => ⟨0x72, 0, 0, 0⟩
  | .notWord => ⟨0x73, 0, 0, 0⟩
  | .orByte => ⟨0x75, 0, 0, 0⟩
  | .orHword => ⟨0x76, 0, 0, 0⟩
  | .orWord => ⟨0x77, 0, 0, 0⟩
  | .andByte => ⟨0x79, 0, 0, 0⟩
  | .andHword => ⟨0x7A, 0, 0, 0⟩
  | .andWord => ⟨0x7B, 0, 0, 0⟩
  | .xorByte => ⟨0x7D, 0, 0, 0⟩
  | .xorHword => ⟨0x7E, 0, 0, 0⟩
  | .xorWord => ⟨0x7F, 0, 0, 0⟩
  | .eqByte => ⟨0x81, 0, 0, 0⟩
  | .eqHword => ⟨0x82, 0, 0, 0⟩
  | .eqWord => ⟨0x83, 0, 0, 0⟩
  | .ltByte => ⟨0x85, 0, 0, 0⟩
  | .ltHword => ⟨0x86, 0, 0, 0⟩
  | .ltWord => ⟨0x87, 0, 0, 0⟩
  | .lteByte => ⟨0x89, 0, 0, 0⟩
  | .lteHword => ⟨0x8A, 0, 0, 0⟩
  | .lteWord => ⟨0x8B, 0, 0, 0⟩
  | .gtByte => ⟨0x8D, 0, 0, 0⟩
  | .gtHword => ⟨0x8E, 0, 0, 0⟩
  | .gtWord => ⟨0x8F, 0, 0, 0⟩
  | .gteByte => ⟨0x91, 0, 0, 0⟩
  | .gteHword => ⟨0x92, 0, 0, 0⟩
  | .gteWord => ⟨0x93, 0, 0, 0⟩
  | .eqChar => ⟨0xA1, 0, 0, 0⟩
  | .eqInt => ⟨0xA2, 0, 0, 0⟩
  | .eqLong => ⟨0xA3, 0, 0, 0⟩
  | .ltChar => ⟨0xA5, 0, 0, 0⟩
  | .ltInt => ⟨0xA6, 0, 0, 0⟩
  | .ltLong => ⟨0xA7, 0, 0, 0⟩
  | .lteChar => ⟨0xA9, 0, 0, 0⟩
  | .lteInt => ⟨0xAA, 0, 0, 0⟩
  | .lteLong => ⟨0xAB, 0, 0, 0⟩
  | .gtChar => ⟨0xAD, 0, 0, 0⟩
  | .gtInt => ⟨0xAE, 0, 0, 0⟩
  | .gtLong => ⟨0xAF, 0, 0, 0⟩
  | .gteChar => ⟨0xB1, 0, 0, 0⟩
  | .gteInt => ⟨0xB2, 0, 0, 0⟩
  | .gteLong => ⟨0xB3, 0, 0, 0⟩
  | .mallocByte n => ⟨0xC1, 0, 8, n⟩
  | .mallocHword n => ⟨0xC2, 0, 8, n⟩
  | .mallocWord n => ⟨0xC3, 0, 8, n⟩
  | .mgetByte n => ⟨0xC5, 0, 8, n⟩
  | .mgetHword n => ⟨0xC6, 0, 8, n⟩
  | .mgetWord n => ⟨0xC7, 0, 8, n⟩
  | .msetByte n => ⟨0xC9, 0, 8, n⟩
  | .msetHword n => ⟨0xCA, 0, 8, n⟩
  | .msetWord n => ⟨0xCB, 0, 8, n⟩
  | .mdelete => ⟨0xCC, 0, 0, 0⟩
  | .msize => ⟨0xD0, 0, 0, 0⟩
  | .jumpAbs t => ⟨0xE0, 0, 8, t⟩
  | .jumpIfByte t => ⟨0xE5, 0, 8, t⟩
  | .jumpIfHword t => ⟨0xE6, 0, 8, t⟩
  | .jumpIfWord t => ⟨0xE7, 0, 8, t⟩
  | .call t => ⟨0xE8, 0, 8, t⟩
  | .ret => ⟨0xEC, 0, 0, 0⟩
  | .halt => ⟨0xF0, 0, 0, 0⟩

/-- The stored record of an instruction (30_encoding.md R70). -/
def encodeRecord (i : Instr) : Record :=
  ⟨(wireFields i).opcode, (wireFields i).registerIndex, (wireFields i).operand⟩

/-- The wire bytes of an instruction (30_encoding.md R71). -/
def encode (i : Instr) : List Byte :=
  (wireFields i).opcode :: (wireFields i).registerIndex ::
    leBytes (wireFields i).paylen (wireFields i).operand.toNat

/-! ## Words of the opcode table -/

/-- The bytes of a table word: its first `nbits` bits, byte 0 first, then zeros up to the ten bytes of the
longest record (30_encoding.md R73). -/
def tableBytes (nbits w : Nat) : List Byte :=
  leBytes 10 (w % 2 ^ nbits)

/-- The instruction the decoder reads from a table word, `none` where it refuses. -/
def decodeTableWord (nbits w : Nat) : Option Instr :=
  match decode (tableBytes nbits w) with
  | .ok (i, _) => some i
  | .error _ => none

/-- The record stored for a table word: what the loader makes of its bytes or, where the loader would
reject them, the 80 bits as they are (30_encoding.md R70). -/
def tableRecord (nbits w : Nat) : Record :=
  match takeRecord (tableBytes nbits w) with
  | .ok (rec, _) => rec
  | .error _ =>
    ⟨BitVec.ofNat 8 (w % 2 ^ nbits), BitVec.ofNat 8 (w % 2 ^ nbits / 2 ^ 8),
      BitVec.ofNat 64 (w % 2 ^ nbits / 2 ^ 16)⟩

end Sys2Proof
end

