-- ==== Sys2Proof/Config.lean ====
section
/-! DEFINITION. What the machine's manual leaves to nobody: the free values.  None has a body, so nothing
proves what any of them is, and every statement holds whatever they are. -/

namespace Sys2Proof

/-- FREE VALUE (log 6).  The byte that the policy HEAP_FILL draws for byte `offset` of the block made by
draw number `draw`, read until something writes that byte (20_memory.md R55, 93 U2). -/
opaque Config.heapFill (draw offset : Nat) : Byte

/-- FREE VALUE (log 4).  The unspecified initial byte `a` of the stack buffer (10_state.md R38, 93 U3). -/
opaque Config.stackInit (a : Nat) : Byte

/-- FREE VALUE (log 5).  The unspecified initial word `i` of the call-stack buffer (10_state.md R38, 93 U3). -/
opaque Config.callInit (i : Nat) : Word

/-- FREE VALUE (log 7).  The handle that an allocation policy other than ALLOC_SEQ proposes at draw number
`draw` when the handles in `live` are live; `none` when it has no handle left (20_memory.md R50, 93 U1). -/
opaque Config.allocOther (draw : Nat) (live : List Nat) : Option Word

end Sys2Proof
end

