-- ==== Sys2Proof/Machine/State.lean ====
section
/-! DEFINITION. The state of one machine, the reasons a step can stop, and the state after reset. -/

namespace Sys2Proof.Machine

/-- The run status (10_state.md R30).  The 8-bit register STATUS is a view of it, `statusRegister`. -/
inductive Status where
  | running
  | haltedOk
  | haltedError (kind : ErrorKind)
deriving DecidableEq, Repr

/-- The allocation policy latched at reset, the OPEN parameter ALLOC (00_scope.md R6, 20_memory.md R50). -/
inductive AllocPolicy where
  /-- ALLOC_SEQ, the spec's default: handles 1, 2, 3, ... from `hnext`. -/
  | seq
  /-- Any other policy: its choices are the free value `Config.allocOther` (log 7). -/
  | other
deriving DecidableEq, Repr

/-- A heap block (10_state.md R24).  `data` lists the bytes something has written, by offset; a byte it does
not list is the free draw `Config.heapFill fill offset` (20_memory.md R55, log 6). -/
structure Block where
  size : Word
  fill : Nat
  data : List Host.Cell
deriving DecidableEq, Repr

/-- The state of one machine: the tuple of 10_state.md R20, the launch parameters that reset latches
(70_reset_and_hazards.md R290, log 1), and one field of the model's own, `draws`. -/
structure State where
  /-- S (R21): the bytes something has written, by address, addresses rising. -/
  stack : List Host.Cell
  /-- The cursor of S (R21). -/
  sp : Word
  /-- The register file x (R22); NREG is its length. -/
  regs : List Word
  /-- The heap H (R24): the live blocks by handle, handles rising. -/
  heap : List (Nat × Block)
  /-- The allocator's next handle (R25). -/
  hnext : Word
  /-- CS (R26): the entries something has written, by index, indices rising. -/
  callStack : List (Nat × Word)
  /-- The cursor of CS (R26). -/
  csp : Word
  /-- The instruction pointer, a record index (R28). -/
  ip : Word
  /-- The run status (R30). -/
  status : Status
  /-- The program P (R27); PLEN is its length. -/
  program : List Record
  /-- STACK_MAX (00_scope.md R6). -/
  stackMax : Word
  /-- CALL_MAX (00_scope.md R6). -/
  callMax : Word
  /-- HEAP_LIMIT, absent when the host imposes none (00_scope.md R6). -/
  heapLimit : Option Nat
  /-- ALLOC (00_scope.md R6). -/
  alloc : AllocPolicy
  /-- The MODEL's own: how many blocks have been allocated, the number of the next free draw (log 6). -/
  draws : Nat
deriving DecidableEq, Repr

/-- Why a step stops with a fault. -/
inductive Fault where
  /-- Raised by `step` alone, in a halted state: the spec gives a halted machine no successor
  (40_engine.md R110, 93 U6).  Safe: no claim can be made about a step that does not exist. -/
  | halted
deriving DecidableEq, Repr

/-- Why a step is refused. -/
inductive Refusal where
  /-- The instruction has no meaning in the model yet.  No arm of `exec` answers with it.  Safe. -/
  | notModelled (mnemonic : String)
deriving DecidableEq, Repr

/-- The state after reset (10_state.md R38) for the launch of the test-vector conventions of
95_test_vectors.md: STACK_MAX = 16, CALL_MAX = 2, NREG = 4 registers given by count, an empty heap, no HEAP_LIMIT,
ALLOC_SEQ (log 1), and no program loaded (log 2). -/
def State.reset : State where
  stack := []
  sp := 0
  regs := [0, 0, 0, 0]
  heap := []
  hnext := 1
  callStack := []
  csp := 0
  ip := 0
  status := .running
  program := []
  stackMax := 16
  callMax := 2
  heapLimit := none
  alloc := .seq
  draws := 0

end Sys2Proof.Machine
end

