-- ==== Sys2Proof/Machine/Memory.lean ====
section
/-! DEFINITION. Sparse storage: the one canonical form of the byte buffers, the call stack and the heap, and
the generic little-endian access of 20_memory.md R40. -/

namespace Sys2Proof.Machine

/-- The entry stored at `a`, `none` where nothing is stored. -/
def Sparse.get {α : Type} : List (Nat × α) → Nat → Option α
  | [], _ => none
  | (k, v) :: m, a => if k = a then some v else Sparse.get m a

/-- `m` with `v` stored at `a`, keys kept rising. -/
def Sparse.set {α : Type} : List (Nat × α) → Nat → α → List (Nat × α)
  | [], a, v => [(a, v)]
  | (k, x) :: m, a, v =>
    if a < k then (a, v) :: (k, x) :: m
    else if a = k then (a, v) :: m
    else (k, x) :: Sparse.set m a v

/-- `m` with nothing stored at `a`. -/
def Sparse.erase {α : Type} (m : List (Nat × α)) (a : Nat) : List (Nat × α) :=
  m.filter fun e => e.1 != a

/-- The canonical form: keys strictly rising.  Storage that holds the same entries is the same list. -/
def Sparse.wf {α : Type} : List (Nat × α) → Bool
  | [] => true
  | (k, _) :: m => m.all (fun e => decide (k < e.1)) && Sparse.wf m

/-- The canonical form of a byte memory.  An address it does not list has no stored byte, so no entry can equal
what an unlisted address reads as (log 9). -/
def Memory.wf (m : List Host.Cell) : Bool :=
  Sparse.wf m

/-- `m` with the bytes `bs` stored at `a`, `a + 1`, ... (`MemWrite`, 20_memory.md R40). -/
def Memory.write : List Host.Cell → Nat → List Byte → List Host.Cell
  | m, _, [] => m
  | m, a, b :: bs => Memory.write (Sparse.set m a b) (a + 1) bs

/-- The bytes at `a .. a + n - 1` through the byte read `rd`. -/
def bytesAt (rd : Nat → Byte) (a : Nat) : Nat → List Byte
  | 0 => []
  | n + 1 => rd a :: bytesAt rd (a + 1) n

/-- `MemRead`: the value of width `w` at `a`, least significant byte at the lowest address (20_memory.md R40). -/
def memRead (rd : Nat → Byte) (a : Nat) (w : Width) : BitVec w.bits :=
  BitVec.ofNat w.bits (leNat (bytesAt rd a w.bytes))

/-- The bytes `MemWrite` stores for `v`, least significant first (20_memory.md R40). -/
def valueBytes {w : Width} (v : BitVec w.bits) : List Byte :=
  leBytes w.bytes v.toNat

/-- One byte `S[a]` of the operand-stack buffer.  A byte nothing has written is the free value of log 4. -/
def stackByte (s : State) (a : Nat) : Byte :=
  (Sparse.get s.stack a).getD (Config.stackInit a)

/-- The value of width `w` at address `a` of S. -/
def stackValue (s : State) (a : Nat) (w : Width) : BitVec w.bits :=
  memRead (stackByte s) a w

/-- One entry `CS[i]` of the call stack.  An entry nothing has written is the free value of log 5. -/
def callEntry (s : State) (i : Nat) : Word :=
  (Sparse.get s.callStack i).getD (Config.callInit i)

/-- One byte of a block.  A byte nothing has written is the free draw of HEAP_FILL (20_memory.md R55, log 6). -/
def blockByte (b : Block) (off : Nat) : Byte :=
  (Sparse.get b.data off).getD (Config.heapFill b.fill off)

/-- The value of width `w` at byte offset `off` of a block. -/
def blockValue (b : Block) (off : Nat) (w : Width) : BitVec w.bits :=
  memRead (blockByte b) off w

/-- The live block of handle `h`, if any; all 64 bits of the handle are compared (20_memory.md R49). -/
def blockOf (s : State) (h : Word) : Option Block :=
  Sparse.get s.heap h.toNat

/-- The live handles, rising. -/
def liveHandles (s : State) : List Nat :=
  s.heap.map Prod.fst

/-- The sum of the sizes of the live blocks (20_memory.md R50). -/
def liveBytes (s : State) : Nat :=
  (s.heap.map fun e => e.2.size.toNat).sum

end Sys2Proof.Machine
end

