-- ==== Sys2Proof/Machine/Operands.lean ====
section
/-! DEFINITION. The operand forms of OVM-I: an immediate value, a register index, an element count or
index, a target record index. -/

namespace Sys2Proof.Machine

/-- The immediate `imm[8w-1:0]` of `PUSH_w`; the bits above are ignored (41_stack_register.md R136). -/
def immediate (w : Width) (imm : Word) : BitVec w.bits :=
  imm.setWidth w.bits

/-- The register number of a `register_index` byte (30_encoding.md R75). -/
def registerNumber (r : Byte) : Nat :=
  r.toNat

/-- The size in bytes of `n` elements, and the byte offset of element `n`: `n * w`, on naturals
(45_heap.md R231). -/
def elementOffset (w : Width) (n : Word) : Nat :=
  n.toNat * w.bytes

/-- The record index that a control operand names, absolute (46_control.md R240). -/
def targetIndex (t : Word) : Nat :=
  t.toNat

end Sys2Proof.Machine
end

