-- ==== Sys2Proof/Machine/Ops.lean ====
section
/-! DEFINITION. The primitives every instruction is written with (00_scope.md R11, 20_memory.md), raising an
error, and the end of an instruction. -/

namespace Sys2Proof.Machine

/-! ## Results of a primitive -/

/-- What a primitive answers: a value and the state after it, or an error kind and the state at the raise,
with every write made so far (40_engine.md R106, R107). -/
inductive Result (α : Type) where
  | ok (a : α) (s : State)
  | raised (k : ErrorKind) (s : State)

/-- The next primitive runs only where this one did not raise (40_engine.md R101). -/
def Result.bind {α β : Type} (r : Result α) (f : α → State → Result β) : Result β :=
  match r with
  | .ok a s => f a s
  | .raised k s => .raised k s

/-- Taking an error, the machine's one exceptional event: only `status` changes, `ip` still indexes the
failing record (40_engine.md R106, 60_exceptions.md R274, R276).  There is no return from it (R278). -/
def takeError (k : ErrorKind) (s : State) : State :=
  { s with status := .haltedError k }

/-- The outcome of an instruction whose primitives have run (40_engine.md R101). -/
def Result.outcome (r : Result Unit) : Host.Outcome State Fault Refusal :=
  match r with
  | .ok _ s => .next s
  | .raised k s => .next (takeError k s)

/-! ## The operand stack (20_memory.md section 2) -/

/-- The state after `Push(w, v)` has room. -/
def afterPush {w : Width} (v : BitVec w.bits) (s : State) : State :=
  { s with
    stack := Memory.write s.stack s.sp.toNat (valueBytes v)
    sp := s.sp + BitVec.ofNat 64 w.bytes }

/-- `Push(w, v)` (20_memory.md R41). -/
def push {w : Width} (v : BitVec w.bits) (s : State) : Result Unit :=
  if s.stackMax.toNat < s.sp.toNat + w.bytes then .raised .stackOverflow s
  else .ok () (afterPush v s)

/-- The state after `Pop(w)`: only the cursor moves (20_memory.md R42, R45). -/
def afterPop (w : Width) (s : State) : State :=
  { s with sp := s.sp - BitVec.ofNat 64 w.bytes }

/-- The top value of width `w` (20_memory.md R43). -/
def topValue (w : Width) (s : State) : BitVec w.bits :=
  stackValue s (s.sp.toNat - w.bytes) w

/-- `Pop(w)` (20_memory.md R42). -/
def pop (w : Width) (s : State) : Result (BitVec w.bits) :=
  if s.sp.toNat < w.bytes then .raised .stackUnderflow s
  else .ok (topValue w s) (afterPop w s)

/-- `Peek(w)` (20_memory.md R43). -/
def peek (w : Width) (s : State) : Result (BitVec w.bits) :=
  if s.sp.toNat < w.bytes then .raised .stackUnderflow s
  else .ok (topValue w s) s

/-! ## The register file (20_memory.md section 3) -/

/-- The invalid-register error of an access width (20_memory.md R46). -/
def invalidRegister : Width → ErrorKind
  | .byte => .invalidRegisterByte
  | .hword => .invalidRegisterHWord
  | .word => .invalidRegisterWord

/-- `RegCheck(i, w)` (20_memory.md R46). -/
def regCheck (r : Byte) (w : Width) (s : State) : Result Unit :=
  if s.regs.length ≤ registerNumber r then .raised (invalidRegister w) s else .ok () s

/-- The cell `x[i]`.  Every instruction checks the index first, so the 0 of a cell that does not exist is read
by none (log 10). -/
def regCell (s : State) (i : Nat) : Word :=
  s.regs.getD i 0

/-- `RegRead(i, w)`: the low-order `w` bytes of the cell (20_memory.md R47). -/
def regRead (r : Byte) (w : Width) (s : State) : BitVec w.bits :=
  (regCell s (registerNumber r)).setWidth w.bits

/-- A cell with its low-order `w` bytes replaced by `v` and the others kept (20_memory.md R48). -/
def replaceLow {w : Width} (cell : Word) (v : BitVec w.bits) : Word :=
  BitVec.ofNat 64 (cell.toNat / 2 ^ w.bits * 2 ^ w.bits + v.toNat)

/-- `RegWrite(i, w, v)` (20_memory.md R48). -/
def regWrite {w : Width} (r : Byte) (v : BitVec w.bits) (s : State) : State :=
  { s with regs := s.regs.set (registerNumber r) (replaceLow (regCell s (registerNumber r)) v) }

/-! ## The heap (20_memory.md section 4) -/

/-- `Lookup(h)` (20_memory.md R49). -/
def lookup (h : Word) (s : State) : Result Block :=
  match blockOf s h with
  | none => .raised .invalidPageAddress s
  | some b => .ok b s

/-- The handle the policy ALLOC gives and the state with its bookkeeping advanced; `none` when it has no handle
left (20_memory.md R50).  A policy other than ALLOC_SEQ may propose any word; R50 obliges it to one that is not
live (log 7). -/
def allocHandle (s : State) : Option (Word × State) :=
  match s.alloc with
  | .seq =>
    if s.hnext.toNat = 2 ^ 64 - 1 then none else some (s.hnext, { s with hnext := s.hnext + 1 })
  | .other =>
    match Config.allocOther s.draws (liveHandles s) with
    | none => none
    | some h => if (blockOf s h).isSome then none else some (h, s)

/-- The new block of `n` bytes, none of them written (20_memory.md R55). -/
def newBlock (n : Nat) (s : State) : Block :=
  ⟨BitVec.ofNat 64 n, s.draws, []⟩

/-- Whether HEAP_LIMIT is present and `n` more bytes would exceed it (20_memory.md R50). -/
def exceedsLimit (n : Nat) (s : State) : Bool :=
  match s.heapLimit with
  | none => false
  | some limit => decide (limit < liveBytes s + n)

/-- `HeapAlloc(n)` (20_memory.md R50, R56). -/
def heapAlloc (n : Nat) (s : State) : Result Word :=
  if 2 ^ 64 ≤ n then .raised .outOfMemory s
  else if exceedsLimit n s then .raised .outOfMemory s
  else
    match allocHandle s with
    | none => .raised .outOfMemory s
    | some (h, s') =>
      .ok h { s' with heap := Sparse.set s.heap h.toNat (newBlock n s), draws := s.draws + 1 }

/-- `HeapRead(h, off, w)` (20_memory.md R51). -/
def heapRead (h : Word) (off : Nat) (w : Width) (s : State) : Result (BitVec w.bits) :=
  (lookup h s).bind fun b s =>
    if b.size.toNat < off + w.bytes then .raised .outOfBounds s
    else .ok (blockValue b off w) s

/-- A block with `v` stored at byte offset `off`. -/
def Block.store {w : Width} (b : Block) (off : Nat) (v : BitVec w.bits) : Block :=
  { b with data := Memory.write b.data off (valueBytes v) }

/-- `HeapWrite(h, off, w, v)` (20_memory.md R52). -/
def heapWrite {w : Width} (h : Word) (off : Nat) (v : BitVec w.bits) (s : State) : Result Unit :=
  (lookup h s).bind fun b s =>
    if b.size.toNat < off + w.bytes then .raised .outOfBounds s
    else .ok () { s with heap := Sparse.set s.heap h.toNat (b.store off v) }

/-- `HeapDelete(h)` (20_memory.md R53). -/
def heapDelete (h : Word) (s : State) : Result Unit :=
  (lookup h s).bind fun _ s => .ok () { s with heap := Sparse.erase s.heap h.toNat }

/-- `HeapSize(h)` (20_memory.md R54). -/
def heapSize (h : Word) (s : State) : Result Word :=
  (lookup h s).bind fun b s => .ok b.size s

/-! ## The call stack (20_memory.md section 5) -/

/-- The call-stack-full check, the first primitive of CALL (40_engine.md R104, 20_memory.md R57). -/
def callCheck (s : State) : Result Unit :=
  if s.csp = s.callMax then .raised .callStackOverflow s else .ok () s

/-- `CsPush(a)` (20_memory.md R57). -/
def csPush (a : Word) (s : State) : Result Unit :=
  (callCheck s).bind fun _ s =>
    .ok () { s with callStack := Sparse.set s.callStack s.csp.toNat a, csp := s.csp + 1 }

/-- `CsPop()` (20_memory.md R58). -/
def csPop (s : State) : Result Word :=
  if s.csp = 0 then .raised .callStackUnderflow s
  else .ok (callEntry s (s.csp.toNat - 1)) { s with csp := s.csp - 1 }

/-! ## The instruction pointer -/

/-- `ip <- ip + 1`, the last change of every instruction that does not set `ip` (40_engine.md R105). -/
def advance (s : State) : Result Unit :=
  .ok () { s with ip := s.ip + 1 }

/-- `ip <- t`. -/
def setIp (t : Word) (s : State) : Result Unit :=
  .ok () { s with ip := t }

/-- The target check (46_control.md R240). -/
def targetCheck (t : Word) (s : State) : Result Unit :=
  if s.program.length ≤ targetIndex t then .raised .invalidProgramAddress s else .ok () s

/-! ## Fetch and decode -/

/-- `Fetch()` (20_memory.md R59). -/
def fetch (s : State) : Result Record :=
  match s.program[s.ip.toNat]? with
  | none => .raised .endOfProgram s
  | some rec => .ok rec s

/-- Lines 1 and 2 of `Step`: fetch, then decode (40_engine.md R101 to R103). -/
def fetchDecode (s : State) : Result Instr :=
  (fetch s).bind fun rec s =>
    match decodeRecord rec with
    | none => .raised .invalidOpcode s
    | some i => .ok i s

/-- A program with `rec` at index `k`: the record there replaced or, past the end, the program padded with
all-zero records up to it (log 11). -/
def placeRecord (program : List Record) (k : Nat) (rec : Record) : List Record :=
  if k < program.length then program.set k rec
  else program ++ List.replicate (k - program.length) ⟨0, 0, 0⟩ ++ [rec]

end Sys2Proof.Machine
end

