-- ==== Sys2Proof/Machine/Alu.lean ====
section
/-! DEFINITION. The sequences of the integer unit that the arithmetic, comparison and logic instructions share
(40_engine.md R104). -/

namespace Sys2Proof.Machine

/-- `Pop(w)` giving `b`, `Pop(w)` giving `a`, then `Push` of the result `f a b`: the value popped first is the right
operand (42_arithmetic.md R150).  A second pop that underflows leaves the first one done (40_engine.md R107). -/
def binaryOp {u : Width} (w : Width) (f : BitVec w.bits → BitVec w.bits → BitVec u.bits) (s : State) :
    Result Unit :=
  (pop w s).bind fun b s =>
    (pop w s).bind fun a s =>
      (push (f a b) s).bind fun _ s => advance s

/-- `Pop(w)`, then `Push` of the result `f v`: the NOT sequence of 40_engine.md R104. -/
def unaryOp (w : Width) (f : BitVec w.bits → BitVec w.bits) (s : State) : Result Unit :=
  (pop w s).bind fun v s =>
    (push (f v) s).bind fun _ s => advance s

end Sys2Proof.Machine
end

