-- ==== Sys2Proof/Machine/Arithmetic.lean ====
section
/-! DEFINITION. The arithmetic instructions (42_arithmetic.md): PLUS, SUB, MULT, modulo `2^(8w)`, no flag and no trap. -/

namespace Sys2Proof.Machine

/-- `(a + b) mod 2^(8w)` (42_arithmetic.md R149). -/
def plus {n : Nat} (a b : BitVec n) : BitVec n :=
  a + b

/-- `(a - b) mod 2^(8w)` (42_arithmetic.md R149). -/
def minus {n : Nat} (a b : BitVec n) : BitVec n :=
  a - b

/-- `(a * b) mod 2^(8w)`, the low bits of the full product (42_arithmetic.md R149). -/
def times {n : Nat} (a b : BitVec n) : BitVec n :=
  a * b

/-- PLUS_BYTE (42_arithmetic.md R140). -/
def execPlusByte (s : State) : Host.Outcome State Fault Refusal :=
  (binaryOp (u := .byte) .byte plus s).outcome

/-- PLUS_HWORD (42_arithmetic.md R141). -/
def execPlusHword (s : State) : Host.Outcome State Fault Refusal :=
  (binaryOp (u := .hword) .hword plus s).outcome

/-- PLUS_WORD (42_arithmetic.md R142). -/
def execPlusWord (s : State) : Host.Outcome State Fault Refusal :=
  (binaryOp (u := .word) .word plus s).outcome

/-- SUB_BYTE (42_arithmetic.md R143). -/
def execSubByte (s : State) : Host.Outcome State Fault Refusal :=
  (binaryOp (u := .byte) .byte minus s).outcome

/-- SUB_HWORD (42_arithmetic.md R144). -/
def execSubHword (s : State) : Host.Outcome State Fault Refusal :=
  (binaryOp (u := .hword) .hword minus s).outcome

/-- SUB_WORD (42_arithmetic.md R145). -/
def execSubWord (s : State) : Host.Outcome State Fault Refusal :=
  (binaryOp (u := .word) .word minus s).outcome

/-- MULT_BYTE (42_arithmetic.md R146). -/
def execMultByte (s : State) : Host.Outcome State Fault Refusal :=
  (binaryOp (u := .byte) .byte times s).outcome

/-- MULT_HWORD (42_arithmetic.md R147). -/
def execMultHword (s : State) : Host.Outcome State Fault Refusal :=
  (binaryOp (u := .hword) .hword times s).outcome

/-- MULT_WORD (42_arithmetic.md R148). -/
def execMultWord (s : State) : Host.Outcome State Fault Refusal :=
  (binaryOp (u := .word) .word times s).outcome

end Sys2Proof.Machine
end

