-- ==== Sys2Proof/Machine/Flags.lean ====
section
/-! DEFINITION. The machine has no flags and no condition codes (10_state.md R32).  What another machine
would set a flag from, this one pushes as a byte: the relations of 43_comparison.md. -/

namespace Sys2Proof.Machine

/-- The signed reading `signed_w(v)`, two's complement (00_scope.md R10). -/
def signedValue {n : Nat} (v : BitVec n) : Int :=
  if 2 * v.toNat < 2 ^ n then (v.toNat : Int) else (v.toNat : Int) - (2 ^ n : Nat)

/-- `a rel b` on the unsigned readings (43_comparison.md R190). -/
def unsignedHolds {n : Nat} (rel : Relation) (a b : BitVec n) : Bool :=
  match rel with
  | .eq => decide (a.toNat = b.toNat)
  | .lt => decide (a.toNat < b.toNat)
  | .lte => decide (a.toNat ≤ b.toNat)
  | .gt => decide (b.toNat < a.toNat)
  | .gte => decide (b.toNat ≤ a.toNat)

/-- `a rel b` on the signed readings (43_comparison.md R190). -/
def signedHolds {n : Nat} (rel : Relation) (a b : BitVec n) : Bool :=
  match rel with
  | .eq => decide (signedValue a = signedValue b)
  | .lt => decide (signedValue a < signedValue b)
  | .lte => decide (signedValue a ≤ signedValue b)
  | .gt => decide (signedValue b < signedValue a)
  | .gte => decide (signedValue b ≤ signedValue a)

/-- The boolean byte of a comparison: 1 or 0 (43_comparison.md R191). -/
def booleanByte (b : Bool) : BitVec Width.byte.bits :=
  if b then 1 else 0

end Sys2Proof.Machine
end

