-- ==== Sys2Proof/Machine/Comparison.lean ====
section
/-! DEFINITION. The comparison instructions (43_comparison.md): five relations, three widths, unsigned and signed. -/

namespace Sys2Proof.Machine

/-- The CMP sequence of 40_engine.md R104 on the unsigned readings: one byte 1 or 0 is pushed
(43_comparison.md R190, R191). -/
def compareUnsigned (w : Width) (rel : Relation) (s : State) : Result Unit :=
  binaryOp (u := .byte) w (fun a b => booleanByte (unsignedHolds rel a b)) s

/-- The CMP sequence of 40_engine.md R104 on the signed readings (43_comparison.md R190, R191). -/
def compareSigned (w : Width) (rel : Relation) (s : State) : Result Unit :=
  binaryOp (u := .byte) w (fun a b => booleanByte (signedHolds rel a b)) s

/-- EQ_BYTE (43_comparison.md R160). -/
def execEqByte (s : State) : Host.Outcome State Fault Refusal :=
  (compareUnsigned .byte .eq s).outcome

/-- EQ_HWORD (43_comparison.md R161). -/
def execEqHword (s : State) : Host.Outcome State Fault Refusal :=
  (compareUnsigned .hword .eq s).outcome

/-- EQ_WORD (43_comparison.md R162). -/
def execEqWord (s : State) : Host.Outcome State Fault Refusal :=
  (compareUnsigned .word .eq s).outcome

/-- LT_BYTE (43_comparison.md R163). -/
def execLtByte (s : State) : Host.Outcome State Fault Refusal :=
  (compareUnsigned .byte .lt s).outcome

/-- LT_HWORD (43_comparison.md R164). -/
def execLtHword (s : State) : Host.Outcome State Fault Refusal :=
  (compareUnsigned .hword .lt s).outcome

/-- LT_WORD (43_comparison.md R165). -/
def execLtWord (s : State) : Host.Outcome State Fault Refusal :=
  (compareUnsigned .word .lt s).outcome

/-- LTE_BYTE (43_comparison.md R166). -/
def execLteByte (s : State) : Host.Outcome State Fault Refusal :=
  (compareUnsigned .byte .lte s).outcome

/-- LTE_HWORD (43_comparison.md R167). -/
def execLteHword (s : State) : Host.Outcome State Fault Refusal :=
  (compareUnsigned .hword .lte s).outcome

/-- LTE_WORD (43_comparison.md R168). -/
def execLteWord (s : State) : Host.Outcome State Fault Refusal :=
  (compareUnsigned .word .lte s).outcome

/-- GT_BYTE (43_comparison.md R169). -/
def execGtByte (s : State) : Host.Outcome State Fault Refusal :=
  (compareUnsigned .byte .gt s).outcome

/-- GT_HWORD (43_comparison.md R170). -/
def execGtHword (s : State) : Host.Outcome State Fault Refusal :=
  (compareUnsigned .hword .gt s).outcome

/-- GT_WORD (43_comparison.md R171). -/
def execGtWord (s : State) : Host.Outcome State Fault Refusal :=
  (compareUnsigned .word .gt s).outcome

/-- GTE_BYTE (43_comparison.md R172). -/
def execGteByte (s : State) : Host.Outcome State Fault Refusal :=
  (compareUnsigned .byte .gte s).outcome

/-- GTE_HWORD (43_comparison.md R173). -/
def execGteHword (s : State) : Host.Outcome State Fault Refusal :=
  (compareUnsigned .hword .gte s).outcome

/-- GTE_WORD (43_comparison.md R174). -/
def execGteWord (s : State) : Host.Outcome State Fault Refusal :=
  (compareUnsigned .word .gte s).outcome

/-- EQ_CHAR (43_comparison.md R175). -/
def execEqChar (s : State) : Host.Outcome State Fault Refusal :=
  (compareSigned .byte .eq s).outcome

/-- EQ_INT (43_comparison.md R176). -/
def execEqInt (s : State) : Host.Outcome State Fault Refusal :=
  (compareSigned .hword .eq s).outcome

/-- EQ_LONG (43_comparison.md R177). -/
def execEqLong (s : State) : Host.Outcome State Fault Refusal :=
  (compareSigned .word .eq s).outcome

/-- LT_CHAR (43_comparison.md R178). -/
def execLtChar (s : State) : Host.Outcome State Fault Refusal :=
  (compareSigned .byte .lt s).outcome

/-- LT_INT (43_comparison.md R179). -/
def execLtInt (s : State) : Host.Outcome State Fault Refusal :=
  (compareSigned .hword .lt s).outcome

/-- LT_LONG (43_comparison.md R180). -/
def execLtLong (s : State) : Host.Outcome State Fault Refusal :=
  (compareSigned .word .lt s).outcome

/-- LTE_CHAR (43_comparison.md R181). -/
def execLteChar (s : State) : Host.Outcome State Fault Refusal :=
  (compareSigned .byte .lte s).outcome

/-- LTE_INT (43_comparison.md R182). -/
def execLteInt (s : State) : Host.Outcome State Fault Refusal :=
  (compareSigned .hword .lte s).outcome

/-- LTE_LONG (43_comparison.md R183). -/
def execLteLong (s : State) : Host.Outcome State Fault Refusal :=
  (compareSigned .word .lte s).outcome

/-- GT_CHAR (43_comparison.md R184). -/
def execGtChar (s : State) : Host.Outcome State Fault Refusal :=
  (compareSigned .byte .gt s).outcome

/-- GT_INT (43_comparison.md R185). -/
def execGtInt (s : State) : Host.Outcome State Fault Refusal :=
  (compareSigned .hword .gt s).outcome

/-- GT_LONG (43_comparison.md R186). -/
def execGtLong (s : State) : Host.Outcome State Fault Refusal :=
  (compareSigned .word .gt s).outcome

/-- GTE_CHAR (43_comparison.md R187). -/
def execGteChar (s : State) : Host.Outcome State Fault Refusal :=
  (compareSigned .byte .gte s).outcome

/-- GTE_INT (43_comparison.md R188). -/
def execGteInt (s : State) : Host.Outcome State Fault Refusal :=
  (compareSigned .hword .gte s).outcome

/-- GTE_LONG (43_comparison.md R189). -/
def execGteLong (s : State) : Host.Outcome State Fault Refusal :=
  (compareSigned .word .gte s).outcome

end Sys2Proof.Machine
end

