-- ==== Sys2Proof/Machine/Control.lean ====
section
/-! DEFINITION. The control instructions (46_control.md): JUMP_ABS, JUMP_IF, CALL, RET, HALT. -/

namespace Sys2Proof.Machine

/-- Target check, then `ip <- t` (46_control.md R240, R241). -/
def jumpTo (t : Word) (s : State) : Result Unit :=
  (targetCheck t s).bind fun _ s => setIp t s

/-- The JUMP_IF sequence of 40_engine.md R104: the target is examined only when the value popped is not zero
(46_control.md R242). -/
def jumpIf (w : Width) (t : Word) (s : State) : Result Unit :=
  (pop w s).bind fun c s => if c.toNat ≠ 0 then jumpTo t s else advance s

/-- JUMP_ABS (46_control.md R241). -/
def execJumpAbs (t : Word) (s : State) : Host.Outcome State Fault Refusal :=
  (jumpTo t s).outcome

/-- JUMP_IF_BYTE (46_control.md R242). -/
def execJumpIfByte (t : Word) (s : State) : Host.Outcome State Fault Refusal :=
  (jumpIf .byte t s).outcome

/-- JUMP_IF_HWORD (46_control.md R243). -/
def execJumpIfHword (t : Word) (s : State) : Host.Outcome State Fault Refusal :=
  (jumpIf .hword t s).outcome

/-- JUMP_IF_WORD (46_control.md R244). -/
def execJumpIfWord (t : Word) (s : State) : Host.Outcome State Fault Refusal :=
  (jumpIf .word t s).outcome

/-- CALL (46_control.md R245). -/
def execCall (t : Word) (s : State) : Host.Outcome State Fault Refusal :=
  ((callCheck s).bind fun _ s =>
    (targetCheck t s).bind fun _ s =>
      (csPush (s.ip + 1) s).bind fun _ s => setIp t s).outcome

/-- RET (46_control.md R246). -/
def execRet (s : State) : Host.Outcome State Fault Refusal :=
  ((csPop s).bind fun a s => setIp a s).outcome

/-- HALT (46_control.md R247). -/
def execHalt (s : State) : Host.Outcome State Fault Refusal :=
  ((advance s).bind fun _ s => .ok () { s with status := .haltedOk }).outcome

end Sys2Proof.Machine
end

