-- ==== Sys2Proof/Machine/Heap.lean ====
section
/-! DEFINITION. The heap instructions (45_heap.md): MALLOC, MGET, MSET, MDELETE, MSIZE. -/

namespace Sys2Proof.Machine

/-- The MALLOC sequence of 40_engine.md R104: allocate, then push the handle; if the push overflows the block
stays live (45_heap.md R220, 40_engine.md R107). -/
def allocate (w : Width) (n : Word) (s : State) : Result Unit :=
  (heapAlloc (elementOffset w n) s).bind fun h s =>
    (push (w := .word) h s).bind fun _ s => advance s

/-- The MGET sequence of 40_engine.md R104. -/
def getElement (w : Width) (n : Word) (s : State) : Result Unit :=
  (pop .word s).bind fun h s =>
    (heapRead h (elementOffset w n) w s).bind fun v s =>
      (push v s).bind fun _ s => advance s

/-- The MSET sequence of 40_engine.md R104: the value is on top, the handle beneath it (45_heap.md R231). -/
def setElement (w : Width) (n : Word) (s : State) : Result Unit :=
  (pop w s).bind fun v s =>
    (pop .word s).bind fun h s =>
      (heapWrite h (elementOffset w n) v s).bind fun _ s => advance s

/-- MALLOC_BYTE (45_heap.md R220). -/
def execMallocByte (n : Word) (s : State) : Host.Outcome State Fault Refusal :=
  (allocate .byte n s).outcome

/-- MALLOC_HWORD (45_heap.md R221). -/
def execMallocHword (n : Word) (s : State) : Host.Outcome State Fault Refusal :=
  (allocate .hword n s).outcome

/-- MALLOC_WORD (45_heap.md R222). -/
def execMallocWord (n : Word) (s : State) : Host.Outcome State Fault Refusal :=
  (allocate .word n s).outcome

/-- MGET_BYTE (45_heap.md R223). -/
def execMgetByte (n : Word) (s : State) : Host.Outcome State Fault Refusal :=
  (getElement .byte n s).outcome

/-- MGET_HWORD (45_heap.md R224). -/
def execMgetHword (n : Word) (s : State) : Host.Outcome State Fault Refusal :=
  (getElement .hword n s).outcome

/-- MGET_WORD (45_heap.md R225). -/
def execMgetWord (n : Word) (s : State) : Host.Outcome State Fault Refusal :=
  (getElement .word n s).outcome

/-- MSET_BYTE (45_heap.md R226). -/
def execMsetByte (n : Word) (s : State) : Host.Outcome State Fault Refusal :=
  (setElement .byte n s).outcome

/-- MSET_HWORD (45_heap.md R227). -/
def execMsetHword (n : Word) (s : State) : Host.Outcome State Fault Refusal :=
  (setElement .hword n s).outcome

/-- MSET_WORD (45_heap.md R228). -/
def execMsetWord (n : Word) (s : State) : Host.Outcome State Fault Refusal :=
  (setElement .word n s).outcome

/-- MDELETE (45_heap.md R229). -/
def execMdelete (s : State) : Host.Outcome State Fault Refusal :=
  ((pop .word s).bind fun h s =>
    (heapDelete h s).bind fun _ s => advance s).outcome

/-- MSIZE (45_heap.md R230). -/
def execMsize (s : State) : Host.Outcome State Fault Refusal :=
  ((pop .word s).bind fun h s =>
    (heapSize h s).bind fun n s =>
      (push (w := .word) n s).bind fun _ s => advance s).outcome

end Sys2Proof.Machine
end

