-- ==== Sys2Proof/Machine/Logic.lean ====
section
/-! DEFINITION. The logic instructions (44_logic.md): NOT, OR, AND, XOR, bit by bit. -/

namespace Sys2Proof.Machine

/-- The bitwise complement, `(2^(8w) - 1) - v` (44_logic.md R212). -/
def complement {n : Nat} (v : BitVec n) : BitVec n :=
  ~~~v

/-- The bitwise or (44_logic.md R212). -/
def bitOr {n : Nat} (a b : BitVec n) : BitVec n :=
  a ||| b

/-- The bitwise and (44_logic.md R212). -/
def bitAnd {n : Nat} (a b : BitVec n) : BitVec n :=
  a &&& b

/-- The bitwise exclusive-or (44_logic.md R212). -/
def bitXor {n : Nat} (a b : BitVec n) : BitVec n :=
  a ^^^ b

/-- NOT_BYTE (44_logic.md R200). -/
def execNotByte (s : State) : Host.Outcome State Fault Refusal :=
  (unaryOp .byte complement s).outcome

/-- NOT_HWORD (44_logic.md R201). -/
def execNotHword (s : State) : Host.Outcome State Fault Refusal :=
  (unaryOp .hword complement s).outcome

/-- NOT_WORD (44_logic.md R202). -/
def execNotWord (s : State) : Host.Outcome State Fault Refusal :=
  (unaryOp .word complement s).outcome

/-- OR_BYTE (44_logic.md R203). -/
def execOrByte (s : State) : Host.Outcome State Fault Refusal :=
  (binaryOp (u := .byte) .byte bitOr s).outcome

/-- OR_HWORD (44_logic.md R204). -/
def execOrHword (s : State) : Host.Outcome State Fault Refusal :=
  (binaryOp (u := .hword) .hword bitOr s).outcome

/-- OR_WORD (44_logic.md R205). -/
def execOrWord (s : State) : Host.Outcome State Fault Refusal :=
  (binaryOp (u := .word) .word bitOr s).outcome

/-- AND_BYTE (44_logic.md R206). -/
def execAndByte (s : State) : Host.Outcome State Fault Refusal :=
  (binaryOp (u := .byte) .byte bitAnd s).outcome

/-- AND_HWORD (44_logic.md R207). -/
def execAndHword (s : State) : Host.Outcome State Fault Refusal :=
  (binaryOp (u := .hword) .hword bitAnd s).outcome

/-- AND_WORD (44_logic.md R208). -/
def execAndWord (s : State) : Host.Outcome State Fault Refusal :=
  (binaryOp (u := .word) .word bitAnd s).outcome

/-- XOR_BYTE (44_logic.md R209). -/
def execXorByte (s : State) : Host.Outcome State Fault Refusal :=
  (binaryOp (u := .byte) .byte bitXor s).outcome

/-- XOR_HWORD (44_logic.md R210). -/
def execXorHword (s : State) : Host.Outcome State Fault Refusal :=
  (binaryOp (u := .hword) .hword bitXor s).outcome

/-- XOR_WORD (44_logic.md R211). -/
def execXorWord (s : State) : Host.Outcome State Fault Refusal :=
  (binaryOp (u := .word) .word bitXor s).outcome

end Sys2Proof.Machine
end

