-- ==== Sys2Proof/Machine/StackRegister.lean ====
section
/-! DEFINITION. The stack and register instructions (41_stack_register.md): PUSH, PUSH_REG, POP, MOV, DUP. -/

namespace Sys2Proof.Machine

/-- The PUSH sequence of 40_engine.md R104. -/
def pushImmediate (w : Width) (imm : Word) (s : State) : Result Unit :=
  (push (immediate w imm) s).bind fun _ s => advance s

/-- The PUSH_REG sequence of 40_engine.md R104: the register index is checked first
(41_stack_register.md R135). -/
def pushRegister (w : Width) (r : Byte) (s : State) : Result Unit :=
  (regCheck r w s).bind fun _ s =>
    (push (regRead r w s) s).bind fun _ s => advance s

/-- The POP sequence of 40_engine.md R104. -/
def popDiscard (w : Width) (s : State) : Result Unit :=
  (pop w s).bind fun _ s => advance s

/-- The MOV sequence of 40_engine.md R104: the register index is checked before the pop
(41_stack_register.md R135). -/
def moveToRegister (w : Width) (r : Byte) (s : State) : Result Unit :=
  (regCheck r w s).bind fun _ s =>
    (pop w s).bind fun v s => advance (regWrite r v s)

/-- The DUP sequence of 40_engine.md R104. -/
def duplicate (w : Width) (s : State) : Result Unit :=
  (peek w s).bind fun v s =>
    (push v s).bind fun _ s => advance s

/-- PUSH_BYTE (41_stack_register.md R120). -/
def execPushByte (imm : Word) (s : State) : Host.Outcome State Fault Refusal :=
  (pushImmediate .byte imm s).outcome

/-- PUSH_HWORD (41_stack_register.md R121). -/
def execPushHword (imm : Word) (s : State) : Host.Outcome State Fault Refusal :=
  (pushImmediate .hword imm s).outcome

/-- PUSH_WORD (41_stack_register.md R122). -/
def execPushWord (imm : Word) (s : State) : Host.Outcome State Fault Refusal :=
  (pushImmediate .word imm s).outcome

/-- PUSH_REG_BYTE (41_stack_register.md R123). -/
def execPushRegByte (r : Byte) (s : State) : Host.Outcome State Fault Refusal :=
  (pushRegister .byte r s).outcome

/-- PUSH_REG_HWORD (41_stack_register.md R124). -/
def execPushRegHword (r : Byte) (s : State) : Host.Outcome State Fault Refusal :=
  (pushRegister .hword r s).outcome

/-- PUSH_REG_WORD (41_stack_register.md R125). -/
def execPushRegWord (r : Byte) (s : State) : Host.Outcome State Fault Refusal :=
  (pushRegister .word r s).outcome

/-- POP_BYTE (41_stack_register.md R126). -/
def execPopByte (s : State) : Host.Outcome State Fault Refusal :=
  (popDiscard .byte s).outcome

/-- POP_HWORD (41_stack_register.md R127). -/
def execPopHword (s : State) : Host.Outcome State Fault Refusal :=
  (popDiscard .hword s).outcome

/-- POP_WORD (41_stack_register.md R128). -/
def execPopWord (s : State) : Host.Outcome State Fault Refusal :=
  (popDiscard .word s).outcome

/-- MOV_BYTE (41_stack_register.md R129). -/
def execMovByte (r : Byte) (s : State) : Host.Outcome State Fault Refusal :=
  (moveToRegister .byte r s).outcome

/-- MOV_HWORD (41_stack_register.md R130). -/
def execMovHword (r : Byte) (s : State) : Host.Outcome State Fault Refusal :=
  (moveToRegister .hword r s).outcome

/-- MOV_WORD (41_stack_register.md R131). -/
def execMovWord (r : Byte) (s : State) : Host.Outcome State Fault Refusal :=
  (moveToRegister .word r s).outcome

/-- DUP_BYTE (41_stack_register.md R132). -/
def execDupByte (s : State) : Host.Outcome State Fault Refusal :=
  (duplicate .byte s).outcome

/-- DUP_HWORD (41_stack_register.md R133). -/
def execDupHword (s : State) : Host.Outcome State Fault Refusal :=
  (duplicate .hword s).outcome

/-- DUP_WORD (41_stack_register.md R134). -/
def execDupWord (s : State) : Host.Outcome State Fault Refusal :=
  (duplicate .word s).outcome

end Sys2Proof.Machine
end

