-- ==== Sys2Proof/Machine/Dispatch.lean ====
section
/-! DEFINITION. The dispatch: one arm per instruction, each one call of its meaning (40_engine.md R104). -/

namespace Sys2Proof.Machine

def exec (i : Instr) (s : State) : Host.Outcome State Fault Refusal :=
  match i with
  | .pushByte imm => Sys2Proof.Machine.execPushByte imm s
  | .pushHword imm => Sys2Proof.Machine.execPushHword imm s
  | .pushWord imm => Sys2Proof.Machine.execPushWord imm s
  | .pushRegByte r => Sys2Proof.Machine.execPushRegByte r s
  | .pushRegHword r => Sys2Proof.Machine.execPushRegHword r s
  | .pushRegWord r => Sys2Proof.Machine.execPushRegWord r s
  | .popByte => Sys2Proof.Machine.execPopByte s
  | .popHword => Sys2Proof.Machine.execPopHword s
  | .popWord => Sys2Proof.Machine.execPopWord s
  | .movByte r => Sys2Proof.Machine.execMovByte r s
  | .movHword r => Sys2Proof.Machine.execMovHword r s
  | .movWord r => Sys2Proof.Machine.execMovWord r s
  | .dupByte => Sys2Proof.Machine.execDupByte s
  | .dupHword => Sys2Proof.Machine.execDupHword s
  | .dupWord => Sys2Proof.Machine.execDupWord s
  | .plusByte => Sys2Proof.Machine.execPlusByte s
  | .plusHword => Sys2Proof.Machine.execPlusHword s
  | .plusWord => Sys2Proof.Machine.execPlusWord s
  | .subByte => Sys2Proof.Machine.execSubByte s
  | .subHword => Sys2Proof.Machine.execSubHword s
  | .subWord => Sys2Proof.Machine.execSubWord s
  | .multByte => Sys2Proof.Machine.execMultByte s
  | .multHword => Sys2Proof.Machine.execMultHword s
  | .multWord => Sys2Proof.Machine.execMultWord s
  | .notByte => Sys2Proof.Machine.execNotByte s
  | .notHword => Sys2Proof.Machine.execNotHword s
  | .notWord => Sys2Proof.Machine.execNotWord s
  | .orByte => Sys2Proof.Machine.execOrByte s
  | .orHword => Sys2Proof.Machine.execOrHword s
  | .orWord => Sys2Proof.Machine.execOrWord s
  | .andByte => Sys2Proof.Machine.execAndByte s
  | .andHword => Sys2Proof.Machine.execAndHword s
  | .andWord => Sys2Proof.Machine.execAndWord s
  | .xorByte => Sys2Proof.Machine.execXorByte s
  | .xorHword => Sys2Proof.Machine.execXorHword s
  | .xorWord => Sys2Proof.Machine.execXorWord s
  | .eqByte => Sys2Proof.Machine.execEqByte s
  | .eqHword => Sys2Proof.Machine.execEqHword s
  | .eqWord => Sys2Proof.Machine.execEqWord s
  | .ltByte => Sys2Proof.Machine.execLtByte s
  | .ltHword => Sys2Proof.Machine.execLtHword s
  | .ltWord => Sys2Proof.Machine.execLtWord s
  | .lteByte => Sys2Proof.Machine.execLteByte s
  | .lteHword => Sys2Proof.Machine.execLteHword s
  | .lteWord => Sys2Proof.Machine.execLteWord s
  | .gtByte => Sys2Proof.Machine.execGtByte s
  | .gtHword => Sys2Proof.Machine.execGtHword s
  | .gtWord => Sys2Proof.Machine.execGtWord s
  | .gteByte => Sys2Proof.Machine.execGteByte s
  | .gteHword => Sys2Proof.Machine.execGteHword s
  | .gteWord => Sys2Proof.Machine.execGteWord s
  | .eqChar => Sys2Proof.Machine.execEqChar s
  | .eqInt => Sys2Proof.Machine.execEqInt s
  | .eqLong => Sys2Proof.Machine.execEqLong s
  | .ltChar => Sys2Proof.Machine.execLtChar s
  | .ltInt => Sys2Proof.Machine.execLtInt s
  | .ltLong => Sys2Proof.Machine.execLtLong s
  | .lteChar => Sys2Proof.Machine.execLteChar s
  | .lteInt => Sys2Proof.Machine.execLteInt s
  | .lteLong => Sys2Proof.Machine.execLteLong s
  | .gtChar => Sys2Proof.Machine.execGtChar s
  | .gtInt => Sys2Proof.Machine.execGtInt s
  | .gtLong => Sys2Proof.Machine.execGtLong s
  | .gteChar => Sys2Proof.Machine.execGteChar s
  | .gteInt => Sys2Proof.Machine.execGteInt s
  | .gteLong => Sys2Proof.Machine.execGteLong s
  | .mallocByte n => Sys2Proof.Machine.execMallocByte n s
  | .mallocHword n => Sys2Proof.Machine.execMallocHword n s
  | .mallocWord n => Sys2Proof.Machine.execMallocWord n s
  | .mgetByte n => Sys2Proof.Machine.execMgetByte n s
  | .mgetHword n => Sys2Proof.Machine.execMgetHword n s
  | .mgetWord n => Sys2Proof.Machine.execMgetWord n s
  | .msetByte n => Sys2Proof.Machine.execMsetByte n s
  | .msetHword n => Sys2Proof.Machine.execMsetHword n s
  | .msetWord n => Sys2Proof.Machine.execMsetWord n s
  | .mdelete => Sys2Proof.Machine.execMdelete s
  | .msize => Sys2Proof.Machine.execMsize s
  | .jumpAbs t => Sys2Proof.Machine.execJumpAbs t s
  | .jumpIfByte t => Sys2Proof.Machine.execJumpIfByte t s
  | .jumpIfHword t => Sys2Proof.Machine.execJumpIfHword t s
  | .jumpIfWord t => Sys2Proof.Machine.execJumpIfWord t s
  | .call t => Sys2Proof.Machine.execCall t s
  | .ret => Sys2Proof.Machine.execRet s
  | .halt => Sys2Proof.Machine.execHalt s

end Sys2Proof.Machine
end

