-- ==== Sys2Proof/Machine/Step.lean ====
section
/-! DEFINITION. One step of the engine, and placing a word where the next step fetches. -/

namespace Sys2Proof.Machine

/-- `Step` of 40_engine.md R101.  It is defined only while the machine runs; a halted machine has no successor
(R110), rendered as the fault `halted` (DEDUCED, log 8). -/
def step (s : State) : Host.Outcome State Fault Refusal :=
  match s.status with
  | .running =>
    match fetchDecode s with
    | .raised k s' => .next (takeError k s')
    | .ok i s' => exec i s'
  | .haltedOk => .fault .halted
  | .haltedError _ => .fault .halted

/-- `s` with the instruction of a table word stored as the record at `ip`, where the next step fetches, and the
machine running, without which it fetches nothing (log 11). -/
def State.withFetchWord (s : State) (nbits w : Nat) : State :=
  { s with program := placeRecord s.program s.ip.toNat (tableRecord nbits w), status := .running }

end Sys2Proof.Machine
end

