-- ==== Sys2Proof/Machine/Loader.lean ====
section
/-! DEFINITION. The host interface at transaction level (40_engine.md R113): the loads before the first step, the
reset that latches them (70_reset_and_hazards.md R290), running, and the STATUS register. -/

namespace Sys2Proof.Machine

/-! ## Loading -/

/-- The resources of an instance before its first step (70_reset_and_hazards.md R292).  The loads act here and not on
`State`: after the first step the host writes nothing (40_engine.md R113). -/
structure Launch where
  stackMax : Word
  callMax : Word
  regs : List Word
  heap : List (Nat × Block)
  heapLimit : Option Nat
  alloc : AllocPolicy
  program : List Record
  /-- Whether the last program load was a rejected byte stream (R293; DEDUCED, log 13). -/
  rejected : Bool
deriving DecidableEq, Repr

/-- A constructed instance with nothing loaded.  DESIGN CHOICE (log 16): the spec has every load done before the
first step and gives an unloaded resource no value; here it is capacity 0, no register, the empty heap, no record.
ALLOC_SEQ is the spec's own default (00_scope.md R6). -/
def Launch.construct : Launch :=
  ⟨0, 0, [], [], none, .seq, [], false⟩

/-- `load-stack(capacity)`. -/
def Launch.loadStack (capacity : Word) (l : Launch) : Launch :=
  { l with stackMax := capacity }

/-- `load-registers(count)`: the cells are zero (10_state.md R38). -/
def Launch.loadRegisterCount (count : Nat) (l : Launch) : Launch :=
  { l with regs := List.replicate count 0 }

/-- `load-registers(values)`. -/
def Launch.loadRegisterValues (values : List Word) (l : Launch) : Launch :=
  { l with regs := values }

/-- `load-heap(empty)`.  DESIGN CHOICE (log 15): no transaction of 40_engine.md R113 carries HEAP_LIMIT; here every
load-heap carries it and replaces an earlier one. -/
def Launch.loadEmptyHeap (limit : Option Nat) (l : Launch) : Launch :=
  { l with heap := [], heapLimit := limit }

/-- The block of a pre-populated heap that holds `bytes`: every byte is defined (70_reset_and_hazards.md R294). -/
def blockOfBytes (bytes : List Byte) : Block :=
  ⟨BitVec.ofNat 64 bytes.length, 0, Memory.write [] 0 bytes⟩

/-- `load-heap(blocks)`.  DESIGN CHOICE (log 15): it carries HEAP_LIMIT and replaces an earlier one, as
`Launch.loadEmptyHeap` does. -/
def Launch.loadHeapBlocks (blocks : List (Word × List Byte)) (limit : Option Nat) (l : Launch) : Launch :=
  { l with
    heap := blocks.foldl (fun h e => Sparse.set h e.1.toNat (blockOfBytes e.2)) []
    heapLimit := limit }

/-- `load-call-stack(capacity)`. -/
def Launch.loadCallStack (capacity : Word) (l : Launch) : Launch :=
  { l with callMax := capacity }

/-- `load-program(records)`: installed as they are, with no check (70_reset_and_hazards.md R293). -/
def Launch.loadRecords (records : List Record) (l : Launch) : Launch :=
  { l with program := records, rejected := false }

/-- `load-program(bytes)`: the stream goes through `DecodeStream`; a rejected stream installs no program
(70_reset_and_hazards.md R293). -/
def Launch.loadBytes (bytes : List Byte) (l : Launch) : Launch :=
  match decodeStream bytes with
  | .ok records => { l with program := records, rejected := false }
  | .error _ => { l with program := [], rejected := true }

/-- The choice of the parameter ALLOC (00_scope.md R6).  DESIGN CHOICE (log 15): a transaction of the model's own, for
40_engine.md R113 has none that carries ALLOC. -/
def Launch.choosePolicy (policy : AllocPolicy) (l : Launch) : Launch :=
  { l with alloc := policy }

/-- The largest handle of a heap, 0 for the empty heap. -/
def largestHandle (heap : List (Nat × Block)) : Nat :=
  heap.foldl (fun m e => max m e.1) 0

/-- Reset: the parameters latched and every piece of state at its value of 10_state.md R38; a rejected load is
the state Halted(Error(InvalidOpcode)) (70_reset_and_hazards.md R290, R293).  DESIGN CHOICE (log 17): `hnext` is 1 for
the empty heap under every policy, where the spec gives 1 only under ALLOC_SEQ. -/
def Launch.start (l : Launch) : State where
  stack := []
  sp := 0
  regs := l.regs
  heap := l.heap
  hnext := BitVec.ofNat 64 (largestHandle l.heap + 1)
  callStack := []
  csp := 0
  ip := 0
  status := if l.rejected then .haltedError .invalidOpcode else .running
  program := l.program
  stackMax := l.stackMax
  callMax := l.callMax
  heapLimit := l.heapLimit
  alloc := l.alloc
  draws := 0

/-- The launch that `State.reset` is the start of (log 1). -/
def Launch.standard : Launch :=
  Launch.construct |>.loadStack 16 |>.loadRegisterCount 4 |>.loadEmptyHeap none |>.loadCallStack 2

/-! ## Running -/

/-- `execute()`: one step, or nothing when the machine is halted (40_engine.md R110, R113). -/
def execute (s : State) : State :=
  match step s with
  | .next s' => s'
  | .fault _ => s
  | .refused _ => s

/-- `execute_all()` under a step budget supplied from outside: the first halted state reached, `none` when the budget
runs out first, which is no machine state (40_engine.md R109, 70_reset_and_hazards.md R298). -/
def executeAll : Nat → State → Option State
  | 0, s => if s.status = .running then none else some s
  | budget + 1, s => if s.status = .running then executeAll budget (execute s) else some s

/-- What `execute_all()` returns at a halted state: the error kind, or none for Halted(Ok) (40_engine.md R109). -/
def terminalError (s : State) : Option ErrorKind :=
  match s.status with
  | .running => none
  | .haltedOk => none
  | .haltedError k => some k

/-! ## Inspection -/

/-- The code of an error kind (60_exceptions.md R260). -/
def errorCode : ErrorKind → Nat
  | .stackOverflow => 1
  | .stackUnderflow => 2
  | .callStackOverflow => 3
  | .callStackUnderflow => 4
  | .invalidOpcode => 5
  | .invalidRegisterByte => 6
  | .invalidRegisterHWord => 7
  | .invalidRegisterWord => 8
  | .invalidProgramAddress => 9
  | .invalidPageAddress => 10
  | .outOfBounds => 11
  | .endOfProgram => 12
  | .outOfMemory => 13

/-- The field STATUS.STATE (10_state.md R30). -/
def statusState : Status → Nat
  | .running => 0
  | .haltedOk => 1
  | .haltedError _ => 2

/-- The field STATUS.ERR (10_state.md R30). -/
def statusErr : Status → Nat
  | .running => 0
  | .haltedOk => 0
  | .haltedError k => errorCode k

/-- The 8-bit register STATUS: STATE in bits 1:0, zero in bits 3:2, ERR in bits 7:4 (10_state.md R30). -/
def statusRegister (s : State) : Byte :=
  BitVec.ofNat 8 (statusState s.status + 16 * statusErr s.status)

/-- The contents of the operand stack, bottom to top: the bytes `S[0 .. sp - 1]` (10_state.md R21). -/
def stackContents (s : State) : List Byte :=
  bytesAt (stackByte s) 0 s.sp.toNat

end Sys2Proof.Machine
end

