-- ==== Sys2Proof/Safety.lean ====
section
/-! DEFINITION. The vocabulary of the claims: what an instruction leaves behind, what a run may end in, and the
invariant of the machine. -/

namespace Sys2Proof.Machine

/-! ## Encodings -/

/-- Records with this opcode byte are the instruction `i` of their register index and operand, whatever those are,
and carry `paylen` operand bytes on the wire (30_encoding.md R70, R72, R80). -/
structure EncodedAs (opcode : Byte) (paylen : Nat) (i : Byte → Word → Instr) : Prop where
  length : (decodeOpcode opcode).map Decoded.paylen = some paylen
  instruction : ∀ r imm, decodeRecord ⟨opcode, r, imm⟩ = some (i r imm)

/-! ## The end of a run -/

/-- A run has ended well (40_engine.md R112). -/
def Final (s : State) : Prop :=
  s.status = .haltedOk

/-- A run has ended in an error (40_engine.md R112). -/
def Faulted (s : State) : Prop :=
  ∃ k, s.status = .haltedError k

/-! ## What an instruction leaves -/

/-- `t` differs from `s` in S, `sp` and `ip` at most. -/
def OnlyStackAndIp (s t : State) : Prop :=
  t = { s with stack := t.stack, sp := t.sp, ip := t.ip }

/-- S of `t` holds the value `v` from address `base` to its top, least significant byte lowest, and below and above
those bytes it holds what S of `s` held (20_memory.md R40, R41). -/
structure PushedAt {w : Width} (s t : State) (base : Nat) (v : BitVec w.bits) : Prop where
  cursor : t.sp.toNat = base + w.bytes
  inside : ∀ k < w.bytes, stackByte t (base + k) = v.extractLsb' (8 * k) 8
  outside : ∀ a, a < base ∨ base + w.bytes ≤ a → stackByte t a = stackByte s a

/-- `t` is `s` after an instruction whose only effects are to leave `v` on the stack with its lowest byte at `base`
and to advance `ip` by one. -/
structure LeavesValue {w : Width} (s t : State) (base : Nat) (v : BitVec w.bits) : Prop where
  pushed : PushedAt s t base v
  ip : t.ip = s.ip + 1
  frame : OnlyStackAndIp s t

/-- A two-operand instruction of width `w` that runs out of operands: a first pop that fails changes nothing but
`status`, a second one leaves the first pop done (40_engine.md R107, 42_arithmetic.md R150). -/
def UnderflowsLikeTwoPops (w : Width) (i : Instr) (s : State) : Prop :=
  (s.sp.toNat < w.bytes → exec i s = .next { s with status := .haltedError .stackUnderflow }) ∧
    (w.bytes ≤ s.sp.toNat → s.sp.toNat < 2 * w.bytes →
      exec i s =
        .next { s with sp := s.sp - BitVec.ofNat 64 w.bytes, status := .haltedError .stackUnderflow })

/-- The left operand `a` of a two-operand instruction, beneath the top (42_arithmetic.md R150). -/
def leftOperand (w : Width) (s : State) : BitVec w.bits :=
  stackValue s (s.sp.toNat - 2 * w.bytes) w

/-- The right operand `b` of a two-operand instruction, the top (42_arithmetic.md R150). -/
def rightOperand (w : Width) (s : State) : BitVec w.bits :=
  stackValue s (s.sp.toNat - w.bytes) w

/-- `sp` does not exceed STACK_MAX (10_state.md R36): the premise of every push that cannot overflow. -/
def StackCursorInRange (s : State) : Prop :=
  s.sp.toNat ≤ s.stackMax.toNat

/-- A two-operand instruction with its operands present completes and leaves a value of width `u` that satisfies
`P a b` where the operands were. -/
def CompletesWithTwoOperands (w u : Width) (i : Instr) (P : BitVec w.bits → BitVec w.bits → BitVec u.bits → Prop)
    (s : State) : Prop :=
  2 * w.bytes ≤ s.sp.toNat → StackCursorInRange s →
    ∃ t, exec i s = .next t ∧ ∃ v : BitVec u.bits,
      P (leftOperand w s) (rightOperand w s) v ∧ LeavesValue s t (s.sp.toNat - 2 * w.bytes) v

/-- The heap of `t` is that of `s` with the bytes of `v` stored at byte offset `off` of block `h`, which was `b`: no
other byte, size or block changes (20_memory.md R52). -/
structure StoredInBlock {w : Width} (s t : State) (h : Word) (b : Block) (off : Nat) (v : BitVec w.bits) : Prop where
  block : ∃ b', blockOf t h = some b' ∧ b'.size = b.size ∧
    (∀ k < w.bytes, blockByte b' (off + k) = v.extractLsb' (8 * k) 8) ∧
    (∀ x, x < off ∨ off + w.bytes ≤ x → blockByte b' x = blockByte b x)
  others : ∀ g, g ≠ h → blockOf t g = blockOf s g

/-- The heap of `t` is that of `s` with a block of `n` bytes at `h` (20_memory.md R50). -/
structure AllocatedBlock (s t : State) (h : Word) (n : Nat) : Prop where
  block : ∃ b, blockOf t h = some b ∧ b.size.toNat = n
  others : ∀ g, g ≠ h → blockOf t g = blockOf s g

/-- The `ip` that a completed instruction leaves: the table of 10_state.md R29. -/
def nextIp (i : Instr) (s : State) : Word :=
  match i with
  | .jumpAbs t => t
  | .jumpIfByte t => if (rightOperand .byte s).toNat ≠ 0 then t else s.ip + 1
  | .jumpIfHword t => if (rightOperand .hword s).toNat ≠ 0 then t else s.ip + 1
  | .jumpIfWord t => if (rightOperand .word s).toNat ≠ 0 then t else s.ip + 1
  | .call t => t
  | .ret => callEntry s (s.csp.toNat - 1)
  | _ => s.ip + 1

/-! ## The three conditions under which an allocation is refused (20_memory.md R56) -/

/-- The size, the limit, or the policy refuses a block of `n` bytes. -/
def AllocationRefused (n : Nat) (s : State) : Prop :=
  2 ^ 64 ≤ n ∨ (∃ limit, s.heapLimit = some limit ∧ limit < liveBytes s + n) ∨ allocHandle s = none

/-! ## The invariant -/

/-- Every storage list is in its one canonical form. -/
structure CanonicalStorage (s : State) : Prop where
  stack : Memory.wf s.stack = true
  callStack : Sparse.wf s.callStack = true
  heap : Sparse.wf s.heap = true
  blocks : ∀ e ∈ s.heap, Memory.wf e.2.data = true

/-- The invariant of a machine that started from a valid launch: 10_state.md R36, with the facts about storage that
make it inductive. -/
structure Inv (s : State) : Prop where
  /-- `0 <= sp <= STACK_MAX` (R36). -/
  sp : s.sp.toNat ≤ s.stackMax.toNat
  /-- `0 <= csp <= CALL_MAX` (R36). -/
  csp : s.csp.toNat ≤ s.callMax.toNat
  /-- The canonical form of every storage. -/
  canonical : CanonicalStorage s
  /-- Nothing is stored outside the stack buffer (R21), and every byte in use has been pushed (R38). -/
  stackBytes : (∀ c ∈ s.stack, c.1 < s.stackMax.toNat) ∧
    ∀ a < s.sp.toNat, (Sparse.get s.stack a).isSome = true
  /-- Nothing is stored outside the call-stack buffer, and every entry in use has been pushed and is a record index
  in `1 .. PLEN` (R26, R36). -/
  callEntries : (∀ c ∈ s.callStack, c.1 < s.callMax.toNat) ∧
    ∀ i < s.csp.toNat, ∃ a, Sparse.get s.callStack i = some a ∧ 1 ≤ a.toNat ∧ a.toNat ≤ s.program.length
  /-- Handles are words, and nothing is stored outside a block (R24). -/
  heapBytes : ∀ e ∈ s.heap, e.1 < 2 ^ 64 ∧ ∀ c ∈ e.2.data, c.1 < e.2.size.toNat
  /-- The live bytes respect HEAP_LIMIT (R36). -/
  limit : ∀ n, s.heapLimit = some n → liveBytes s ≤ n
  /-- Under ALLOC_SEQ every live handle has been issued and is neither 0 nor `2^64 - 1` (20_memory.md R50). -/
  handles : s.alloc = .seq →
    1 ≤ s.hnext.toNat ∧ ∀ e ∈ s.heap, 1 ≤ e.1 ∧ e.1 < s.hnext.toNat
  /-- `0 <= ip <= PLEN` (R36). -/
  ip : s.ip.toNat ≤ s.program.length
  /-- `PLEN <= 2^64 - 1` and `NREG <= 256` (00_scope.md R6). -/
  bounds : s.program.length ≤ 2 ^ 64 - 1 ∧ s.regs.length ≤ 256

/-- What a host may load (00_scope.md R6, 70_reset_and_hazards.md R294). -/
structure Launch.Valid (l : Launch) : Prop where
  registers : l.regs.length ≤ 256
  program : l.program.length ≤ 2 ^ 64 - 1
  heap : Sparse.wf l.heap = true
  handles : ∀ e ∈ l.heap, 1 ≤ e.1 ∧ e.1 ≤ 2 ^ 64 - 2
  blocks : ∀ e ∈ l.heap, Memory.wf e.2.data = true ∧ (∀ c ∈ e.2.data, c.1 < e.2.size.toNat) ∧
    ∀ off < e.2.size.toNat, (Sparse.get e.2.data off).isSome = true
  limit : ∀ n, l.heapLimit = some n → (l.heap.map fun e => e.2.size.toNat).sum ≤ n

/-! ## What a program cannot see -/

/-- `t` is `s` but for bytes of S at or above `sp` and entries of CS at or above `csp`, which no instruction reads
(20_memory.md R45, 70_reset_and_hazards.md R291). -/
structure AgreeBelowCursors (s t : State) : Prop where
  fields : t = { s with stack := t.stack, callStack := t.callStack }
  stack : ∀ a < s.sp.toNat, stackByte t a = stackByte s a
  callStack : ∀ i < s.csp.toNat, callEntry t i = callEntry s i

/-- Two outcomes are of one kind, and their next states are related by `R`. -/
def OutcomesAgree (R : State → State → Prop) : Host.Outcome State Fault Refusal → Host.Outcome State Fault Refusal → Prop
  | .next s, .next t => R s t
  | .fault f, .fault g => f = g
  | .refused r, .refused q => r = q
  | .next _, .fault _ | .next _, .refused _ | .fault _, .next _ | .fault _, .refused _
  | .refused _, .next _ | .refused _, .fault _ => False

/-- The same outcome with `f` applied to a next state. -/
def mapNext (f : State → State) : Host.Outcome State Fault Refusal → Host.Outcome State Fault Refusal
  | .next s => .next (f s)
  | .fault e => .fault e
  | .refused r => .refused r

end Sys2Proof.Machine
end

