-- ==== Sys2Proof/Certificates/Slice0/Obligations.lean ====
section
/-! DEFINITION. The statements about the machine, for the provers.  Each names the rules of spec/ it rests on. -/

open Sys2Proof Sys2Proof.Machine

/-- Decoding the wire bytes of a well-formed instruction gives it back, with the bytes after it. Derived from R71,
R72, R74, R80. -/
def Obligations.DecodeReturnsEncodedInstruction : Prop :=
  ∀ (i : Instr) (rest : List Byte), i.wf = true → decode (encode i ++ rest) = .ok (i, rest)

/-- DecodeStream of EncodeStream is the program, for records that fit the wire. Derived from R84. -/
def Obligations.DecodeStreamInvertsEncodeStream : Prop :=
  ∀ records : List Record, (∀ rec ∈ records, rec.fitsWire = true) →
    ∃ bytes, encodeStream records = some bytes ∧ decodeStream bytes = .ok records

/-- EncodeStream of a decoded program is the byte string it came from. Derived from R84. -/
def Obligations.EncodeStreamInvertsDecodeStream : Prop :=
  ∀ (bytes : List Byte) (records : List Record), decodeStream bytes = .ok records →
    encodeStream records = some bytes ∧ ∀ rec ∈ records, rec.fitsWire = true

/-- A stream with an unknown opcode byte or a truncated record anywhere is rejected whole with InvalidOpcode.
Derived from R83, R265. -/
def Obligations.BadRecordRejectsTheStream : Prop :=
  (∀ (good : List Record) (bytes : List Byte), encodeStream good = some bytes →
      (∀ (opcode : Byte) (rest : List Byte), decodeOpcode opcode = none →
        decodeStream (bytes ++ opcode :: rest) = .error .invalidOpcode) ∧
      (∀ (rec : Record) (whole : List Byte) (n : Nat), recordBytes rec = some whole → 0 < n → n < whole.length →
        decodeStream (bytes ++ whole.take n) = .error .invalidOpcode)) ∧
    ∀ (bytes : List Byte) (k : ErrorKind), decodeStream bytes = .error k → k = .invalidOpcode

/-- Decode answers Invalid on exactly the reserved opcode values the spec lists. Derived from R80, R81, R82. -/
def Obligations.ReservedOpcodesAreExactlyTheListed : Prop :=
  ∀ opcode : Byte, decodeOpcode opcode = none ↔
    ∃ range ∈ [(0x00, 0x10), (0x14, 0x20), (0x24, 0x30), (0x34, 0x40), (0x44, 0x50), (0x54, 0x60), (0x64, 0x64),
        (0x68, 0x68), (0x6C, 0x70), (0x74, 0x74), (0x78, 0x78), (0x7C, 0x7C), (0x80, 0x80), (0x84, 0x84), (0x88, 0x88),
        (0x8C, 0x8C), (0x90, 0x90), (0x94, 0xA0), (0xA4, 0xA4), (0xA8, 0xA8), (0xAC, 0xAC), (0xB0, 0xB0), (0xB4, 0xC0),
        (0xC4, 0xC4), (0xC8, 0xC8), (0xCD, 0xCF), (0xD1, 0xDF), (0xE1, 0xE4), (0xE9, 0xEB), (0xED, 0xEF), (0xF1, 0xFF)],
      range.1 ≤ opcode.toNat ∧ opcode.toNat ≤ range.2

/-- A record field that the instruction does not use has no effect on it. Derived from R70, R75, R136, R82. -/
def Obligations.UnusedFieldsAreIgnored : Prop :=
  (∀ (rec : Record) (d : Decoded), decodeOpcode rec.opcode = some d →
      (d.usesReg = false → ∀ r, decodeRecord { rec with registerIndex := r } = decodeRecord rec) ∧
      (d.paylen = 0 → ∀ imm, decodeRecord { rec with operand := imm } = decodeRecord rec)) ∧
    (∀ (imm imm' : Word) (s : State), imm.toNat % 2 ^ 8 = imm'.toNat % 2 ^ 8 →
      exec (.pushByte imm) s = exec (.pushByte imm') s) ∧
    ∀ (imm imm' : Word) (s : State), imm.toNat % 2 ^ 32 = imm'.toNat % 2 ^ 32 →
      exec (.pushHword imm) s = exec (.pushHword imm') s

/-- Wire words written out from the spec decode to the instructions they stand for. Derived from R80, R73,
95_test_vectors.md. -/
def Obligations.SpecWordsDecode : Prop :=
  decode [0x12, 0x00, 0x44, 0x33, 0x22, 0x11] = .ok (.pushHword 0x11223344, []) ∧
    decode [0x42, 0x02] = .ok (.movHword 2, []) ∧
    decode [0x61, 0x00] = .ok (.plusByte, []) ∧
    decode [0x7F, 0x00] = .ok (.xorWord, []) ∧
    decode [0x8A, 0x00] = .ok (.lteHword, []) ∧
    decode [0xB1, 0x00] = .ok (.gteChar, []) ∧
    decode [0xC9, 0x00, 0x01, 0x00, 0x00, 0x00, 0x00, 0x00, 0x00, 0x00] = .ok (.msetByte 1, []) ∧
    decode [0xE8, 0x00, 0x02, 0x00, 0x00, 0x00, 0x00, 0x00, 0x00, 0x00] = .ok (.call 2, []) ∧
    decode [0xF0, 0x00, 0xAA] = .ok (.halt, [0xAA])

/-- A step of a running machine runs the instruction decoded from the record at ip. Derived from R101, R103, R104. -/
def Obligations.StepRunsDecodedInstruction : Prop :=
  (∀ (s : State) (rec : Record) (i : Instr), s.status = .running → s.program[s.ip.toNat]? = some rec →
      decodeRecord rec = some i → step s = exec i s) ∧
    ∀ (s : State) (i : Instr), i.wf = true → s.status = .running → s.program[s.ip.toNat]? = some (encodeRecord i) →
      step s = exec i s

/-- A step at or past the end of the program is the error EndOfProgram and changes only the status. States R102. -/
def Obligations.EndOfProgramStep : Prop :=
  ∀ s : State, s.status = .running → s.program.length ≤ s.ip.toNat →
    step s = .next { s with status := .haltedError .endOfProgram }

/-- A step on a record with a reserved opcode is the error InvalidOpcode and changes only the status. States R103. -/
def Obligations.InvalidOpcodeStep : Prop :=
  ∀ (s : State) (rec : Record), s.status = .running → s.program[s.ip.toNat]? = some rec →
    decodeOpcode rec.opcode = none → step s = .next { s with status := .haltedError .invalidOpcode }

/-- A halted machine has no successor (the fault halted: log 8, the choice of the model), and execute() there
changes nothing. Derived from R110, R113. -/
def Obligations.HaltedMachineHasNoSuccessor : Prop :=
  ∀ s : State, s.status ≠ .running → step s = .fault .halted ∧ execute s = s

/-- A running machine always has a next state. Derived from R101, R106, R279. -/
def Obligations.RunningMachineAlwaysSteps : Prop :=
  ∀ s : State, s.status = .running → ∃ t, step s = .next t

/-- How each instruction leaves ip: the table of R29. States R29. -/
def Obligations.InstructionPointerTable : Prop :=
  ∀ (i : Instr) (s t : State), s.status = .running → exec i s = .next t →
    (¬ Faulted t → t.ip = nextIp i s) ∧ (Faulted t → t.ip = s.ip)

/-- Only HALT ends a run in Halted(Ok). Derived from R108, R106, R247. -/
def Obligations.OnlyHaltEndsInSuccess : Prop :=
  ∀ s t : State, step s = .next t → Final t →
    ∃ rec, s.program[s.ip.toNat]? = some rec ∧ decodeRecord rec = some .halt

/-- Instructions outside the table of R107 leave no partial effect when they raise. Derived from R107, R135, R245,
R246. -/
def Obligations.CleanErrorsChangeOnlyStatus : Prop :=
  ∀ (r : Byte) (imm : Word), ∀ i ∈ [Instr.pushByte imm, .pushHword imm, .pushWord imm, .pushRegByte r, .pushRegHword r,
      .pushRegWord r, .popByte, .popHword, .popWord, .movByte r, .movHword r, .movWord r, .dupByte, .dupHword, .dupWord,
      .notByte, .notHword, .notWord, .jumpAbs imm, .call imm, .ret, .halt],
    ∀ (s t : State) (k : ErrorKind), StackCursorInRange s → s.status = .running → exec i s = .next t →
      t.status = .haltedError k →
      t = { s with status := .haltedError k }

/-- execute_all() ends only in a halted state, and a larger budget gives the same end state. Derived from R109,
R298, R112. -/
def Obligations.RunEndsHaltedWhateverTheBudget : Prop :=
  ∀ (n : Nat) (s t : State), executeAll n s = some t →
    (Final t ∨ Faulted t) ∧ ∀ m, executeAll (n + m) s = some t

/-- PUSH_BYTE, PUSH_HWORD, PUSH_WORD: encoding, result, frame, StackOverflow. States R120, R121, R122, R136. -/
def Obligations.PushImmediateRule : Prop :=
  ∀ (op : Byte) (w : Width) (i : Word → Instr),
    (op, w, i) ∈ [((0x11 : Byte), Width.byte, Instr.pushByte), (0x12, .hword, .pushHword), (0x13, .word, .pushWord)] →
    EncodedAs op w.bytes (fun _ imm => i imm) ∧
      ∀ (imm : Word) (s : State),
        (s.sp.toNat + w.bytes ≤ s.stackMax.toNat →
          ∃ t, exec (i imm) s = .next t ∧
            ∃ v : BitVec w.bits, v.toNat = imm.toNat % 2 ^ w.bits ∧ LeavesValue s t s.sp.toNat v) ∧
        (s.stackMax.toNat < s.sp.toNat + w.bytes →
          exec (i imm) s = .next { s with status := .haltedError .stackOverflow })

/-- PUSH_REG_BYTE, PUSH_REG_HWORD, PUSH_REG_WORD: encoding, result, frame, errors and their order. States R123,
R124, R125. -/
def Obligations.PushRegisterRule : Prop :=
  ∀ (op : Byte) (w : Width) (i : Byte → Instr) (k : ErrorKind),
    (op, w, i, k) ∈ [((0x21 : Byte), Width.byte, Instr.pushRegByte, ErrorKind.invalidRegisterByte),
      (0x22, .hword, .pushRegHword, .invalidRegisterHWord), (0x23, .word, .pushRegWord, .invalidRegisterWord)] →
    EncodedAs op 0 (fun r _ => i r) ∧
      ∀ (r : Byte) (s : State),
        (∀ c, s.regs[r.toNat]? = some c → s.sp.toNat + w.bytes ≤ s.stackMax.toNat →
          ∃ t, exec (i r) s = .next t ∧
            ∃ v : BitVec w.bits, v.toNat = c.toNat % 2 ^ w.bits ∧ LeavesValue s t s.sp.toNat v) ∧
        (s.regs.length ≤ r.toNat → exec (i r) s = .next { s with status := .haltedError k }) ∧
        (r.toNat < s.regs.length → s.stackMax.toNat < s.sp.toNat + w.bytes →
          exec (i r) s = .next { s with status := .haltedError .stackOverflow })

/-- POP_BYTE, POP_HWORD, POP_WORD: encoding, result, frame, StackUnderflow. States R126, R127, R128. -/
def Obligations.PopRule : Prop :=
  ∀ (op : Byte) (w : Width) (i : Instr),
    (op, w, i) ∈ [((0x31 : Byte), Width.byte, Instr.popByte), (0x32, .hword, .popHword), (0x33, .word, .popWord)] →
    EncodedAs op 0 (fun _ _ => i) ∧
      ∀ s : State,
        (w.bytes ≤ s.sp.toNat →
          exec i s = .next { s with sp := s.sp - BitVec.ofNat 64 w.bytes, ip := s.ip + 1 }) ∧
        (s.sp.toNat < w.bytes → exec i s = .next { s with status := .haltedError .stackUnderflow })

/-- MOV_BYTE, MOV_HWORD, MOV_WORD: encoding, result, kept register bytes, frame, errors and their order. States
R129, R130, R131. -/
def Obligations.MoveRule : Prop :=
  ∀ (op : Byte) (w : Width) (i : Byte → Instr) (k : ErrorKind),
    (op, w, i, k) ∈ [((0x41 : Byte), Width.byte, Instr.movByte, ErrorKind.invalidRegisterByte),
      (0x42, .hword, .movHword, .invalidRegisterHWord), (0x43, .word, .movWord, .invalidRegisterWord)] →
    EncodedAs op 0 (fun r _ => i r) ∧
      ∀ (r : Byte) (s : State),
        (∀ c, s.regs[r.toNat]? = some c → w.bytes ≤ s.sp.toNat →
          ∃ t, exec (i r) s = .next t ∧
            t = { s with regs := t.regs, sp := s.sp - BitVec.ofNat 64 w.bytes, ip := s.ip + 1 } ∧
            (∃ c', t.regs[r.toNat]? = some c' ∧ c'.toNat % 2 ^ w.bits = (rightOperand w s).toNat ∧
              c'.toNat / 2 ^ w.bits = c.toNat / 2 ^ w.bits) ∧
            t.regs.length = s.regs.length ∧ ∀ j, j ≠ r.toNat → t.regs[j]? = s.regs[j]?) ∧
        (s.regs.length ≤ r.toNat → exec (i r) s = .next { s with status := .haltedError k }) ∧
        (r.toNat < s.regs.length → s.sp.toNat < w.bytes →
          exec (i r) s = .next { s with status := .haltedError .stackUnderflow })

/-- DUP_BYTE, DUP_HWORD, DUP_WORD: encoding, result, frame, errors and their order. States R132, R133, R134. -/
def Obligations.DuplicateRule : Prop :=
  ∀ (op : Byte) (w : Width) (i : Instr),
    (op, w, i) ∈ [((0x51 : Byte), Width.byte, Instr.dupByte), (0x52, .hword, .dupHword), (0x53, .word, .dupWord)] →
    EncodedAs op 0 (fun _ _ => i) ∧
      ∀ s : State,
        (w.bytes ≤ s.sp.toNat → s.sp.toNat + w.bytes ≤ s.stackMax.toNat →
          ∃ t, exec i s = .next t ∧ LeavesValue s t s.sp.toNat (rightOperand w s) ∧
            ∀ k < w.bytes, stackByte t (s.sp.toNat + k) = stackByte s (s.sp.toNat - w.bytes + k)) ∧
        (s.sp.toNat < w.bytes → exec i s = .next { s with status := .haltedError .stackUnderflow }) ∧
        (w.bytes ≤ s.sp.toNat → s.stackMax.toNat < s.sp.toNat + w.bytes →
          exec i s = .next { s with status := .haltedError .stackOverflow })

/-- MemRead and MemWrite put byte k of a value at address a + k. Derived from R40, R8. -/
def Obligations.LittleEndianAccess : Prop :=
  ∀ (w : Width) (a : Nat),
    (∀ rd : Nat → Byte,
      (memRead rd a w).toNat = ((List.range w.bytes).map fun k => (rd (a + k)).toNat * 2 ^ (8 * k)).sum) ∧
    ∀ (m : List Host.Cell) (v : BitVec w.bits) (dflt : Nat → Byte),
      (∀ k < w.bytes, Sparse.get (Memory.write m a (valueBytes v)) (a + k) = some (v.extractLsb' (8 * k) 8)) ∧
      (∀ x, x < a ∨ a + w.bytes ≤ x → Sparse.get (Memory.write m a (valueBytes v)) x = Sparse.get m x) ∧
      memRead (fun x => (Sparse.get (Memory.write m a (valueBytes v)) x).getD (dflt x)) a w = v

/-- What a pop returns after a push of the same or of another width. Derived from R42, R44. -/
def Obligations.MixedWidthPops : Prop :=
  ∀ s : State,
    (∀ (w : Width) (v : BitVec w.bits), s.sp.toNat + w.bytes ≤ s.stackMax.toNat →
      ∃ t, push v s = .ok () t ∧ ∃ u, pop w t = .ok v u ∧ u.sp = s.sp) ∧
    ∀ v : BitVec Width.word.bits, s.sp.toNat + 8 ≤ s.stackMax.toNat →
      ∃ t, push (w := .word) v s = .ok () t ∧
        (∃ u u', pop .hword t = .ok (v.extractLsb' 32 32) u ∧ pop .hword u = .ok (v.extractLsb' 0 32) u' ∧ u'.sp = s.sp) ∧
        ∀ k < 8, ∃ u, pop .byte { t with sp := t.sp - BitVec.ofNat 64 k } = .ok (v.extractLsb' (8 * (7 - k)) 8) u ∧
          u.sp = t.sp - BitVec.ofNat 64 (k + 1)

/-- PLUS, SUB, MULT at three widths: encoding, result modulo 2^(8w), operand order, frame, StackUnderflow. States
R140, R141, R142, R143, R144, R145, R146, R147, R148. -/
def Obligations.ArithmeticRule : Prop :=
  ∀ (op : Byte) (w : Width) (i : Instr) (f : Nat → Nat → Nat → Nat),
    (op, w, i, f) ∈ [((0x61 : Byte), Width.byte, Instr.plusByte, fun m a b : Nat => (a + b) % m),
      (0x62, .hword, .plusHword, fun m a b => (a + b) % m), (0x63, .word, .plusWord, fun m a b => (a + b) % m),
      (0x65, .byte, .subByte, fun m a b => if b ≤ a then a - b else a + m - b),
      (0x66, .hword, .subHword, fun m a b => if b ≤ a then a - b else a + m - b),
      (0x67, .word, .subWord, fun m a b => if b ≤ a then a - b else a + m - b),
      (0x69, .byte, .multByte, fun m a b => a * b % m), (0x6A, .hword, .multHword, fun m a b => a * b % m),
      (0x6B, .word, .multWord, fun m a b => a * b % m)] →
    EncodedAs op 0 (fun _ _ => i) ∧
      ∀ s : State,
        CompletesWithTwoOperands w w i (fun a b v => v.toNat = f (2 ^ w.bits) a.toNat b.toNat) s ∧
          UnderflowsLikeTwoPops w i s

/-- The sum, difference and product are right in the two's-complement reading too. Derived from R149. -/
def Obligations.ArithmeticIsSignAgnostic : Prop :=
  ∀ (w : Width) (a b : BitVec w.bits),
    (signedValue (plus a b) - (signedValue a + signedValue b)) % (2 ^ w.bits : Nat) = 0 ∧
      (signedValue (minus a b) - (signedValue a - signedValue b)) % (2 ^ w.bits : Nat) = 0 ∧
      (signedValue (times a b) - signedValue a * signedValue b) % (2 ^ w.bits : Nat) = 0

/-- NOT_BYTE, NOT_HWORD, NOT_WORD: encoding, result, frame, StackUnderflow. States R200, R201, R202. -/
def Obligations.NotRule : Prop :=
  ∀ (op : Byte) (w : Width) (i : Instr),
    (op, w, i) ∈ [((0x71 : Byte), Width.byte, Instr.notByte), (0x72, .hword, .notHword), (0x73, .word, .notWord)] →
    EncodedAs op 0 (fun _ _ => i) ∧
      ∀ s : State,
        (w.bytes ≤ s.sp.toNat → StackCursorInRange s →
          ∃ t, exec i s = .next t ∧
            ∃ v : BitVec w.bits, v.toNat = 2 ^ w.bits - 1 - (rightOperand w s).toNat ∧
              (∀ k < w.bits, v.getLsbD k = !(rightOperand w s).getLsbD k) ∧
              LeavesValue s t (s.sp.toNat - w.bytes) v) ∧
        (s.sp.toNat < w.bytes → exec i s = .next { s with status := .haltedError .stackUnderflow })

/-- OR, AND, XOR at three widths: encoding, result bit by bit, frame, StackUnderflow. States R203, R204, R205, R206,
R207, R208, R209, R210, R211. -/
def Obligations.BitwiseRule : Prop :=
  ∀ (op : Byte) (w : Width) (i : Instr) (f : Bool → Bool → Bool),
    (op, w, i, f) ∈ [((0x75 : Byte), Width.byte, Instr.orByte, or), (0x76, .hword, .orHword, or), (0x77, .word, .orWord, or),
      (0x79, .byte, .andByte, and), (0x7A, .hword, .andHword, and), (0x7B, .word, .andWord, and),
      (0x7D, .byte, .xorByte, xor), (0x7E, .hword, .xorHword, xor), (0x7F, .word, .xorWord, xor)] →
    EncodedAs op 0 (fun _ _ => i) ∧
      ∀ s : State,
        CompletesWithTwoOperands w w i
            (fun a b v => ∀ k < w.bits, v.getLsbD k = f (a.getLsbD k) (b.getLsbD k)) s ∧
          UnderflowsLikeTwoPops w i s

/-- EQ, LT, LTE unsigned at three widths: encoding, result byte, operand order, frame, StackUnderflow. States R160,
R161, R162, R163, R164, R165, R166, R167, R168. -/
def Obligations.UnsignedEqualAndLessRule : Prop :=
  ∀ (op : Byte) (w : Width) (i : Instr) (rel : Nat → Nat → Bool),
    (op, w, i, rel) ∈ [((0x81 : Byte), Width.byte, Instr.eqByte, fun a b : Nat => a == b),
      (0x82, .hword, .eqHword, fun a b => a == b),
      (0x83, .word, .eqWord, fun a b => a == b),
      (0x85, .byte, .ltByte, fun a b => decide (a < b)),
      (0x86, .hword, .ltHword, fun a b => decide (a < b)),
      (0x87, .word, .ltWord, fun a b => decide (a < b)),
      (0x89, .byte, .lteByte, fun a b => decide (a ≤ b)),
      (0x8A, .hword, .lteHword, fun a b => decide (a ≤ b)),
      (0x8B, .word, .lteWord, fun a b => decide (a ≤ b))] →
    EncodedAs op 0 (fun _ _ => i) ∧
      ∀ s : State,
        CompletesWithTwoOperands w .byte i (fun a b v => v.toNat = if rel a.toNat b.toNat then 1 else 0) s ∧
          UnderflowsLikeTwoPops w i s

/-- GT, GTE unsigned at three widths: encoding, result byte, operand order, frame, StackUnderflow. States R169,
R170, R171, R172, R173, R174. -/
def Obligations.UnsignedGreaterRule : Prop :=
  ∀ (op : Byte) (w : Width) (i : Instr) (rel : Nat → Nat → Bool),
    (op, w, i, rel) ∈ [((0x8D : Byte), Width.byte, Instr.gtByte, fun a b : Nat => decide (a > b)),
      (0x8E, .hword, .gtHword, fun a b => decide (a > b)),
      (0x8F, .word, .gtWord, fun a b => decide (a > b)),
      (0x91, .byte, .gteByte, fun a b => decide (a ≥ b)),
      (0x92, .hword, .gteHword, fun a b => decide (a ≥ b)),
      (0x93, .word, .gteWord, fun a b => decide (a ≥ b))] →
    EncodedAs op 0 (fun _ _ => i) ∧
      ∀ s : State,
        CompletesWithTwoOperands w .byte i (fun a b v => v.toNat = if rel a.toNat b.toNat then 1 else 0) s ∧
          UnderflowsLikeTwoPops w i s

/-- EQ, LT, LTE signed at three widths: encoding, result byte, operand order, frame, StackUnderflow. States R175,
R176, R177, R178, R179, R180, R181, R182, R183. -/
def Obligations.SignedEqualAndLessRule : Prop :=
  ∀ (op : Byte) (w : Width) (i : Instr) (rel : Int → Int → Bool),
    (op, w, i, rel) ∈ [((0xA1 : Byte), Width.byte, Instr.eqChar, fun a b : Int => a == b),
      (0xA2, .hword, .eqInt, fun a b => a == b),
      (0xA3, .word, .eqLong, fun a b => a == b),
      (0xA5, .byte, .ltChar, fun a b => decide (a < b)),
      (0xA6, .hword, .ltInt, fun a b => decide (a < b)),
      (0xA7, .word, .ltLong, fun a b => decide (a < b)),
      (0xA9, .byte, .lteChar, fun a b => decide (a ≤ b)),
      (0xAA, .hword, .lteInt, fun a b => decide (a ≤ b)),
      (0xAB, .word, .lteLong, fun a b => decide (a ≤ b))] →
    EncodedAs op 0 (fun _ _ => i) ∧
      ∀ s : State,
        CompletesWithTwoOperands w .byte i (fun a b v => v.toNat = if rel a.toInt b.toInt then 1 else 0) s ∧
          UnderflowsLikeTwoPops w i s

/-- GT, GTE signed at three widths: encoding, result byte, operand order, frame, StackUnderflow. States R184, R185,
R186, R187, R188, R189. -/
def Obligations.SignedGreaterRule : Prop :=
  ∀ (op : Byte) (w : Width) (i : Instr) (rel : Int → Int → Bool),
    (op, w, i, rel) ∈ [((0xAD : Byte), Width.byte, Instr.gtChar, fun a b : Int => decide (a > b)),
      (0xAE, .hword, .gtInt, fun a b => decide (a > b)),
      (0xAF, .word, .gtLong, fun a b => decide (a > b)),
      (0xB1, .byte, .gteChar, fun a b => decide (a ≥ b)),
      (0xB2, .hword, .gteInt, fun a b => decide (a ≥ b)),
      (0xB3, .word, .gteLong, fun a b => decide (a ≥ b))] →
    EncodedAs op 0 (fun _ _ => i) ∧
      ∀ s : State,
        CompletesWithTwoOperands w .byte i (fun a b v => v.toNat = if rel a.toInt b.toInt then 1 else 0) s ∧
          UnderflowsLikeTwoPops w i s

/-- The pattern of -1 compares below that of 1 signed and above it unsigned, at every width. Derived from R190. -/
def Obligations.MinusOneAgainstOne : Prop :=
  ∀ (w : Width) (signedLt unsignedLt unsignedGt : Instr),
    (w, signedLt, unsignedLt, unsignedGt) ∈ [(Width.byte, Instr.ltChar, Instr.ltByte, Instr.gtByte),
      (.hword, .ltInt, .ltHword, .gtHword), (.word, .ltLong, .ltWord, .gtWord)] →
    ∀ s : State, 2 * w.bytes ≤ s.sp.toNat → StackCursorInRange s →
      (leftOperand w s).toNat = 2 ^ w.bits - 1 → (rightOperand w s).toNat = 1 →
      (∃ t, exec signedLt s = .next t ∧ LeavesValue (w := .byte) s t (s.sp.toNat - 2 * w.bytes) (1 : BitVec 8)) ∧
        (∃ t, exec unsignedLt s = .next t ∧ LeavesValue (w := .byte) s t (s.sp.toNat - 2 * w.bytes) (0 : BitVec 8)) ∧
        ∃ t, exec unsignedGt s = .next t ∧ LeavesValue (w := .byte) s t (s.sp.toNat - 2 * w.bytes) (1 : BitVec 8)

/-- MALLOC_BYTE, MALLOC_HWORD, MALLOC_WORD: encoding, new block, handle pushed, frame, OutOfMemory, StackOverflow.
States R220, R221, R222. -/
def Obligations.AllocateRule : Prop :=
  ∀ (op : Byte) (w : Width) (i : Word → Instr),
    (op, w, i) ∈ [((0xC1 : Byte), Width.byte, Instr.mallocByte), (0xC2, .hword, .mallocHword), (0xC3, .word, .mallocWord)] →
    EncodedAs op 8 (fun _ imm => i imm) ∧
      ∀ (n : Word) (s : State),
        (AllocationRefused (n.toNat * w.bytes) s →
          exec (i n) s = .next { s with status := .haltedError .outOfMemory }) ∧
        ∀ (h : Word) (s' : State), ¬ AllocationRefused (n.toNat * w.bytes) s → allocHandle s = some (h, s') →
          (s.sp.toNat + 8 ≤ s.stackMax.toNat →
            ∃ t, exec (i n) s = .next t ∧ AllocatedBlock s t h (n.toNat * w.bytes) ∧
              PushedAt (w := .word) s t s.sp.toNat h ∧
              t = { s with stack := t.stack, sp := t.sp, ip := s.ip + 1, heap := t.heap, hnext := s'.hnext, draws := t.draws }) ∧
          (s.stackMax.toNat < s.sp.toNat + 8 →
            ∃ t, exec (i n) s = .next t ∧ AllocatedBlock s t h (n.toNat * w.bytes) ∧
              t = { s with status := .haltedError .stackOverflow, heap := t.heap, hnext := s'.hnext, draws := t.draws })

/-- Under ALLOC_SEQ MALLOC hands out hnext and advances it, and completes whenever there is room. Derived from R50,
R56. -/
def Obligations.SequentialAllocation : Prop :=
  ∀ (w : Width) (i : Word → Instr),
    (w, i) ∈ [(Width.byte, Instr.mallocByte), (.hword, .mallocHword), (.word, .mallocWord)] →
    ∀ (n : Word) (s : State), s.alloc = .seq →
      (s.hnext.toNat < 2 ^ 64 - 1 → n.toNat * w.bytes < 2 ^ 64 →
        (∀ limit, s.heapLimit = some limit → liveBytes s + n.toNat * w.bytes ≤ limit) →
        s.sp.toNat + 8 ≤ s.stackMax.toNat →
        ∃ t, exec (i n) s = .next t ∧ AllocatedBlock s t s.hnext (n.toNat * w.bytes) ∧
          PushedAt (w := .word) s t s.sp.toNat s.hnext ∧
          t = { s with stack := t.stack, sp := t.sp, ip := s.ip + 1, heap := t.heap, hnext := s.hnext + 1, draws := t.draws }) ∧
      (s.hnext.toNat = 2 ^ 64 - 1 → exec (i n) s = .next { s with status := .haltedError .outOfMemory })

/-- The handle an allocation gives is not live before, under every policy. Derived from R50. -/
def Obligations.AllocatedHandleIsNotLive : Prop :=
  ∀ (s s' : State) (h : Word), Inv s → allocHandle s = some (h, s') →
    blockOf s h = none ∧ (s.alloc = .seq → h.toNat ≠ 0 ∧ h.toNat ≠ 2 ^ 64 - 1)

/-- MALLOC raises OutOfMemory in exactly the three cases of R56. Derived from R56, R273. -/
def Obligations.OutOfMemoryInExactlyThreeCases : Prop :=
  ∀ (w : Width) (i : Word → Instr),
    (w, i) ∈ [(Width.byte, Instr.mallocByte), (.hword, .mallocHword), (.word, .mallocWord)] →
    ∀ (n : Word) (s t : State), s.status = .running → exec (i n) s = .next t →
      (t.status = .haltedError .outOfMemory ↔ AllocationRefused (n.toNat * w.bytes) s)

/-- MGET_BYTE, MGET_HWORD, MGET_WORD: encoding, element pushed, frame, errors with the handle popped. States R223,
R224, R225. -/
def Obligations.GetElementRule : Prop :=
  ∀ (op : Byte) (w : Width) (i : Word → Instr),
    (op, w, i) ∈ [((0xC5 : Byte), Width.byte, Instr.mgetByte), (0xC6, .hword, .mgetHword), (0xC7, .word, .mgetWord)] →
    EncodedAs op 8 (fun _ imm => i imm) ∧
      ∀ (n : Word) (s : State),
        (8 ≤ s.sp.toNat →
          (∀ b, blockOf s (rightOperand .word s) = some b →
            (n.toNat * w.bytes + w.bytes ≤ b.size.toNat → StackCursorInRange s →
              ∃ t, exec (i n) s = .next t ∧
                ∃ v : BitVec w.bits,
                  (∀ k < w.bytes, v.extractLsb' (8 * k) 8 = blockByte b (n.toNat * w.bytes + k)) ∧
                  LeavesValue s t (s.sp.toNat - 8) v) ∧
            (b.size.toNat < n.toNat * w.bytes + w.bytes →
              exec (i n) s = .next { s with sp := s.sp - 8, status := .haltedError .outOfBounds })) ∧
          (blockOf s (rightOperand .word s) = none →
            exec (i n) s = .next { s with sp := s.sp - 8, status := .haltedError .invalidPageAddress })) ∧
        (s.sp.toNat < 8 → exec (i n) s = .next { s with status := .haltedError .stackUnderflow })

/-- MSET_BYTE, MSET_HWORD, MSET_WORD: encoding, element stored, frame, errors with the operands popped. States R226,
R227, R228. -/
def Obligations.SetElementRule : Prop :=
  ∀ (op : Byte) (w : Width) (i : Word → Instr),
    (op, w, i) ∈ [((0xC9 : Byte), Width.byte, Instr.msetByte), (0xCA, .hword, .msetHword), (0xCB, .word, .msetWord)] →
    EncodedAs op 8 (fun _ imm => i imm) ∧
      ∀ (n : Word) (s : State),
        (w.bytes + 8 ≤ s.sp.toNat →
          ∀ h : Word, h = stackValue s (s.sp.toNat - (w.bytes + 8)) .word →
            (∀ b, blockOf s h = some b →
              (n.toNat * w.bytes + w.bytes ≤ b.size.toNat →
                ∃ t, exec (i n) s = .next t ∧ StoredInBlock s t h b (n.toNat * w.bytes) (rightOperand w s) ∧
                  t = { s with sp := s.sp - BitVec.ofNat 64 (w.bytes + 8), ip := s.ip + 1, heap := t.heap }) ∧
              (b.size.toNat < n.toNat * w.bytes + w.bytes →
                exec (i n) s =
                  .next { s with sp := s.sp - BitVec.ofNat 64 (w.bytes + 8), status := .haltedError .outOfBounds })) ∧
            (blockOf s h = none →
              exec (i n) s =
                .next { s with sp := s.sp - BitVec.ofNat 64 (w.bytes + 8), status := .haltedError .invalidPageAddress })) ∧
        (s.sp.toNat < w.bytes → exec (i n) s = .next { s with status := .haltedError .stackUnderflow }) ∧
        (w.bytes ≤ s.sp.toNat → s.sp.toNat < w.bytes + 8 →
          exec (i n) s =
            .next { s with sp := s.sp - BitVec.ofNat 64 w.bytes, status := .haltedError .stackUnderflow })

/-- MDELETE: encoding, block removed, frame, errors with the handle popped. States R229. -/
def Obligations.DeleteRule : Prop :=
  EncodedAs 0xCC 0 (fun _ _ => .mdelete) ∧
    ∀ s : State,
      (8 ≤ s.sp.toNat →
        ((blockOf s (rightOperand .word s)).isSome = true →
          ∃ t, exec .mdelete s = .next t ∧ blockOf t (rightOperand .word s) = none ∧
            (∀ g, g ≠ rightOperand .word s → blockOf t g = blockOf s g) ∧
            t = { s with sp := s.sp - 8, ip := s.ip + 1, heap := t.heap }) ∧
        (blockOf s (rightOperand .word s) = none →
          exec .mdelete s = .next { s with sp := s.sp - 8, status := .haltedError .invalidPageAddress })) ∧
      (s.sp.toNat < 8 → exec .mdelete s = .next { s with status := .haltedError .stackUnderflow })

/-- MSIZE: encoding, size pushed, frame, errors with the handle popped. States R230. -/
def Obligations.SizeRule : Prop :=
  EncodedAs 0xD0 0 (fun _ _ => .msize) ∧
    ∀ s : State,
      (8 ≤ s.sp.toNat →
        (∀ b, blockOf s (rightOperand .word s) = some b → StackCursorInRange s →
          ∃ t, exec .msize s = .next t ∧ LeavesValue (w := .word) s t (s.sp.toNat - 8) b.size) ∧
        (blockOf s (rightOperand .word s) = none →
          exec .msize s = .next { s with sp := s.sp - 8, status := .haltedError .invalidPageAddress })) ∧
      (s.sp.toNat < 8 → exec .msize s = .next { s with status := .haltedError .stackUnderflow })

/-- A heap read after a write of the same width at the same place gives the value, and elsewhere the old value.
Derived from R51, R52. -/
def Obligations.HeapReadAfterWrite : Prop :=
  ∀ (h : Word) (off : Nat) (w : Width) (v : BitVec w.bits) (s t : State), heapWrite h off v s = .ok () t →
    heapRead h off w t = .ok v t ∧
      ∀ (g : Word) (off' : Nat) (u : Width), (g ≠ h ∨ off' + u.bytes ≤ off ∨ off + w.bytes ≤ off') →
        (∀ x, heapRead g off' u s = .ok x s → heapRead g off' u t = .ok x t) ∧
        ∀ k, heapRead g off' u s = .raised k s → heapRead g off' u t = .raised k t

/-- After a delete every access to that handle, a second delete included, is InvalidPageAddress. Derived from R53. -/
def Obligations.DeletedHandleIsInvalid : Prop :=
  ∀ (h : Word) (s : State),
    (blockOf s h = none → heapDelete h s = .raised .invalidPageAddress s) ∧
      ((blockOf s h).isSome = true → ∃ t, heapDelete h s = .ok () t ∧
        (∀ g, g ≠ h → blockOf t g = blockOf s g) ∧
        heapSize h t = .raised .invalidPageAddress t ∧ heapDelete h t = .raised .invalidPageAddress t ∧
        ∀ (off : Nat) (w : Width), heapRead h off w t = .raised .invalidPageAddress t ∧
          ∀ v : BitVec w.bits, heapWrite h off v t = .raised .invalidPageAddress t)

/-- Under ALLOC_SEQ a handle that was issued and deleted is never live again. Derived from R50. -/
def Obligations.HandlesAreNeverReused : Prop :=
  ∀ (s t : State) (h : Word), Inv s → s.alloc = .seq → step s = .next t →
    h.toNat < s.hnext.toNat → blockOf s h = none → blockOf t h = none ∧ h.toNat < t.hnext.toNat

/-- JUMP_ABS: encoding, target, frame, InvalidProgramAddress. States R241. -/
def Obligations.JumpRule : Prop :=
  EncodedAs 0xE0 8 (fun _ imm => .jumpAbs imm) ∧
    ∀ (t : Word) (s : State),
      (t.toNat < s.program.length → exec (.jumpAbs t) s = .next { s with ip := t }) ∧
      (s.program.length ≤ t.toNat → exec (.jumpAbs t) s = .next { s with status := .haltedError .invalidProgramAddress })

/-- JUMP_IF_BYTE, JUMP_IF_HWORD, JUMP_IF_WORD: encoding, condition, target, frame, errors. States R242, R243, R244. -/
def Obligations.JumpIfRule : Prop :=
  ∀ (op : Byte) (w : Width) (i : Word → Instr),
    (op, w, i) ∈ [((0xE5 : Byte), Width.byte, Instr.jumpIfByte), (0xE6, .hword, .jumpIfHword), (0xE7, .word, .jumpIfWord)] →
    EncodedAs op 8 (fun _ imm => i imm) ∧
      ∀ (t : Word) (s : State),
        (w.bytes ≤ s.sp.toNat →
          ((rightOperand w s).toNat ≠ 0 → t.toNat < s.program.length →
            exec (i t) s = .next { s with sp := s.sp - BitVec.ofNat 64 w.bytes, ip := t }) ∧
          ((rightOperand w s).toNat = 0 →
            exec (i t) s = .next { s with sp := s.sp - BitVec.ofNat 64 w.bytes, ip := s.ip + 1 }) ∧
          ((rightOperand w s).toNat ≠ 0 → s.program.length ≤ t.toNat →
            exec (i t) s = .next
              { s with sp := s.sp - BitVec.ofNat 64 w.bytes, status := .haltedError .invalidProgramAddress })) ∧
        (s.sp.toNat < w.bytes → exec (i t) s = .next { s with status := .haltedError .stackUnderflow })

/-- CALL: encoding, return address pushed, target, frame, CallStackOverflow before InvalidProgramAddress. States
R245. -/
def Obligations.CallRule : Prop :=
  EncodedAs 0xE8 8 (fun _ imm => .call imm) ∧
    ∀ (t : Word) (s : State),
      (s.csp ≠ s.callMax → t.toNat < s.program.length →
        ∃ u, exec (.call t) s = .next u ∧ callEntry u s.csp.toNat = s.ip + 1 ∧
          (∀ i, i ≠ s.csp.toNat → callEntry u i = callEntry s i) ∧
          u = { s with callStack := u.callStack, csp := s.csp + 1, ip := t }) ∧
      (s.csp = s.callMax → exec (.call t) s = .next { s with status := .haltedError .callStackOverflow }) ∧
      (s.csp ≠ s.callMax → s.program.length ≤ t.toNat →
        exec (.call t) s = .next { s with status := .haltedError .invalidProgramAddress })

/-- RET: encoding, return address popped into ip, frame, CallStackUnderflow. States R246. -/
def Obligations.ReturnRule : Prop :=
  EncodedAs 0xEC 0 (fun _ _ => .ret) ∧
    ∀ s : State,
      (s.csp ≠ 0 → exec .ret s = .next { s with csp := s.csp - 1, ip := callEntry s (s.csp.toNat - 1) }) ∧
      (s.csp = 0 → exec .ret s = .next { s with status := .haltedError .callStackUnderflow })

/-- HALT: encoding, status Halted(Ok), ip advanced, nothing else changed, no further step (the fault halted: log 8,
the choice of the model). Derived from R247, R110. -/
def Obligations.HaltRule : Prop :=
  EncodedAs 0xF0 0 (fun _ _ => .halt) ∧
    ∀ s : State, exec .halt s = .next { s with ip := s.ip + 1, status := .haltedOk } ∧
      step { s with ip := s.ip + 1, status := .haltedOk } = .fault .halted

/-- A CALL followed by a RET restores ip to the instruction after the CALL. Derived from R245, R246. -/
def Obligations.CallThenReturn : Prop :=
  ∀ (a : Word) (s : State), s.csp.toNat < s.callMax.toNat → a.toNat < s.program.length →
    ∃ t u, exec (.call a) s = .next t ∧ exec .ret t = .next u ∧
      u = { s with callStack := u.callStack, ip := s.ip + 1 } ∧
      ∀ i, i ≠ s.csp.toNat → callEntry u i = callEntry s i

/-- Every step keeps the invariant of the machine. Derived from R36, R21, R24, R26, R50, R6. -/
def Obligations.StepKeepsInvariant : Prop :=
  ∀ s t : State, Inv s → step s = .next t → Inv t

/-- The state after reset has the invariant. Derived from R36, R38. -/
def Obligations.ResetHasInvariant : Prop :=
  Inv State.reset

/-- The start of every valid launch has the invariant. Derived from R36, R38, R294, R6. -/
def Obligations.EveryLaunchHasInvariant : Prop :=
  ∀ l : Launch, l.Valid → Inv l.start

/-- Every step keeps every storage list in its canonical form, in any state. Derived from R40, R24, R26. -/
def Obligations.StepKeepsCanonicalStorage : Prop :=
  ∀ s t : State, CanonicalStorage s → step s = .next t → CanonicalStorage t

/-- No step changes the program or a launch parameter. Derived from R6, R20, R27, R67. -/
def Obligations.ProgramAndParametersNeverChange : Prop :=
  ∀ s t : State, step s = .next t →
    t.program = s.program ∧ t.stackMax = s.stackMax ∧ t.callMax = s.callMax ∧ t.heapLimit = s.heapLimit ∧
      t.alloc = s.alloc ∧ t.regs.length = s.regs.length

/-- Only MOV writes a register, and only PUSH_REG and MOV depend on one. Derived from R23, R34. -/
def Obligations.RegistersOnlyThroughPushRegAndMov : Prop :=
  (∀ (i : Instr) (s t : State), exec i s = .next t → t.regs ≠ s.regs →
      ∃ r, i = .movByte r ∨ i = .movHword r ∨ i = .movWord r) ∧
    ∀ (i : Instr) (s : State) (x : List Word),
      (∀ r, i ∉ [Instr.pushRegByte r, .pushRegHword r, .pushRegWord r, .movByte r, .movHword r, .movWord r]) →
      exec i { s with regs := x } = mapNext (fun t => { t with regs := x }) (exec i s)

/-- Which instructions can change S, the heap and the call stack. Derived from R21, R24, R25, R26, R34. -/
def Obligations.WhoWritesWhat : Prop :=
  ∀ (i : Instr) (s t : State), exec i s = .next t →
    (t.csp ≠ s.csp → i = .ret ∨ ∃ a, i = .call a) ∧
    (t.callStack ≠ s.callStack → ∃ a, i = .call a) ∧
    (t.heap ≠ s.heap → i = .mdelete ∨
      ∃ n, i ∈ [Instr.mallocByte n, .mallocHword n, .mallocWord n, .msetByte n, .msetHword n, .msetWord n]) ∧
    (t.hnext ≠ s.hnext → ∃ n, i ∈ [Instr.mallocByte n, .mallocHword n, .mallocWord n]) ∧
    (t.stack ≠ s.stack ∨ t.sp ≠ s.sp → i ≠ .ret ∧ i ≠ .halt ∧ ∀ a, i ≠ .jumpAbs a ∧ i ≠ .call a)

/-- No step depends on S at or above sp or on CS at or above csp. Derived from R45, R291, R35. -/
def Obligations.BytesAboveCursorsDoNotMatter : Prop :=
  ∀ s t : State, AgreeBelowCursors s t → OutcomesAgree AgreeBelowCursors (step s) (step t)

/-- The state reset leaves, for every launch; free values of logs 4 and 5; hnext = 1 under another policy than
ALLOC_SEQ: log 17 (all choices of the model). Derived from R38, R291. -/
def Obligations.LaunchState : Prop :=
  ∀ l : Launch, l.Valid → l.rejected = false →
    l.start.status = .running ∧ statusRegister l.start = 0x00 ∧ l.start.ip = 0 ∧ l.start.sp = 0 ∧ l.start.csp = 0 ∧ l.start.regs = l.regs ∧
      l.start.heap = l.heap ∧ l.start.program = l.program ∧ l.start.stackMax = l.stackMax ∧
      l.start.callMax = l.callMax ∧ l.start.heapLimit = l.heapLimit ∧
      (∀ a, stackByte l.start a = Config.stackInit a) ∧ (∀ i, callEntry l.start i = Config.callInit i) ∧
      (∀ n, (l.loadRegisterCount n).start.regs = List.replicate n 0) ∧
      (l.heap = [] → l.start.hnext = 1) ∧
      (l.heap ≠ [] → (∃ e ∈ l.heap, l.start.hnext.toNat = e.1 + 1) ∧ ∀ e ∈ l.heap, e.1 < l.start.hnext.toNat)

/-- Loading a program: records, a good stream, a rejected stream (logs 8 and 13, choices of the model: the fault
halted, a later load replaces the verdict). Derived from R293. -/
def Obligations.ProgramLoad : Prop :=
  ∀ l : Launch,
    (∀ records, (l.loadRecords records).start.program = records ∧ (l.loadRecords records).start.status = .running) ∧
    (∀ bytes records, decodeStream bytes = .ok records → l.loadBytes bytes = l.loadRecords records) ∧
    ∀ bytes k, decodeStream bytes = .error k →
      k = .invalidOpcode ∧
      (l.loadBytes bytes).start = { (l.loadRecords []).start with status := .haltedError .invalidOpcode } ∧
      (l.loadBytes bytes).start.ip = 0 ∧ (l.loadBytes bytes).start.program = [] ∧
      step (l.loadBytes bytes).start = .fault .halted

/-- The register STATUS: STATE in bits 1:0, zero in 3:2, the error code in 7:4. Derived from R30, R260. -/
def Obligations.StatusRegisterLayout : Prop :=
  ∀ s : State,
    (statusRegister s).extractLsb' 2 2 = 0 ∧
    (s.status = .running → statusRegister s = 0x00) ∧
    (s.status = .haltedOk → statusRegister s = 0x01) ∧
    ∀ (k : ErrorKind) (code : Nat),
      (k, code) ∈ [(ErrorKind.stackOverflow, 1), (.stackUnderflow, 2), (.callStackOverflow, 3), (.callStackUnderflow, 4),
        (.invalidOpcode, 5), (.invalidRegisterByte, 6), (.invalidRegisterHWord, 7), (.invalidRegisterWord, 8),
        (.invalidProgramAddress, 9), (.invalidPageAddress, 10), (.outOfBounds, 11), (.endOfProgram, 12), (.outOfMemory, 13)] →
      s.status = .haltedError k →
        (statusRegister s).extractLsb' 0 2 = 2 ∧ ((statusRegister s).extractLsb' 4 4).toNat = code
end

