-- ==== Sys2Proof/Laws/Memory.lean ====
section
/-! SUPPORT. The laws of sparse storage, of the canonical form, and of the little-endian access. -/

namespace Sys2Proof.Machine

variable {α : Type}

/-! ## Reading after a write or an erasure -/

@[simp] theorem Sparse.get_nil (a : Nat) : Sparse.get ([] : List (Nat × α)) a = none := rfl

theorem Sparse.get_cons (k : Nat) (v : α) (m : List (Nat × α)) (a : Nat) :
    Sparse.get ((k, v) :: m) a = if k = a then some v else Sparse.get m a := rfl

@[simp] theorem Sparse.get_set_same (m : List (Nat × α)) (a : Nat) (v : α) :
    Sparse.get (Sparse.set m a v) a = some v := by
  induction m with
  | nil => simp [Sparse.set, Sparse.get]
  | cons e m ih =>
    obtain ⟨k, x⟩ := e
    simp only [Sparse.set]
    split
    · simp [Sparse.get]
    · split
      · simp [Sparse.get]
      · have : k ≠ a := by omega
        simpa [Sparse.get, this] using ih

theorem Sparse.get_set_other (m : List (Nat × α)) {a b : Nat} (v : α) (h : b ≠ a) :
    Sparse.get (Sparse.set m a v) b = Sparse.get m b := by
  induction m with
  | nil => simp [Sparse.set, Sparse.get, h.symm]
  | cons e m ih =>
    obtain ⟨k, x⟩ := e
    simp only [Sparse.set]
    split
    · simp [Sparse.get, h.symm]
    · split
      · subst_vars; simp [Sparse.get, h.symm]
      · simp [Sparse.get, ih]

theorem Sparse.get_set (m : List (Nat × α)) (a b : Nat) (v : α) :
    Sparse.get (Sparse.set m a v) b = if b = a then some v else Sparse.get m b := by
  split
  · subst_vars; simp
  · exact Sparse.get_set_other m v ‹_›

@[simp] theorem Sparse.get_erase_same (m : List (Nat × α)) (a : Nat) :
    Sparse.get (Sparse.erase m a) a = none := by
  induction m with
  | nil => rfl
  | cons e m ih =>
    obtain ⟨k, x⟩ := e
    by_cases h : k = a <;> simp_all [Sparse.erase, Sparse.get]

theorem Sparse.get_erase_other (m : List (Nat × α)) {a b : Nat} (h : b ≠ a) :
    Sparse.get (Sparse.erase m a) b = Sparse.get m b := by
  induction m with
  | nil => rfl
  | cons e m ih =>
    obtain ⟨k, x⟩ := e
    by_cases hk : k = a
    · subst hk
      simpa [Sparse.erase, Sparse.get, h.symm] using ih
    · simp_all [Sparse.erase, Sparse.get]

theorem Sparse.mem_of_get {m : List (Nat × α)} {a : Nat} {v : α} (h : Sparse.get m a = some v) :
    (a, v) ∈ m := by
  induction m with
  | nil => simp at h
  | cons e m ih =>
    obtain ⟨k, x⟩ := e
    by_cases hk : k = a
    · simp_all [Sparse.get]
    · simp only [Sparse.get, hk, if_false] at h
      exact List.mem_cons_of_mem _ (ih h)

theorem Sparse.mem_set {m : List (Nat × α)} {a : Nat} {v : α} {e : Nat × α}
    (h : e ∈ Sparse.set m a v) : e = (a, v) ∨ e ∈ m := by
  induction m with
  | nil => simpa [Sparse.set] using h
  | cons x m ih =>
    obtain ⟨k, y⟩ := x
    simp only [Sparse.set] at h
    split at h
    · simpa using h
    · split at h
      · rcases List.mem_cons.mp h with h | h
        · exact .inl h
        · exact .inr (List.mem_cons_of_mem _ h)
      · rcases List.mem_cons.mp h with h | h
        · exact .inr (h ▸ List.mem_cons_self)
        · exact (ih h).imp_right (List.mem_cons_of_mem _)

/-! ## The canonical form -/

@[simp] theorem Sparse.wf_nil : Sparse.wf ([] : List (Nat × α)) = true := rfl

theorem Sparse.wf_cons (k : Nat) (v : α) (m : List (Nat × α)) :
    Sparse.wf ((k, v) :: m) = true ↔ (∀ e ∈ m, k < e.1) ∧ Sparse.wf m = true := by
  simp [Sparse.wf]

theorem Sparse.wf_set {m : List (Nat × α)} (a : Nat) (v : α) (h : Sparse.wf m = true) :
    Sparse.wf (Sparse.set m a v) = true := by
  induction m with
  | nil => rfl
  | cons e m ih =>
    obtain ⟨k, x⟩ := e
    rw [Sparse.wf_cons] at h
    simp only [Sparse.set]
    split
    · rw [Sparse.wf_cons, Sparse.wf_cons]
      refine ⟨fun e he => ?_, h⟩
      rcases List.mem_cons.mp he with he | he
      · subst he; assumption
      · have := h.1 e he
        omega
    · split
      · subst_vars; exact (Sparse.wf_cons ..).mpr h
      · refine (Sparse.wf_cons ..).mpr ⟨fun e he => ?_, ih h.2⟩
        rcases Sparse.mem_set he with he | he
        · subst he
          show k < a
          omega
        · exact h.1 e he

theorem Sparse.wf_erase {m : List (Nat × α)} (a : Nat) (h : Sparse.wf m = true) :
    Sparse.wf (Sparse.erase m a) = true := by
  induction m with
  | nil => rfl
  | cons e m ih =>
    obtain ⟨k, x⟩ := e
    rw [Sparse.wf_cons] at h
    by_cases hk : k = a
    · simpa [Sparse.erase, hk] using ih h.2
    · have : Sparse.erase ((k, x) :: m) a = (k, x) :: Sparse.erase m a := by
        simp [Sparse.erase, hk]
      rw [this, Sparse.wf_cons]
      exact ⟨fun e he => h.1 e (List.mem_of_mem_filter he), ih h.2⟩

/-- Storing bytes keeps the canonical form. -/
theorem Memory.wf_write {m : List Host.Cell} (a : Nat) (bs : List Byte) (h : Memory.wf m = true) :
    Memory.wf (Memory.write m a bs) = true := by
  induction bs generalizing m a with
  | nil => exact h
  | cons b bs ih => exact ih (a + 1) (Sparse.wf_set a b h)

/-! ## Storing bytes -/

theorem Memory.get_write_outside (m : List Host.Cell) (a : Nat) (bs : List Byte) {x : Nat}
    (h : x < a ∨ a + bs.length ≤ x) :
    Sparse.get (Memory.write m a bs) x = Sparse.get m x := by
  induction bs generalizing m a with
  | nil => rfl
  | cons b bs ih =>
    simp only [List.length_cons] at h
    rw [Memory.write, ih _ _ (by omega), Sparse.get_set_other _ _ (by omega)]

theorem Memory.get_write_inside (m : List Host.Cell) (a : Nat) (bs : List Byte) {k : Nat}
    (h : k < bs.length) :
    Sparse.get (Memory.write m a bs) (a + k) = some bs[k] := by
  induction bs generalizing m a k with
  | nil => simp at h
  | cons b bs ih =>
    cases k with
    | zero =>
      rw [Memory.write, Memory.get_write_outside _ _ _ (by omega)]
      simp
    | succ k =>
      have := ih (Sparse.set m a b) (a + 1) (k := k) (by simpa using h)
      rw [Memory.write, show a + (k + 1) = a + 1 + k by omega, this]
      simp

theorem Memory.mem_write {m : List Host.Cell} {a : Nat} {bs : List Byte} {e : Host.Cell}
    (h : e ∈ Memory.write m a bs) : e ∈ m ∨ (a ≤ e.1 ∧ e.1 < a + bs.length) := by
  induction bs generalizing m a with
  | nil => exact .inl h
  | cons b bs ih =>
    simp only [List.length_cons]
    rcases ih h with h | h
    · rcases Sparse.mem_set h with h | h
      · subst h
        exact .inr ⟨Nat.le_refl _, by show a < _; omega⟩
      · exact .inl h
    · exact .inr (by omega)

/-! ## Bytes and numbers -/

@[simp] theorem leBytes_length (n v : Nat) : (leBytes n v).length = n := by
  induction n generalizing v with
  | zero => rfl
  | succ n ih => simp [leBytes, ih]

theorem leBytes_getElem (n v : Nat) {k : Nat} (h : k < (leBytes n v).length) :
    (leBytes n v)[k] = BitVec.ofNat 8 (v / 256 ^ k) := by
  induction n generalizing v k with
  | zero => simp [leBytes] at h
  | succ n ih =>
    cases k with
    | zero => simp [leBytes]
    | succ k =>
      simp only [leBytes, List.getElem_cons_succ]
      rw [ih, Nat.div_div_eq_div_mul, Nat.pow_succ, Nat.mul_comm]

theorem leNat_leBytes (n v : Nat) : leNat (leBytes n v) = v % 256 ^ n := by
  induction n generalizing v with
  | zero => simp [leBytes, leNat, Nat.mod_one]
  | succ n ih =>
    simp only [leBytes, leNat, ih, BitVec.toNat_ofNat]
    rw [show 256 ^ (n + 1) = 256 * 256 ^ n by ring, Nat.mod_mul]

theorem leNat_lt (bs : List Byte) : leNat bs < 256 ^ bs.length := by
  induction bs with
  | nil => simp [leNat]
  | cons b bs ih =>
    have := b.isLt
    simp only [leNat, List.length_cons, Nat.pow_succ]
    omega

theorem leBytes_leNat (bs : List Byte) : leBytes bs.length (leNat bs) = bs := by
  induction bs with
  | nil => rfl
  | cons b bs ih =>
    have := b.isLt
    have hdiv : (b.toNat + 256 * leNat bs) / 256 = leNat bs := by omega
    simp only [List.length_cons, leBytes, leNat, hdiv, ih, List.cons.injEq, and_true]
    apply BitVec.eq_of_toNat_eq
    rw [BitVec.toNat_ofNat]
    omega

theorem Width.bits_eq (w : Width) : w.bits = 8 * w.bytes := by cases w <;> rfl

theorem Width.two_pow_bits (w : Width) : 2 ^ w.bits = 256 ^ w.bytes := by cases w <;> decide

@[simp] theorem valueBytes_length {w : Width} (v : BitVec w.bits) : (valueBytes v).length = w.bytes := by
  simp [valueBytes]

/-- Byte `k` of a value is `v[8k+7:8k]` (00_scope.md R8). -/
theorem valueBytes_getElem {w : Width} (v : BitVec w.bits) {k : Nat} (h : k < (valueBytes v).length) :
    (valueBytes v)[k] = v.extractLsb' (8 * k) 8 := by
  simp only [valueBytes, leBytes_getElem]
  apply BitVec.eq_of_toNat_eq
  rw [BitVec.toNat_ofNat, BitVec.extractLsb'_toNat, Nat.shiftRight_eq_div_pow, Nat.pow_mul]

@[simp] theorem bytesAt_length (rd : Nat → Byte) (a n : Nat) : (bytesAt rd a n).length = n := by
  induction n generalizing a with
  | zero => rfl
  | succ n ih => simp [bytesAt, ih]

theorem bytesAt_getElem (rd : Nat → Byte) (a n : Nat) {k : Nat} (h : k < (bytesAt rd a n).length) :
    (bytesAt rd a n)[k] = rd (a + k) := by
  induction n generalizing a k with
  | zero => simp [bytesAt] at h
  | succ n ih =>
    cases k with
    | zero => rfl
    | succ k =>
      simp only [bytesAt, List.getElem_cons_succ, ih]
      rw [show a + 1 + k = a + (k + 1) by omega]

theorem bytesAt_congr {rd rd' : Nat → Byte} {a n : Nat} (h : ∀ k < n, rd (a + k) = rd' (a + k)) :
    bytesAt rd a n = bytesAt rd' a n := by
  apply List.ext_getElem (by simp)
  intro k hk _
  rw [bytesAt_getElem, bytesAt_getElem]
  exact h k (by simpa using hk)

/-- Reading depends on the bytes in range alone. -/
theorem memRead_congr {rd rd' : Nat → Byte} {a : Nat} {w : Width}
    (h : ∀ k < w.bytes, rd (a + k) = rd' (a + k)) : memRead rd a w = memRead rd' a w := by
  rw [memRead, memRead, bytesAt_congr h]

/-- A read of bytes that hold a value's bytes in order gives the value back (20_memory.md R40). -/
theorem memRead_of_bytes {rd : Nat → Byte} {a : Nat} {w : Width} {v : BitVec w.bits}
    (h : ∀ k < w.bytes, rd (a + k) = v.extractLsb' (8 * k) 8) : memRead rd a w = v := by
  have hb : bytesAt rd a w.bytes = valueBytes v := by
    apply List.ext_getElem (by simp)
    intro k hk hk'
    rw [bytesAt_getElem, valueBytes_getElem]
    exact h k (by simpa using hk)
  rw [memRead, hb, valueBytes, leNat_leBytes, ← Width.two_pow_bits, Nat.mod_eq_of_lt v.isLt]
  simp

/-- Byte `k` of a value read at `a` is the byte at `a + k` (20_memory.md R40). -/
theorem memRead_byte (rd : Nat → Byte) (a : Nat) (w : Width) {k : Nat} (h : k < w.bytes) :
    (memRead rd a w).extractLsb' (8 * k) 8 = rd (a + k) := by
  have hl : leNat (bytesAt rd a w.bytes) < 2 ^ w.bits := by
    have := leNat_lt (bytesAt rd a w.bytes)
    rwa [bytesAt_length, ← Width.two_pow_bits] at this
  have hv : valueBytes (memRead rd a w) = bytesAt rd a w.bytes := by
    have hb := leBytes_leNat (bytesAt rd a w.bytes)
    rw [bytesAt_length] at hb
    rw [valueBytes, memRead, BitVec.toNat_ofNat, Nat.mod_eq_of_lt hl, hb]
  rw [← valueBytes_getElem (memRead rd a w) (by simpa using h)]
  simp only [hv, bytesAt_getElem]

end Sys2Proof.Machine
end

