-- ==== Sys2Proof/Laws/State.lean ====
section
/-! SUPPORT. One lemma per field per named update of the state, so that no proof unfolds an update. -/

namespace Sys2Proof.Machine

/-! ## takeError -/

@[simp] theorem takeError_stack (k : ErrorKind) (s : State) : (takeError k s).stack = s.stack := rfl
@[simp] theorem takeError_sp (k : ErrorKind) (s : State) : (takeError k s).sp = s.sp := rfl
@[simp] theorem takeError_regs (k : ErrorKind) (s : State) : (takeError k s).regs = s.regs := rfl
@[simp] theorem takeError_heap (k : ErrorKind) (s : State) : (takeError k s).heap = s.heap := rfl
@[simp] theorem takeError_hnext (k : ErrorKind) (s : State) : (takeError k s).hnext = s.hnext := rfl
@[simp] theorem takeError_callStack (k : ErrorKind) (s : State) : (takeError k s).callStack = s.callStack := rfl
@[simp] theorem takeError_csp (k : ErrorKind) (s : State) : (takeError k s).csp = s.csp := rfl
@[simp] theorem takeError_ip (k : ErrorKind) (s : State) : (takeError k s).ip = s.ip := rfl
@[simp] theorem takeError_status (k : ErrorKind) (s : State) : (takeError k s).status = .haltedError k := rfl
@[simp] theorem takeError_program (k : ErrorKind) (s : State) : (takeError k s).program = s.program := rfl
@[simp] theorem takeError_stackMax (k : ErrorKind) (s : State) : (takeError k s).stackMax = s.stackMax := rfl
@[simp] theorem takeError_callMax (k : ErrorKind) (s : State) : (takeError k s).callMax = s.callMax := rfl
@[simp] theorem takeError_heapLimit (k : ErrorKind) (s : State) : (takeError k s).heapLimit = s.heapLimit := rfl
@[simp] theorem takeError_alloc (k : ErrorKind) (s : State) : (takeError k s).alloc = s.alloc := rfl
@[simp] theorem takeError_draws (k : ErrorKind) (s : State) : (takeError k s).draws = s.draws := rfl

/-! ## afterPush -/

@[simp] theorem afterPush_stack {w : Width} (v : BitVec w.bits) (s : State) : (afterPush v s).stack = Memory.write s.stack s.sp.toNat (valueBytes v) := rfl
@[simp] theorem afterPush_sp {w : Width} (v : BitVec w.bits) (s : State) : (afterPush v s).sp = s.sp + BitVec.ofNat 64 w.bytes := rfl
@[simp] theorem afterPush_regs {w : Width} (v : BitVec w.bits) (s : State) : (afterPush v s).regs = s.regs := rfl
@[simp] theorem afterPush_heap {w : Width} (v : BitVec w.bits) (s : State) : (afterPush v s).heap = s.heap := rfl
@[simp] theorem afterPush_hnext {w : Width} (v : BitVec w.bits) (s : State) : (afterPush v s).hnext = s.hnext := rfl
@[simp] theorem afterPush_callStack {w : Width} (v : BitVec w.bits) (s : State) : (afterPush v s).callStack = s.callStack := rfl
@[simp] theorem afterPush_csp {w : Width} (v : BitVec w.bits) (s : State) : (afterPush v s).csp = s.csp := rfl
@[simp] theorem afterPush_ip {w : Width} (v : BitVec w.bits) (s : State) : (afterPush v s).ip = s.ip := rfl
@[simp] theorem afterPush_status {w : Width} (v : BitVec w.bits) (s : State) : (afterPush v s).status = s.status := rfl
@[simp] theorem afterPush_program {w : Width} (v : BitVec w.bits) (s : State) : (afterPush v s).program = s.program := rfl
@[simp] theorem afterPush_stackMax {w : Width} (v : BitVec w.bits) (s : State) : (afterPush v s).stackMax = s.stackMax := rfl
@[simp] theorem afterPush_callMax {w : Width} (v : BitVec w.bits) (s : State) : (afterPush v s).callMax = s.callMax := rfl
@[simp] theorem afterPush_heapLimit {w : Width} (v : BitVec w.bits) (s : State) : (afterPush v s).heapLimit = s.heapLimit := rfl
@[simp] theorem afterPush_alloc {w : Width} (v : BitVec w.bits) (s : State) : (afterPush v s).alloc = s.alloc := rfl
@[simp] theorem afterPush_draws {w : Width} (v : BitVec w.bits) (s : State) : (afterPush v s).draws = s.draws := rfl

/-! ## afterPop -/

@[simp] theorem afterPop_stack (w : Width) (s : State) : (afterPop w s).stack = s.stack := rfl
@[simp] theorem afterPop_sp (w : Width) (s : State) : (afterPop w s).sp = s.sp - BitVec.ofNat 64 w.bytes := rfl
@[simp] theorem afterPop_regs (w : Width) (s : State) : (afterPop w s).regs = s.regs := rfl
@[simp] theorem afterPop_heap (w : Width) (s : State) : (afterPop w s).heap = s.heap := rfl
@[simp] theorem afterPop_hnext (w : Width) (s : State) : (afterPop w s).hnext = s.hnext := rfl
@[simp] theorem afterPop_callStack (w : Width) (s : State) : (afterPop w s).callStack = s.callStack := rfl
@[simp] theorem afterPop_csp (w : Width) (s : State) : (afterPop w s).csp = s.csp := rfl
@[simp] theorem afterPop_ip (w : Width) (s : State) : (afterPop w s).ip = s.ip := rfl
@[simp] theorem afterPop_status (w : Width) (s : State) : (afterPop w s).status = s.status := rfl
@[simp] theorem afterPop_program (w : Width) (s : State) : (afterPop w s).program = s.program := rfl
@[simp] theorem afterPop_stackMax (w : Width) (s : State) : (afterPop w s).stackMax = s.stackMax := rfl
@[simp] theorem afterPop_callMax (w : Width) (s : State) : (afterPop w s).callMax = s.callMax := rfl
@[simp] theorem afterPop_heapLimit (w : Width) (s : State) : (afterPop w s).heapLimit = s.heapLimit := rfl
@[simp] theorem afterPop_alloc (w : Width) (s : State) : (afterPop w s).alloc = s.alloc := rfl
@[simp] theorem afterPop_draws (w : Width) (s : State) : (afterPop w s).draws = s.draws := rfl

/-! ## regWrite -/

@[simp] theorem regWrite_stack {w : Width} (r : Byte) (v : BitVec w.bits) (s : State) : (regWrite r v s).stack = s.stack := rfl
@[simp] theorem regWrite_sp {w : Width} (r : Byte) (v : BitVec w.bits) (s : State) : (regWrite r v s).sp = s.sp := rfl
@[simp] theorem regWrite_regs {w : Width} (r : Byte) (v : BitVec w.bits) (s : State) : (regWrite r v s).regs = s.regs.set (registerNumber r) (replaceLow (regCell s (registerNumber r)) v) := rfl
@[simp] theorem regWrite_heap {w : Width} (r : Byte) (v : BitVec w.bits) (s : State) : (regWrite r v s).heap = s.heap := rfl
@[simp] theorem regWrite_hnext {w : Width} (r : Byte) (v : BitVec w.bits) (s : State) : (regWrite r v s).hnext = s.hnext := rfl
@[simp] theorem regWrite_callStack {w : Width} (r : Byte) (v : BitVec w.bits) (s : State) : (regWrite r v s).callStack = s.callStack := rfl
@[simp] theorem regWrite_csp {w : Width} (r : Byte) (v : BitVec w.bits) (s : State) : (regWrite r v s).csp = s.csp := rfl
@[simp] theorem regWrite_ip {w : Width} (r : Byte) (v : BitVec w.bits) (s : State) : (regWrite r v s).ip = s.ip := rfl
@[simp] theorem regWrite_status {w : Width} (r : Byte) (v : BitVec w.bits) (s : State) : (regWrite r v s).status = s.status := rfl
@[simp] theorem regWrite_program {w : Width} (r : Byte) (v : BitVec w.bits) (s : State) : (regWrite r v s).program = s.program := rfl
@[simp] theorem regWrite_stackMax {w : Width} (r : Byte) (v : BitVec w.bits) (s : State) : (regWrite r v s).stackMax = s.stackMax := rfl
@[simp] theorem regWrite_callMax {w : Width} (r : Byte) (v : BitVec w.bits) (s : State) : (regWrite r v s).callMax = s.callMax := rfl
@[simp] theorem regWrite_heapLimit {w : Width} (r : Byte) (v : BitVec w.bits) (s : State) : (regWrite r v s).heapLimit = s.heapLimit := rfl
@[simp] theorem regWrite_alloc {w : Width} (r : Byte) (v : BitVec w.bits) (s : State) : (regWrite r v s).alloc = s.alloc := rfl
@[simp] theorem regWrite_draws {w : Width} (r : Byte) (v : BitVec w.bits) (s : State) : (regWrite r v s).draws = s.draws := rfl

/-! ## withFetchWord -/

@[simp] theorem withFetchWord_stack (s : State) (nbits x : Nat) : (s.withFetchWord nbits x).stack = s.stack := rfl
@[simp] theorem withFetchWord_sp (s : State) (nbits x : Nat) : (s.withFetchWord nbits x).sp = s.sp := rfl
@[simp] theorem withFetchWord_regs (s : State) (nbits x : Nat) : (s.withFetchWord nbits x).regs = s.regs := rfl
@[simp] theorem withFetchWord_heap (s : State) (nbits x : Nat) : (s.withFetchWord nbits x).heap = s.heap := rfl
@[simp] theorem withFetchWord_hnext (s : State) (nbits x : Nat) : (s.withFetchWord nbits x).hnext = s.hnext := rfl
@[simp] theorem withFetchWord_callStack (s : State) (nbits x : Nat) : (s.withFetchWord nbits x).callStack = s.callStack := rfl
@[simp] theorem withFetchWord_csp (s : State) (nbits x : Nat) : (s.withFetchWord nbits x).csp = s.csp := rfl
@[simp] theorem withFetchWord_ip (s : State) (nbits x : Nat) : (s.withFetchWord nbits x).ip = s.ip := rfl
@[simp] theorem withFetchWord_status (s : State) (nbits x : Nat) : (s.withFetchWord nbits x).status = .running := rfl
@[simp] theorem withFetchWord_program (s : State) (nbits x : Nat) : (s.withFetchWord nbits x).program = placeRecord s.program s.ip.toNat (tableRecord nbits x) := rfl
@[simp] theorem withFetchWord_stackMax (s : State) (nbits x : Nat) : (s.withFetchWord nbits x).stackMax = s.stackMax := rfl
@[simp] theorem withFetchWord_callMax (s : State) (nbits x : Nat) : (s.withFetchWord nbits x).callMax = s.callMax := rfl
@[simp] theorem withFetchWord_heapLimit (s : State) (nbits x : Nat) : (s.withFetchWord nbits x).heapLimit = s.heapLimit := rfl
@[simp] theorem withFetchWord_alloc (s : State) (nbits x : Nat) : (s.withFetchWord nbits x).alloc = s.alloc := rfl
@[simp] theorem withFetchWord_draws (s : State) (nbits x : Nat) : (s.withFetchWord nbits x).draws = s.draws := rfl

end Sys2Proof.Machine
end

