-- ==== Sys2Proof/Laws/Ops.lean ====
section
/-! SUPPORT. One lemma per shared operation that says once everything it can do, and the way a property is
carried through a sequence of primitives. -/

namespace Sys2Proof.Machine

/-! ## Sequences -/

@[simp] theorem Result.bind_ok {α β : Type} (a : α) (s : State) (f : α → State → Result β) :
    (Result.ok a s).bind f = f a s := rfl

@[simp] theorem Result.bind_raised {α β : Type} (k : ErrorKind) (s : State) (f : α → State → Result β) :
    (Result.raised k s : Result α).bind f = .raised k s := rfl

@[simp] theorem Result.outcome_ok (a : Unit) (s : State) : (Result.ok a s).outcome = .next s := rfl

@[simp] theorem Result.outcome_raised (k : ErrorKind) (s : State) :
    (Result.raised k s : Result Unit).outcome = .next (takeError k s) := rfl

/-- Whatever a primitive answers, the state it leaves has `P`. -/
def Result.Keeps {α : Type} (P : State → Prop) : Result α → Prop
  | .ok _ s => P s
  | .raised _ s => P s

theorem Result.Keeps.bind {α β : Type} {P : State → Prop} {r : Result α} {f : α → State → Result β}
    (hr : r.Keeps P) (hf : ∀ a s, r = .ok a s → P s → (f a s).Keeps P) : (r.bind f).Keeps P := by
  cases r with
  | ok a s => exact hf a s rfl hr
  | raised k s => exact hr

theorem Result.Keeps.outcome {P : State → Prop} {r : Result Unit} (hr : r.Keeps P)
    (he : ∀ k s, P s → P (takeError k s)) {t : State} (h : r.outcome = .next t) : P t := by
  cases r with
  | ok a s => cases h; exact hr
  | raised k s => cases h; exact he k s hr

/-- A sequence that completes: its primitives completed one after the other. -/
theorem Result.bind_eq_ok {α β : Type} {r : Result α} {f : α → State → Result β} {b : β} {t : State} :
    r.bind f = .ok b t ↔ ∃ a s, r = .ok a s ∧ f a s = .ok b t := by
  cases r <;> simp [Result.bind]

/-- Every sequence ends in a next state. -/
theorem Result.outcome_next (r : Result Unit) : ∃ t, r.outcome = .next t := by
  cases r
  · exact ⟨_, rfl⟩
  · exact ⟨_, rfl⟩

/-! ## The operand stack -/

/-- All that `push` can do (20_memory.md R41). -/
theorem push_cases {w : Width} (v : BitVec w.bits) (s : State) :
    (s.stackMax.toNat < s.sp.toNat + w.bytes ∧ push v s = .raised .stackOverflow s) ∨
      (s.sp.toNat + w.bytes ≤ s.stackMax.toNat ∧ push v s = .ok () (afterPush v s)) := by
  unfold push
  split
  · exact .inl ⟨‹_›, rfl⟩
  · exact .inr ⟨by omega, rfl⟩

theorem push_ok {w : Width} (v : BitVec w.bits) {s : State}
    (h : s.sp.toNat + w.bytes ≤ s.stackMax.toNat) : push v s = .ok () (afterPush v s) :=
  if_neg (by omega)

theorem push_overflow {w : Width} (v : BitVec w.bits) {s : State}
    (h : s.stackMax.toNat < s.sp.toNat + w.bytes) : push v s = .raised .stackOverflow s :=
  if_pos h

/-- The cursor of a full or fuller stack still fits its register. -/
theorem afterPush_sp_toNat {w : Width} (v : BitVec w.bits) {s : State}
    (h : s.sp.toNat + w.bytes ≤ s.stackMax.toNat) : (afterPush v s).sp.toNat = s.sp.toNat + w.bytes := by
  have := s.stackMax.isLt
  have hw : w.bytes < 2 ^ 64 := by cases w <;> decide
  rw [afterPush_sp, BitVec.toNat_add, BitVec.toNat_ofNat, Nat.mod_eq_of_lt hw, Nat.mod_eq_of_lt (by omega)]

theorem afterPop_sp_toNat {w : Width} {s : State} (h : w.bytes ≤ s.sp.toNat) :
    (afterPop w s).sp.toNat = s.sp.toNat - w.bytes := by
  have hw : w.bytes < 2 ^ 64 := by cases w <;> decide
  have := s.sp.isLt
  rw [afterPop_sp, BitVec.toNat_sub, BitVec.toNat_ofNat, Nat.mod_eq_of_lt hw,
    show 2 ^ 64 - w.bytes + s.sp.toNat = s.sp.toNat - w.bytes + 2 ^ 64 by omega,
    Nat.add_mod_right, Nat.mod_eq_of_lt (by omega)]

/-- A pop leaves every byte of S as it was (20_memory.md R45). -/
@[simp] theorem stackByte_afterPop (w : Width) (s : State) (a : Nat) :
    stackByte (afterPop w s) a = stackByte s a := rfl

@[simp] theorem stackValue_afterPop (w u : Width) (s : State) (a : Nat) :
    stackValue (afterPop w s) a u = stackValue s a u := rfl

theorem stackByte_afterPush_inside {w : Width} (v : BitVec w.bits) (s : State) {k : Nat} (h : k < w.bytes) :
    stackByte (afterPush v s) (s.sp.toNat + k) = v.extractLsb' (8 * k) 8 := by
  have hk : k < (valueBytes v).length := by simpa using h
  rw [stackByte, afterPush_stack, Memory.get_write_inside _ _ _ hk, Option.getD_some, valueBytes_getElem]

theorem stackByte_afterPush_outside {w : Width} (v : BitVec w.bits) (s : State) {a : Nat}
    (h : a < s.sp.toNat ∨ s.sp.toNat + w.bytes ≤ a) : stackByte (afterPush v s) a = stackByte s a := by
  rw [stackByte, afterPush_stack, Memory.get_write_outside _ _ _ (by simpa using h), stackByte]

/-- All that `pop` can do (20_memory.md R42). -/
theorem pop_cases (w : Width) (s : State) :
    (s.sp.toNat < w.bytes ∧ pop w s = .raised .stackUnderflow s) ∨
      (w.bytes ≤ s.sp.toNat ∧ pop w s = .ok (topValue w s) (afterPop w s)) := by
  unfold pop
  split
  · exact .inl ⟨‹_›, rfl⟩
  · exact .inr ⟨by omega, rfl⟩

theorem pop_ok {w : Width} {s : State} (h : w.bytes ≤ s.sp.toNat) :
    pop w s = .ok (topValue w s) (afterPop w s) :=
  if_neg (by omega)

theorem pop_underflow {w : Width} {s : State} (h : s.sp.toNat < w.bytes) :
    pop w s = .raised .stackUnderflow s :=
  if_pos h

/-- All that `peek` can do (20_memory.md R43). -/
theorem peek_cases (w : Width) (s : State) :
    (s.sp.toNat < w.bytes ∧ peek w s = .raised .stackUnderflow s) ∨
      (w.bytes ≤ s.sp.toNat ∧ peek w s = .ok (topValue w s) s) := by
  unfold peek
  split
  · exact .inl ⟨‹_›, rfl⟩
  · exact .inr ⟨by omega, rfl⟩

theorem peek_ok {w : Width} {s : State} (h : w.bytes ≤ s.sp.toNat) : peek w s = .ok (topValue w s) s :=
  if_neg (by omega)

theorem peek_underflow {w : Width} {s : State} (h : s.sp.toNat < w.bytes) :
    peek w s = .raised .stackUnderflow s :=
  if_pos h

/-! ## The register file -/

/-- All that `regCheck` can do (20_memory.md R46). -/
theorem regCheck_cases (r : Byte) (w : Width) (s : State) :
    (s.regs.length ≤ r.toNat ∧ regCheck r w s = .raised (invalidRegister w) s) ∨
      (r.toNat < s.regs.length ∧ regCheck r w s = .ok () s) := by
  unfold regCheck registerNumber
  split
  · exact .inl ⟨‹_›, rfl⟩
  · exact .inr ⟨by omega, rfl⟩

theorem regCheck_ok {r : Byte} (w : Width) {s : State} (h : r.toNat < s.regs.length) :
    regCheck r w s = .ok () s :=
  if_neg (Nat.not_le.mpr h)

theorem regCheck_invalid {r : Byte} (w : Width) {s : State} (h : s.regs.length ≤ r.toNat) :
    regCheck r w s = .raised (invalidRegister w) s :=
  if_pos h

/-- A narrow write keeps the cell's other bits and sets the low ones (20_memory.md R48). -/
theorem replaceLow_toNat {w : Width} (cell : Word) (v : BitVec w.bits) :
    (replaceLow cell v).toNat = cell.toNat / 2 ^ w.bits * 2 ^ w.bits + v.toNat := by
  have hc := cell.isLt
  have hv := v.isLt
  rw [replaceLow, BitVec.toNat_ofNat, Nat.mod_eq_of_lt]
  cases w <;> simp only [Width.bits] at * <;> omega

/-! ## The heap -/

/-- All that `lookup` can do (20_memory.md R49). -/
theorem lookup_cases (h : Word) (s : State) :
    (blockOf s h = none ∧ lookup h s = .raised .invalidPageAddress s) ∨
      (∃ b, blockOf s h = some b ∧ lookup h s = .ok b s) := by
  unfold lookup
  split
  · exact .inl ⟨‹_›, rfl⟩
  · exact .inr ⟨_, ‹_›, rfl⟩

theorem lookup_live {h : Word} {s : State} {b : Block} (hb : blockOf s h = some b) : lookup h s = .ok b s := by
  rw [lookup, hb]

theorem lookup_miss {h : Word} {s : State} (hb : blockOf s h = none) :
    lookup h s = .raised .invalidPageAddress s := by
  rw [lookup, hb]

/-- All that `allocHandle` can do (20_memory.md R50). -/
theorem allocHandle_cases (s : State) :
    allocHandle s = none ∨
      (s.alloc = .seq ∧ s.hnext.toNat ≠ 2 ^ 64 - 1 ∧
        allocHandle s = some (s.hnext, { s with hnext := s.hnext + 1 })) ∨
      (∃ h, s.alloc = .other ∧ blockOf s h = none ∧ allocHandle s = some (h, s)) := by
  unfold allocHandle
  split
  · split
    · exact .inl rfl
    · exact .inr (.inl ⟨‹_›, ‹_›, rfl⟩)
  · split
    · exact .inl rfl
    · split
      · exact .inl rfl
      · exact .inr (.inr ⟨_, ‹_›, Option.not_isSome_iff_eq_none.mp ‹_›, rfl⟩)

/-- All that `heapAlloc` can do (20_memory.md R50, R56). -/
theorem heapAlloc_cases (n : Nat) (s : State) :
    heapAlloc n s = .raised .outOfMemory s ∨
      (∃ h s', n < 2 ^ 64 ∧ exceedsLimit n s = false ∧ allocHandle s = some (h, s') ∧
        heapAlloc n s =
          .ok h { s' with heap := Sparse.set s.heap h.toNat (newBlock n s), draws := s.draws + 1 }) := by
  unfold heapAlloc
  split
  · exact .inl rfl
  · split
    · exact .inl rfl
    · split
      · exact .inl rfl
      · exact .inr ⟨_, _, by omega, Bool.eq_false_iff.mpr ‹_›, ‹_›, rfl⟩

/-- All that `heapRead` can do (20_memory.md R51). -/
theorem heapRead_cases (h : Word) (off : Nat) (w : Width) (s : State) :
    (blockOf s h = none ∧ heapRead h off w s = .raised .invalidPageAddress s) ∨
      (∃ b, blockOf s h = some b ∧ b.size.toNat < off + w.bytes ∧
        heapRead h off w s = .raised .outOfBounds s) ∨
      (∃ b, blockOf s h = some b ∧ off + w.bytes ≤ b.size.toNat ∧
        heapRead h off w s = .ok (blockValue b off w) s) := by
  unfold heapRead
  rcases lookup_cases h s with ⟨hb, hl⟩ | ⟨b, hb, hl⟩
  · exact .inl ⟨hb, by rw [hl]; rfl⟩
  · simp only [hl, Result.bind_ok]
    split
    · exact .inr (.inl ⟨b, hb, ‹_›, rfl⟩)
    · exact .inr (.inr ⟨b, hb, by omega, rfl⟩)

/-- All that `heapWrite` can do (20_memory.md R52). -/
theorem heapWrite_cases {w : Width} (h : Word) (off : Nat) (v : BitVec w.bits) (s : State) :
    (blockOf s h = none ∧ heapWrite h off v s = .raised .invalidPageAddress s) ∨
      (∃ b, blockOf s h = some b ∧ b.size.toNat < off + w.bytes ∧
        heapWrite h off v s = .raised .outOfBounds s) ∨
      (∃ b, blockOf s h = some b ∧ off + w.bytes ≤ b.size.toNat ∧
        heapWrite h off v s = .ok () { s with heap := Sparse.set s.heap h.toNat (b.store off v) }) := by
  unfold heapWrite
  rcases lookup_cases h s with ⟨hb, hl⟩ | ⟨b, hb, hl⟩
  · exact .inl ⟨hb, by rw [hl]; rfl⟩
  · simp only [hl, Result.bind_ok]
    split
    · exact .inr (.inl ⟨b, hb, ‹_›, rfl⟩)
    · exact .inr (.inr ⟨b, hb, by omega, rfl⟩)

/-- All that `heapDelete` can do (20_memory.md R53). -/
theorem heapDelete_cases (h : Word) (s : State) :
    (blockOf s h = none ∧ heapDelete h s = .raised .invalidPageAddress s) ∨
      (∃ b, blockOf s h = some b ∧
        heapDelete h s = .ok () { s with heap := Sparse.erase s.heap h.toNat }) := by
  unfold heapDelete
  rcases lookup_cases h s with ⟨hb, hl⟩ | ⟨b, hb, hl⟩
  · exact .inl ⟨hb, by rw [hl]; rfl⟩
  · exact .inr ⟨b, hb, by rw [hl]; rfl⟩

/-- All that `heapSize` can do (20_memory.md R54). -/
theorem heapSize_cases (h : Word) (s : State) :
    (blockOf s h = none ∧ heapSize h s = .raised .invalidPageAddress s) ∨
      (∃ b, blockOf s h = some b ∧ heapSize h s = .ok b.size s) := by
  unfold heapSize
  rcases lookup_cases h s with ⟨hb, hl⟩ | ⟨b, hb, hl⟩
  · exact .inl ⟨hb, by rw [hl]; rfl⟩
  · exact .inr ⟨b, hb, by rw [hl]; rfl⟩

theorem heapRead_miss {h : Word} {s : State} (off : Nat) (w : Width) (hb : blockOf s h = none) :
    heapRead h off w s = .raised .invalidPageAddress s := by
  rw [heapRead, lookup_miss hb]; rfl

theorem heapRead_bounds {h : Word} {s : State} {b : Block} {off : Nat} {w : Width} (hb : blockOf s h = some b)
    (ho : b.size.toNat < off + w.bytes) : heapRead h off w s = .raised .outOfBounds s := by
  rw [heapRead, lookup_live hb]; exact if_pos ho

theorem heapRead_ok {h : Word} {s : State} {b : Block} {off : Nat} {w : Width} (hb : blockOf s h = some b)
    (ho : off + w.bytes ≤ b.size.toNat) : heapRead h off w s = .ok (blockValue b off w) s := by
  rw [heapRead, lookup_live hb]; exact if_neg (Nat.not_lt.mpr ho)

theorem heapWrite_miss {w : Width} {h : Word} {s : State} (off : Nat) (v : BitVec w.bits) (hb : blockOf s h = none) :
    heapWrite h off v s = .raised .invalidPageAddress s := by
  rw [heapWrite, lookup_miss hb]; rfl

theorem heapWrite_bounds {w : Width} {h : Word} {s : State} {b : Block} {off : Nat} (v : BitVec w.bits)
    (hb : blockOf s h = some b) (ho : b.size.toNat < off + w.bytes) :
    heapWrite h off v s = .raised .outOfBounds s := by
  rw [heapWrite, lookup_live hb]; exact if_pos ho

theorem heapWrite_ok {w : Width} {h : Word} {s : State} {b : Block} {off : Nat} (v : BitVec w.bits)
    (hb : blockOf s h = some b) (ho : off + w.bytes ≤ b.size.toNat) :
    heapWrite h off v s = .ok () { s with heap := Sparse.set s.heap h.toNat (b.store off v) } := by
  rw [heapWrite, lookup_live hb]; exact if_neg (Nat.not_lt.mpr ho)

theorem heapDelete_miss {h : Word} {s : State} (hb : blockOf s h = none) :
    heapDelete h s = .raised .invalidPageAddress s := by
  rw [heapDelete, lookup_miss hb]; rfl

theorem heapDelete_live {h : Word} {s : State} {b : Block} (hb : blockOf s h = some b) :
    heapDelete h s = .ok () { s with heap := Sparse.erase s.heap h.toNat } := by
  rw [heapDelete, lookup_live hb]; rfl

theorem heapSize_miss {h : Word} {s : State} (hb : blockOf s h = none) :
    heapSize h s = .raised .invalidPageAddress s := by
  rw [heapSize, lookup_miss hb]; rfl

theorem heapSize_live {h : Word} {s : State} {b : Block} (hb : blockOf s h = some b) :
    heapSize h s = .ok b.size s := by
  rw [heapSize, lookup_live hb]; rfl

/-- The bytes a store puts into a block (20_memory.md R52). -/
theorem blockByte_store_inside {w : Width} (b : Block) (off : Nat) (v : BitVec w.bits) {k : Nat}
    (h : k < w.bytes) : blockByte (b.store off v) (off + k) = v.extractLsb' (8 * k) 8 := by
  have hk : k < (valueBytes v).length := by simpa using h
  rw [blockByte, Block.store, Memory.get_write_inside _ _ _ hk, Option.getD_some, valueBytes_getElem]

theorem blockByte_store_outside {w : Width} (b : Block) (off : Nat) (v : BitVec w.bits) {x : Nat}
    (h : x < off ∨ off + w.bytes ≤ x) : blockByte (b.store off v) x = blockByte b x := by
  simp only [blockByte, Block.store]
  rw [Memory.get_write_outside _ _ _ (by simpa using h)]

@[simp] theorem Block.store_size {w : Width} (b : Block) (off : Nat) (v : BitVec w.bits) :
    (b.store off v).size = b.size := rfl

@[simp] theorem Block.store_fill {w : Width} (b : Block) (off : Nat) (v : BitVec w.bits) :
    (b.store off v).fill = b.fill := rfl

/-! ## The call stack and the instruction pointer -/

/-- All that `callCheck` can do (20_memory.md R57). -/
theorem callCheck_cases (s : State) :
    (s.csp = s.callMax ∧ callCheck s = .raised .callStackOverflow s) ∨
      (s.csp ≠ s.callMax ∧ callCheck s = .ok () s) := by
  unfold callCheck
  split
  · exact .inl ⟨‹_›, rfl⟩
  · exact .inr ⟨‹_›, rfl⟩

/-- All that `csPush` can do (20_memory.md R57). -/
theorem csPush_cases (a : Word) (s : State) :
    (s.csp = s.callMax ∧ csPush a s = .raised .callStackOverflow s) ∨
      (s.csp ≠ s.callMax ∧ csPush a s =
        .ok () { s with callStack := Sparse.set s.callStack s.csp.toNat a, csp := s.csp + 1 }) := by
  unfold csPush
  rcases callCheck_cases s with ⟨h, hc⟩ | ⟨h, hc⟩
  · exact .inl ⟨h, by rw [hc]; rfl⟩
  · exact .inr ⟨h, by rw [hc]; rfl⟩

/-- All that `csPop` can do (20_memory.md R58). -/
theorem csPop_cases (s : State) :
    (s.csp = 0 ∧ csPop s = .raised .callStackUnderflow s) ∨
      (s.csp ≠ 0 ∧ csPop s = .ok (callEntry s (s.csp.toNat - 1)) { s with csp := s.csp - 1 }) := by
  unfold csPop
  split
  · exact .inl ⟨‹_›, rfl⟩
  · exact .inr ⟨‹_›, rfl⟩

/-- All that `targetCheck` can do (46_control.md R240). -/
theorem targetCheck_cases (t : Word) (s : State) :
    (s.program.length ≤ t.toNat ∧ targetCheck t s = .raised .invalidProgramAddress s) ∨
      (t.toNat < s.program.length ∧ targetCheck t s = .ok () s) := by
  unfold targetCheck targetIndex
  split
  · exact .inl ⟨‹_›, rfl⟩
  · exact .inr ⟨by omega, rfl⟩

theorem targetCheck_ok {t : Word} {s : State} (h : t.toNat < s.program.length) : targetCheck t s = .ok () s :=
  if_neg (Nat.not_le.mpr h)

theorem targetCheck_invalid {t : Word} {s : State} (h : s.program.length ≤ t.toNat) :
    targetCheck t s = .raised .invalidProgramAddress s :=
  if_pos h

theorem callCheck_ok {s : State} (h : s.csp ≠ s.callMax) : callCheck s = .ok () s :=
  if_neg h

theorem callCheck_full {s : State} (h : s.csp = s.callMax) : callCheck s = .raised .callStackOverflow s :=
  if_pos h

@[simp] theorem advance_eq (s : State) : advance s = .ok () { s with ip := s.ip + 1 } := rfl

@[simp] theorem setIp_eq (t : Word) (s : State) : setIp t s = .ok () { s with ip := t } := rfl

/-- All that `fetch` can do (20_memory.md R59). -/
theorem fetch_cases (s : State) :
    (s.program.length ≤ s.ip.toNat ∧ fetch s = .raised .endOfProgram s) ∨
      (∃ rec, s.program[s.ip.toNat]? = some rec ∧ fetch s = .ok rec s) := by
  unfold fetch
  split
  · exact .inl ⟨List.getElem?_eq_none_iff.mp ‹_›, rfl⟩
  · exact .inr ⟨_, ‹_›, rfl⟩

/-- All that `fetchDecode` can do (40_engine.md R102, R103). -/
theorem fetchDecode_cases (s : State) :
    (s.program.length ≤ s.ip.toNat ∧ fetchDecode s = .raised .endOfProgram s) ∨
      (∃ rec, s.program[s.ip.toNat]? = some rec ∧ decodeRecord rec = none ∧
        fetchDecode s = .raised .invalidOpcode s) ∨
      (∃ rec i, s.program[s.ip.toNat]? = some rec ∧ decodeRecord rec = some i ∧ fetchDecode s = .ok i s) := by
  unfold fetchDecode
  rcases fetch_cases s with ⟨h, hf⟩ | ⟨rec, h, hf⟩
  · exact .inl ⟨h, by rw [hf]; rfl⟩
  · simp only [hf, Result.bind_ok]
    split
    · exact .inr (.inl ⟨rec, h, ‹_›, rfl⟩)
    · exact .inr (.inr ⟨rec, _, h, ‹_›, rfl⟩)

/-- All that `step` can do (40_engine.md R101, R110). -/
theorem step_cases (s : State) :
    (s.status ≠ .running ∧ step s = .fault .halted) ∨
      (s.status = .running ∧ s.program.length ≤ s.ip.toNat ∧ step s = .next (takeError .endOfProgram s)) ∨
      (∃ rec, s.status = .running ∧ s.program[s.ip.toNat]? = some rec ∧ decodeRecord rec = none ∧
        step s = .next (takeError .invalidOpcode s)) ∨
      (∃ rec i, s.status = .running ∧ s.program[s.ip.toNat]? = some rec ∧ decodeRecord rec = some i ∧
        step s = exec i s) := by
  cases hs : s.status with
  | haltedOk => exact .inl ⟨by simp, by simp [step, hs]⟩
  | haltedError k => exact .inl ⟨by simp, by simp [step, hs]⟩
  | running =>
    rcases fetchDecode_cases s with ⟨h, hf⟩ | ⟨rec, h, hd, hf⟩ | ⟨rec, i, h, hd, hf⟩
    · exact .inr (.inl ⟨rfl, h, by simp [step, hs, hf]⟩)
    · exact .inr (.inr (.inl ⟨rec, rfl, h, hd, by simp [step, hs, hf]⟩))
    · exact .inr (.inr (.inr ⟨rec, i, rfl, h, hd, by simp [step, hs, hf]⟩))

end Sys2Proof.Machine
end

