-- ==== Sys2Proof/Laws/Sequences.lean ====
section
/-! SUPPORT. What the shared instruction sequences do when they complete and when they run out of operands, and how a
pushed value meets the vocabulary of the claims. -/

namespace Sys2Proof.Machine

/-- A push onto a state whose S is that of `s` leaves the value as `LeavesValue` says, once `ip` is advanced. -/
theorem leavesValue_of_push {w : Width} {s u : State} (v : BitVec w.bits) {base : Nat}
    (hu : u = { s with sp := u.sp }) (hb : u.sp.toNat = base) (hr : base + w.bytes ≤ s.stackMax.toNat) :
    push v u = .ok () (afterPush v u) ∧
      LeavesValue s { afterPush v u with ip := (afterPush v u).ip + 1 } base v := by
  have hm : u.stackMax = s.stackMax := by rw [hu]
  have hr' : u.sp.toNat + w.bytes ≤ u.stackMax.toNat := by rw [hm, hb]; exact hr
  subst hb
  refine ⟨push_ok v hr', ⟨?_, ?_, ?_⟩, ?_, ?_⟩
  · exact afterPush_sp_toNat v hr'
  · intro k hk
    exact stackByte_afterPush_inside v u hk
  · intro a ha
    have h1 : stackByte (afterPush v u) a = stackByte u a := stackByte_afterPush_outside v u ha
    have h2 : stackByte u a = stackByte s a := by rw [hu]; rfl
    exact h1.trans h2
  · show u.ip + 1 = s.ip + 1
    rw [hu]
  · rw [OnlyStackAndIp, hu]
    rfl

/-- The state after popping `n` bytes in one or more pops. -/
theorem afterPop_eq (w : Width) (s : State) : afterPop w s = { s with sp := (afterPop w s).sp } := rfl

theorem topValue_eq (w : Width) (s : State) : topValue w s = rightOperand w s := rfl

/-- The second pop of a two-operand instruction reads the left operand. -/
theorem topValue_afterPop {w : Width} {s : State} (h : 2 * w.bytes ≤ s.sp.toNat) :
    topValue w (afterPop w s) = leftOperand w s := by
  rw [topValue, stackValue_afterPop, afterPop_sp_toNat (by omega), leftOperand]
  congr 1
  omega

/-- `binaryOp` with both operands present and the result no wider than what they free. -/
theorem binaryOp_ok {u w : Width} (f : BitVec w.bits → BitVec w.bits → BitVec u.bits) {s : State}
    (h : 2 * w.bytes ≤ s.sp.toNat) (hm : s.sp.toNat ≤ s.stackMax.toNat) (hu : u.bytes ≤ 2 * w.bytes) :
    ∃ t, binaryOp w f s = .ok () t ∧
      LeavesValue s t (s.sp.toNat - 2 * w.bytes) (f (leftOperand w s) (rightOperand w s)) := by
  have h1 : w.bytes ≤ s.sp.toNat := by omega
  have h2 : w.bytes ≤ (afterPop w s).sp.toNat := by rw [afterPop_sp_toNat h1]; omega
  have hb : (afterPop w (afterPop w s)).sp.toNat = s.sp.toNat - 2 * w.bytes := by
    rw [afterPop_sp_toNat h2, afterPop_sp_toNat h1]; omega
  obtain ⟨hp, hl⟩ := leavesValue_of_push (s := s) (u := afterPop w (afterPop w s))
    (f (leftOperand w s) (rightOperand w s)) rfl hb (by omega)
  refine ⟨_, ?_, hl⟩
  simp only [binaryOp, pop_ok h1, pop_ok h2, Result.bind_ok, topValue_afterPop h, topValue_eq, hp, advance_eq]

theorem binaryOp_underflow_first {u w : Width} (f : BitVec w.bits → BitVec w.bits → BitVec u.bits) {s : State}
    (h : s.sp.toNat < w.bytes) : binaryOp w f s = .raised .stackUnderflow s := by
  simp only [binaryOp, pop_underflow h, Result.bind_raised]

theorem binaryOp_underflow_second {u w : Width} (f : BitVec w.bits → BitVec w.bits → BitVec u.bits) {s : State}
    (h : w.bytes ≤ s.sp.toNat) (h' : s.sp.toNat < 2 * w.bytes) :
    binaryOp w f s = .raised .stackUnderflow (afterPop w s) := by
  have h2 : (afterPop w s).sp.toNat < w.bytes := by rw [afterPop_sp_toNat h]; omega
  simp only [binaryOp, pop_ok h, Result.bind_ok, pop_underflow h2, Result.bind_raised]

/-- `unaryOp` with its operand present. -/
theorem unaryOp_ok {w : Width} (f : BitVec w.bits → BitVec w.bits) {s : State}
    (h : w.bytes ≤ s.sp.toNat) (hm : s.sp.toNat ≤ s.stackMax.toNat) :
    ∃ t, unaryOp w f s = .ok () t ∧
      LeavesValue s t (s.sp.toNat - w.bytes) (f (rightOperand w s)) := by
  obtain ⟨hp, hl⟩ := leavesValue_of_push (s := s) (u := afterPop w s)
    (f (rightOperand w s)) rfl (afterPop_sp_toNat h) (by omega)
  refine ⟨_, ?_, hl⟩
  simp only [unaryOp, pop_ok h, Result.bind_ok, topValue_eq, hp, advance_eq]

/-- Different words have different numbers: a handle compares all its bits (20_memory.md R49). -/
theorem word_toNat_ne {g h : Word} (e : g ≠ h) : g.toNat ≠ h.toNat :=
  fun c => e (BitVec.eq_of_toNat_eq c)

/-- A completed allocation: nothing refused it, and the state is the policy's with the new block. -/
theorem heapAlloc_ok_inv {n : Nat} {s t : State} {h : Word} (e : heapAlloc n s = .ok h t) :
    n < 2 ^ 64 ∧ exceedsLimit n s = false ∧ ∃ s', allocHandle s = some (h, s') ∧
      t = { s' with heap := Sparse.set s.heap h.toNat (newBlock n s), draws := s.draws + 1 } := by
  rcases heapAlloc_cases n s with e' | ⟨_, s', h1, h2, h3, e'⟩ <;> rw [e'] at e <;> cases e
  exact ⟨h1, h2, s', h3, rfl⟩

/-- A policy changes `hnext` at most. -/
theorem allocHandle_state {s s' : State} {h : Word} (e : allocHandle s = some (h, s')) :
    s' = { s with hnext := s'.hnext } := by
  rcases allocHandle_cases s with h1 | ⟨_, _, h1⟩ | ⟨_, _, _, h1⟩ <;> rw [h1] at e <;> cases e <;> rfl

/-- A policy looks at ALLOC, `hnext`, the heap and the draw counter alone. -/
theorem allocHandle_congr {s t : State} (ha : t.alloc = s.alloc) (hn : t.hnext = s.hnext) (hh : t.heap = s.heap)
    (hd : t.draws = s.draws) :
    allocHandle t = (allocHandle s).map fun p => (p.1, { t with hnext := p.2.hnext }) := by
  have hb : ∀ h, blockOf t h = blockOf s h := fun h => by rw [blockOf, blockOf, hh]
  have hl : liveHandles t = liveHandles s := by rw [liveHandles, liveHandles, hh]
  simp only [allocHandle, ha, hn, hd, hb, hl]
  cases hal : s.alloc with
  | seq => by_cases h : s.hnext.toNat = 2 ^ 64 - 1 <;> simp only [h, if_true, if_false] <;> rfl
  | other =>
    cases Config.allocOther s.draws (liveHandles s) with
    | none => rfl
    | some h =>
      cases t
      cases hq : (blockOf s h).isSome <;> simp_all

/-- A completed store. -/
theorem heapWrite_ok_inv {w : Width} {h : Word} {off : Nat} {v : BitVec w.bits} {s t : State}
    (e : heapWrite h off v s = .ok () t) :
    ∃ b, blockOf s h = some b ∧ off + w.bytes ≤ b.size.toNat ∧
      t = { s with heap := Sparse.set s.heap h.toNat (b.store off v) } := by
  rcases heapWrite_cases h off v s with ⟨_, e'⟩ | ⟨_, _, _, e'⟩ | ⟨b, h1, h2, e'⟩ <;> rw [e'] at e <;> cases e
  exact ⟨b, h1, h2, rfl⟩

/-- A completed deletion. -/
theorem heapDelete_ok_inv {h : Word} {s t : State} (e : heapDelete h s = .ok () t) :
    ∃ b, blockOf s h = some b ∧ t = { s with heap := Sparse.erase s.heap h.toNat } := by
  rcases heapDelete_cases h s with ⟨_, e'⟩ | ⟨b, h1, e'⟩ <;> rw [e'] at e <;> cases e
  exact ⟨b, h1, rfl⟩

/-- The pop of a handle beneath a value of width `w`, once the value is popped (45_heap.md R231). -/
theorem pop_handle_afterPop {w : Width} {s : State} (h : w.bytes + 8 ≤ s.sp.toNat) :
    pop .word (afterPop w s) =
      .ok (stackValue s (s.sp.toNat - (w.bytes + 8)) .word) { s with sp := s.sp - BitVec.ofNat 64 (w.bytes + 8) } := by
  have hs : (afterPop w s).sp.toNat = s.sp.toNat - w.bytes := afterPop_sp_toNat (by omega)
  have hw : Width.word.bytes ≤ (afterPop w s).sp.toNat := by rw [hs]; show 8 ≤ _; omega
  have hv : topValue .word (afterPop w s) = stackValue s (s.sp.toNat - (w.bytes + 8)) .word := by
    rw [topValue, stackValue_afterPop, hs, Nat.sub_sub]
  have hp : s.sp - BitVec.ofNat 64 w.bytes - BitVec.ofNat 64 8 = s.sp - BitVec.ofNat 64 (w.bytes + 8) := by
    rw [BitVec.sub_sub, BitVec.ofNat_add]
  rw [pop_ok hw, hv, ← hp]
  rfl

/-- A push onto `s` itself. -/
theorem push_leavesValue {w : Width} (v : BitVec w.bits) {s : State}
    (h : s.sp.toNat + w.bytes ≤ s.stackMax.toNat) :
    push v s = .ok () (afterPush v s) ∧
      LeavesValue s { afterPush v s with ip := (afterPush v s).ip + 1 } s.sp.toNat v :=
  leavesValue_of_push v rfl rfl h

end Sys2Proof.Machine
end

