-- ==== Sys2Proof/Laws/Exec.lean ====
section
/-! SUPPORT. How a property is carried through any instruction: it is enough to look at the primitives. -/

namespace Sys2Proof.Machine

/-- The value of a sequence satisfies `Q` where it completes, and `P` where it raises. -/
def Result.Ends {α : Type} (P Q : State → Prop) : Result α → Prop
  | .ok _ s => Q s
  | .raised _ s => P s

theorem Result.Ends.bind {α β : Type} {P Q : State → Prop} {r : Result α} {f : α → State → Result β}
    (hr : r.Keeps P) (hf : ∀ a s, r = .ok a s → P s → (f a s).Ends P Q) : (r.bind f).Ends P Q := by
  cases r with
  | ok a s => exact hf a s rfl hr
  | raised k s => exact hr

theorem Result.Ends.outcome {P Q : State → Prop} {r : Result Unit} (hr : r.Ends P Q)
    (he : ∀ k s, P s → Q (takeError k s)) {t : State} (h : r.outcome = .next t) : Q t := by
  cases r with
  | ok a s => cases h; exact hr
  | raised k s => cases h; exact he k s hr

/-- `P` holds while an instruction runs and `Q` when it has ended: what each data primitive must do for that. -/
structure CarriedData (P Q : State → Prop) : Prop where
  push : ∀ {w : Width} (v : BitVec w.bits) (s : State), P s → s.sp.toNat + w.bytes ≤ s.stackMax.toNat → P (afterPush v s)
  pop : ∀ (w : Width) (s : State), P s → w.bytes ≤ s.sp.toNat → P (afterPop w s)
  regWrite : ∀ {w : Width} (r : Byte) (v : BitVec w.bits) (s : State), P s → r.toNat < s.regs.length → P (regWrite r v s)
  heapAlloc : ∀ (n : Nat) (s t : State) (h : Word), P s → heapAlloc n s = .ok h t → P t
  heapWrite : ∀ {w : Width} (h : Word) (off : Nat) (v : BitVec w.bits) (s t : State), P s → heapWrite h off v s = .ok () t → P t
  heapDelete : ∀ (h : Word) (s t : State), P s → heapDelete h s = .ok () t → P t
  advance : ∀ s : State, P s → Q { s with ip := s.ip + 1 }

/-- The same for every state change an instruction can make, control transfers and errors included. -/
structure Carried (P Q : State → Prop) : Prop extends CarriedData P Q where
  call : ∀ (s : State) (t : Word), P s → s.csp ≠ s.callMax → t.toNat < s.program.length →
    Q { s with callStack := Sparse.set s.callStack s.csp.toNat (s.ip + 1), csp := s.csp + 1, ip := t }
  ret : ∀ s : State, P s → s.csp ≠ 0 → Q { s with csp := s.csp - 1, ip := callEntry s (s.csp.toNat - 1) }
  jump : ∀ (s : State) (t : Word), P s → t.toNat < s.program.length → Q { s with ip := t }
  halt : ∀ s : State, P s → Q { s with ip := s.ip + 1, status := .haltedOk }
  error : ∀ (k : ErrorKind) (s : State), P s → Q (takeError k s)

variable {P Q : State → Prop}

theorem CarriedData.push_keeps (c : CarriedData P Q) {w : Width} (v : BitVec w.bits) {s : State} (h : P s) :
    (Machine.push v s).Keeps P := by
  rcases push_cases v s with ⟨_, e⟩ | ⟨hr, e⟩
  · rw [e]; exact h
  · rw [e]; exact c.push v s h hr

theorem CarriedData.pop_keeps (c : CarriedData P Q) (w : Width) {s : State} (h : P s) : (Machine.pop w s).Keeps P := by
  rcases pop_cases w s with ⟨_, e⟩ | ⟨hr, e⟩
  · rw [e]; exact h
  · rw [e]; exact c.pop w s h hr

theorem CarriedData.push_then_advance (c : CarriedData P Q) {w : Width} (v : BitVec w.bits) {s : State} (h : P s) :
    ((Machine.push v s).bind fun _ s => Machine.advance s).Ends P Q :=
  Result.Ends.bind (c.push_keeps v h) fun _ t _ ht => c.advance t ht

theorem CarriedData.heapRead_keeps {w : Width} {h : Word} {off : Nat} {s : State} (hP : P s) :
    (Machine.heapRead h off w s).Keeps P := by
  rcases heapRead_cases h off w s with ⟨_, e⟩ | ⟨_, _, _, e⟩ | ⟨_, _, _, e⟩ <;> rw [e] <;> exact hP

theorem CarriedData.heapSize_keeps {h : Word} {s : State} (hP : P s) : (Machine.heapSize h s).Keeps P := by
  rcases heapSize_cases h s with ⟨_, e⟩ | ⟨_, _, e⟩ <;> rw [e] <;> exact hP

theorem CarriedData.heapAlloc_keeps (c : CarriedData P Q) (n : Nat) {s : State} (hP : P s) :
    (Machine.heapAlloc n s).Keeps P := by
  rcases heapAlloc_cases n s with e | ⟨h, _, _, _, _, e⟩
  · rw [e]; exact hP
  · have := c.heapAlloc n s _ h hP e
    rw [e]; exact this

theorem CarriedData.heapWrite_keeps (c : CarriedData P Q) {w : Width} (h : Word) (off : Nat) (v : BitVec w.bits) {s : State}
    (hP : P s) : (Machine.heapWrite h off v s).Keeps P := by
  rcases heapWrite_cases h off v s with ⟨_, e⟩ | ⟨_, _, _, e⟩ | ⟨_, _, _, e⟩
  · rw [e]; exact hP
  · rw [e]; exact hP
  · have := c.heapWrite h off v s _ hP e
    rw [e]; exact this

theorem CarriedData.heapDelete_keeps (c : CarriedData P Q) (h : Word) {s : State} (hP : P s) :
    (Machine.heapDelete h s).Keeps P := by
  rcases heapDelete_cases h s with ⟨_, e⟩ | ⟨_, _, e⟩
  · rw [e]; exact hP
  · have := c.heapDelete h s _ hP e
    rw [e]; exact this

/-! ## The shared sequences -/

theorem CarriedData.pushImmediate (c : CarriedData P Q) (w : Width) (imm : Word) {s : State} (h : P s) :
    (Machine.pushImmediate w imm s).Ends P Q :=
  c.push_then_advance _ h

theorem CarriedData.pushRegister (c : CarriedData P Q) (w : Width) (r : Byte) {s : State} (h : P s) :
    (Machine.pushRegister w r s).Ends P Q := by
  unfold Machine.pushRegister
  rcases regCheck_cases r w s with ⟨_, e⟩ | ⟨_, e⟩ <;> rw [e]
  · exact h
  · exact c.push_then_advance _ h

theorem CarriedData.popDiscard (c : CarriedData P Q) (w : Width) {s : State} (h : P s) : (Machine.popDiscard w s).Ends P Q :=
  Result.Ends.bind (c.pop_keeps w h) fun _ t _ ht => c.advance t ht

theorem CarriedData.moveToRegister (c : CarriedData P Q) (w : Width) (r : Byte) {s : State} (h : P s) :
    (Machine.moveToRegister w r s).Ends P Q := by
  unfold Machine.moveToRegister
  rcases regCheck_cases r w s with ⟨_, e⟩ | ⟨hr, e⟩ <;> rw [e]
  · exact h
  · rw [Result.bind_ok]
    refine Result.Ends.bind (c.pop_keeps w h) fun v t ht hP => c.advance _ (c.regWrite r v t hP ?_)
    rcases pop_cases w s with ⟨_, e'⟩ | ⟨_, e'⟩ <;> rw [e'] at ht <;> cases ht
    exact hr

theorem CarriedData.duplicate (c : CarriedData P Q) (w : Width) {s : State} (h : P s) : (Machine.duplicate w s).Ends P Q := by
  unfold Machine.duplicate
  rcases peek_cases w s with ⟨_, e⟩ | ⟨_, e⟩ <;> rw [e]
  · exact h
  · exact c.push_then_advance _ h

theorem CarriedData.binaryOp (c : CarriedData P Q) {u : Width} (w : Width) (f : BitVec w.bits → BitVec w.bits → BitVec u.bits)
    {s : State} (h : P s) : (Machine.binaryOp w f s).Ends P Q :=
  Result.Ends.bind (c.pop_keeps w h) fun _ _ _ h1 =>
    Result.Ends.bind (c.pop_keeps w h1) fun _ _ _ h2 => c.push_then_advance _ h2

theorem CarriedData.unaryOp (c : CarriedData P Q) (w : Width) (f : BitVec w.bits → BitVec w.bits)
    {s : State} (h : P s) : (Machine.unaryOp w f s).Ends P Q :=
  Result.Ends.bind (c.pop_keeps w h) fun _ _ _ h1 => c.push_then_advance _ h1

theorem CarriedData.allocate (c : CarriedData P Q) (w : Width) (n : Word) {s : State} (h : P s) :
    (Machine.allocate w n s).Ends P Q :=
  Result.Ends.bind (c.heapAlloc_keeps _ h) fun _ _ _ h1 => c.push_then_advance _ h1

theorem CarriedData.getElement (c : CarriedData P Q) (w : Width) (n : Word) {s : State} (h : P s) :
    (Machine.getElement w n s).Ends P Q :=
  Result.Ends.bind (c.pop_keeps .word h) fun _ _ _ h1 =>
    Result.Ends.bind (CarriedData.heapRead_keeps h1) fun _ _ _ h2 => c.push_then_advance _ h2

theorem CarriedData.setElement (c : CarriedData P Q) (w : Width) (n : Word) {s : State} (h : P s) :
    (Machine.setElement w n s).Ends P Q :=
  Result.Ends.bind (c.pop_keeps w h) fun v _ _ h1 =>
    Result.Ends.bind (c.pop_keeps .word h1) fun g _ _ h2 =>
      Result.Ends.bind (c.heapWrite_keeps g _ v h2) fun _ t _ h3 => c.advance t h3

theorem Carried.jumpTo (c : Carried P Q) (t : Word) {s : State} (h : P s) : (Machine.jumpTo t s).Ends P Q := by
  unfold Machine.jumpTo
  rcases targetCheck_cases t s with ⟨_, e⟩ | ⟨ht, e⟩ <;> rw [e]
  · exact h
  · exact c.jump s t h ht

theorem Carried.jumpIf (c : Carried P Q) (w : Width) (t : Word) {s : State} (h : P s) :
    (Machine.jumpIf w t s).Ends P Q := by
  refine Result.Ends.bind (c.pop_keeps w h) fun v u _ h1 => ?_
  show Result.Ends P Q (if v.toNat ≠ 0 then _ else _)
  split
  · exact c.jumpTo t h1
  · exact c.advance u h1

/-- Every instruction carries what its state changes carry. -/
theorem Carried.exec (c : Carried P Q) (i : Instr) {s t : State} (h : P s) (ht : Machine.exec i s = .next t) : Q t := by
  have out : ∀ {r : Result Unit}, r.Ends P Q → r.outcome = .next t → Q t := fun hr e => hr.outcome c.error e
  cases i with
  | pushByte imm => exact out (c.pushImmediate .byte imm h) ht
  | pushHword imm => exact out (c.pushImmediate .hword imm h) ht
  | pushWord imm => exact out (c.pushImmediate .word imm h) ht
  | pushRegByte r => exact out (c.pushRegister .byte r h) ht
  | pushRegHword r => exact out (c.pushRegister .hword r h) ht
  | pushRegWord r => exact out (c.pushRegister .word r h) ht
  | popByte => exact out (c.popDiscard .byte h) ht
  | popHword => exact out (c.popDiscard .hword h) ht
  | popWord => exact out (c.popDiscard .word h) ht
  | movByte r => exact out (c.moveToRegister .byte r h) ht
  | movHword r => exact out (c.moveToRegister .hword r h) ht
  | movWord r => exact out (c.moveToRegister .word r h) ht
  | dupByte => exact out (c.duplicate .byte h) ht
  | dupHword => exact out (c.duplicate .hword h) ht
  | dupWord => exact out (c.duplicate .word h) ht
  | plusByte => exact out (c.binaryOp .byte _ h) ht
  | plusHword => exact out (c.binaryOp .hword _ h) ht
  | plusWord => exact out (c.binaryOp .word _ h) ht
  | subByte => exact out (c.binaryOp .byte _ h) ht
  | subHword => exact out (c.binaryOp .hword _ h) ht
  | subWord => exact out (c.binaryOp .word _ h) ht
  | multByte => exact out (c.binaryOp .byte _ h) ht
  | multHword => exact out (c.binaryOp .hword _ h) ht
  | multWord => exact out (c.binaryOp .word _ h) ht
  | notByte => exact out (c.unaryOp .byte _ h) ht
  | notHword => exact out (c.unaryOp .hword _ h) ht
  | notWord => exact out (c.unaryOp .word _ h) ht
  | orByte => exact out (c.binaryOp .byte _ h) ht
  | orHword => exact out (c.binaryOp .hword _ h) ht
  | orWord => exact out (c.binaryOp .word _ h) ht
  | andByte => exact out (c.binaryOp .byte _ h) ht
  | andHword => exact out (c.binaryOp .hword _ h) ht
  | andWord => exact out (c.binaryOp .word _ h) ht
  | xorByte => exact out (c.binaryOp .byte _ h) ht
  | xorHword => exact out (c.binaryOp .hword _ h) ht
  | xorWord => exact out (c.binaryOp .word _ h) ht
  | eqByte => exact out (c.binaryOp .byte _ h) ht
  | eqHword => exact out (c.binaryOp .hword _ h) ht
  | eqWord => exact out (c.binaryOp .word _ h) ht
  | ltByte => exact out (c.binaryOp .byte _ h) ht
  | ltHword => exact out (c.binaryOp .hword _ h) ht
  | ltWord => exact out (c.binaryOp .word _ h) ht
  | lteByte => exact out (c.binaryOp .byte _ h) ht
  | lteHword => exact out (c.binaryOp .hword _ h) ht
  | lteWord => exact out (c.binaryOp .word _ h) ht
  | gtByte => exact out (c.binaryOp .byte _ h) ht
  | gtHword => exact out (c.binaryOp .hword _ h) ht
  | gtWord => exact out (c.binaryOp .word _ h) ht
  | gteByte => exact out (c.binaryOp .byte _ h) ht
  | gteHword => exact out (c.binaryOp .hword _ h) ht
  | gteWord => exact out (c.binaryOp .word _ h) ht
  | eqChar => exact out (c.binaryOp .byte _ h) ht
  | eqInt => exact out (c.binaryOp .hword _ h) ht
  | eqLong => exact out (c.binaryOp .word _ h) ht
  | ltChar => exact out (c.binaryOp .byte _ h) ht
  | ltInt => exact out (c.binaryOp .hword _ h) ht
  | ltLong => exact out (c.binaryOp .word _ h) ht
  | lteChar => exact out (c.binaryOp .byte _ h) ht
  | lteInt => exact out (c.binaryOp .hword _ h) ht
  | lteLong => exact out (c.binaryOp .word _ h) ht
  | gtChar => exact out (c.binaryOp .byte _ h) ht
  | gtInt => exact out (c.binaryOp .hword _ h) ht
  | gtLong => exact out (c.binaryOp .word _ h) ht
  | gteChar => exact out (c.binaryOp .byte _ h) ht
  | gteInt => exact out (c.binaryOp .hword _ h) ht
  | gteLong => exact out (c.binaryOp .word _ h) ht
  | mallocByte n => exact out (c.allocate .byte n h) ht
  | mallocHword n => exact out (c.allocate .hword n h) ht
  | mallocWord n => exact out (c.allocate .word n h) ht
  | mgetByte n => exact out (c.getElement .byte n h) ht
  | mgetHword n => exact out (c.getElement .hword n h) ht
  | mgetWord n => exact out (c.getElement .word n h) ht
  | msetByte n => exact out (c.setElement .byte n h) ht
  | msetHword n => exact out (c.setElement .hword n h) ht
  | msetWord n => exact out (c.setElement .word n h) ht
  | mdelete =>
    have hr : ((Machine.pop .word s).bind fun g s =>
        (Machine.heapDelete g s).bind fun _ s => Machine.advance s).Ends P Q :=
      Result.Ends.bind (c.pop_keeps .word h) fun g _ _ h1 =>
        Result.Ends.bind (c.heapDelete_keeps g h1) fun _ t _ h2 => c.advance t h2
    exact out hr ht
  | msize =>
    refine out (Result.Ends.bind (c.pop_keeps .word h) fun _ _ _ h1 =>
      Result.Ends.bind (CarriedData.heapSize_keeps h1) fun _ _ _ h2 => c.push_then_advance _ h2) ht
  | jumpAbs a => exact out (c.jumpTo a h) ht
  | jumpIfByte a => exact out (c.jumpIf .byte a h) ht
  | jumpIfHword a => exact out (c.jumpIf .hword a h) ht
  | jumpIfWord a => exact out (c.jumpIf .word a h) ht
  | call a =>
    by_cases h1 : s.csp = s.callMax
    · rw [Machine.exec, execCall, callCheck_full h1] at ht
      cases ht; exact c.error _ s h
    · rcases targetCheck_cases a s with ⟨_, e⟩ | ⟨h2, e⟩
      · rw [Machine.exec, execCall, callCheck_ok h1, Result.bind_ok, e] at ht
        cases ht; exact c.error _ s h
      · rw [Machine.exec, execCall, callCheck_ok h1, Result.bind_ok, e, Result.bind_ok, csPush, callCheck_ok h1] at ht
        cases ht; exact c.call s a h h1 h2
  | ret =>
    rcases csPop_cases s with ⟨_, e⟩ | ⟨h1, e⟩
    · rw [Machine.exec, execRet, e] at ht
      cases ht; exact c.error _ s h
    · rw [Machine.exec, execRet, e] at ht
      cases ht; exact c.ret s h h1
  | halt => cases ht; exact c.halt s h

end Sys2Proof.Machine
end

