-- ==== Sys2Proof/Laws/PerInstr.lean ====
section
/-! SUPPORT. The family of statements made per instruction: the encoder's opcode map and the decoder's bit
fields agree. -/

namespace Sys2Proof.Laws

/-- What the encoder writes for `i`, the decoder reads as `i`: the opcode is valid, its payload length is the one
written, its operation and width with the fields written are `i`, and the operand of a well-formed `i` fits the
payload (30_encoding.md R72, R80, R82). -/
def WireAgrees.Statement (i : Instr) : Prop :=
  (∃ d, decodeOpcode (wireFields i).opcode = some d ∧ d.paylen = (wireFields i).paylen ∧
      instrOf d.op d.width (wireFields i).registerIndex (wireFields i).operand = some i) ∧
    (i.wf = true → (wireFields i).operand.toNat < 256 ^ (wireFields i).paylen)

/-- An operand of eight bytes always fits. -/
theorem operand_fits_word (x : Word) : x.toNat < 256 ^ 8 :=
  x.isLt

/-- The statement from the decoder's answer `d` on the opcode byte `o`. -/
theorem WireAgrees.intro {i : Instr} (d : Decoded) (o : Byte) (ho : (wireFields i).opcode = o)
    (hd : decodeOpcode o = some d) (hp : d.paylen = (wireFields i).paylen)
    (hi : instrOf d.op d.width (wireFields i).registerIndex (wireFields i).operand = some i)
    (hw : i.wf = true → (wireFields i).operand.toNat < 256 ^ (wireFields i).paylen) :
    WireAgrees.Statement i :=
  ⟨⟨d, ho ▸ hd, hp, hi⟩, hw⟩

theorem WireAgrees.pushByte (imm : Word) : WireAgrees.Statement (.pushByte imm) :=
  WireAgrees.intro ⟨.push, .push, some .byte, false, 1, false⟩ 0x11 rfl (by decide) rfl rfl (fun h => of_decide_eq_true h)

theorem WireAgrees.pushHword (imm : Word) : WireAgrees.Statement (.pushHword imm) :=
  WireAgrees.intro ⟨.push, .push, some .hword, false, 4, false⟩ 0x12 rfl (by decide) rfl rfl (fun h => of_decide_eq_true h)

theorem WireAgrees.pushWord (imm : Word) : WireAgrees.Statement (.pushWord imm) :=
  WireAgrees.intro ⟨.push, .push, some .word, false, 8, false⟩ 0x13 rfl (by decide) rfl rfl (fun _ => operand_fits_word _)

theorem WireAgrees.pushRegByte (r : Byte) : WireAgrees.Statement (.pushRegByte r) :=
  WireAgrees.intro ⟨.pushReg, .pushReg, some .byte, false, 0, true⟩ 0x21 rfl (by decide) rfl rfl (fun _ => Nat.zero_lt_one)

theorem WireAgrees.pushRegHword (r : Byte) : WireAgrees.Statement (.pushRegHword r) :=
  WireAgrees.intro ⟨.pushReg, .pushReg, some .hword, false, 0, true⟩ 0x22 rfl (by decide) rfl rfl (fun _ => Nat.zero_lt_one)

theorem WireAgrees.pushRegWord (r : Byte) : WireAgrees.Statement (.pushRegWord r) :=
  WireAgrees.intro ⟨.pushReg, .pushReg, some .word, false, 0, true⟩ 0x23 rfl (by decide) rfl rfl (fun _ => Nat.zero_lt_one)

theorem WireAgrees.popByte : WireAgrees.Statement .popByte :=
  WireAgrees.intro ⟨.pop, .pop, some .byte, false, 0, false⟩ 0x31 rfl (by decide) rfl rfl (fun _ => Nat.zero_lt_one)

theorem WireAgrees.popHword : WireAgrees.Statement .popHword :=
  WireAgrees.intro ⟨.pop, .pop, some .hword, false, 0, false⟩ 0x32 rfl (by decide) rfl rfl (fun _ => Nat.zero_lt_one)

theorem WireAgrees.popWord : WireAgrees.Statement .popWord :=
  WireAgrees.intro ⟨.pop, .pop, some .word, false, 0, false⟩ 0x33 rfl (by decide) rfl rfl (fun _ => Nat.zero_lt_one)

theorem WireAgrees.movByte (r : Byte) : WireAgrees.Statement (.movByte r) :=
  WireAgrees.intro ⟨.mov, .mov, some .byte, false, 0, true⟩ 0x41 rfl (by decide) rfl rfl (fun _ => Nat.zero_lt_one)

theorem WireAgrees.movHword (r : Byte) : WireAgrees.Statement (.movHword r) :=
  WireAgrees.intro ⟨.mov, .mov, some .hword, false, 0, true⟩ 0x42 rfl (by decide) rfl rfl (fun _ => Nat.zero_lt_one)

theorem WireAgrees.movWord (r : Byte) : WireAgrees.Statement (.movWord r) :=
  WireAgrees.intro ⟨.mov, .mov, some .word, false, 0, true⟩ 0x43 rfl (by decide) rfl rfl (fun _ => Nat.zero_lt_one)

theorem WireAgrees.dupByte : WireAgrees.Statement .dupByte :=
  WireAgrees.intro ⟨.dup, .dup, some .byte, false, 0, false⟩ 0x51 rfl (by decide) rfl rfl (fun _ => Nat.zero_lt_one)

theorem WireAgrees.dupHword : WireAgrees.Statement .dupHword :=
  WireAgrees.intro ⟨.dup, .dup, some .hword, false, 0, false⟩ 0x52 rfl (by decide) rfl rfl (fun _ => Nat.zero_lt_one)

theorem WireAgrees.dupWord : WireAgrees.Statement .dupWord :=
  WireAgrees.intro ⟨.dup, .dup, some .word, false, 0, false⟩ 0x53 rfl (by decide) rfl rfl (fun _ => Nat.zero_lt_one)

theorem WireAgrees.plusByte : WireAgrees.Statement .plusByte :=
  WireAgrees.intro ⟨.arith, .plus, some .byte, false, 0, false⟩ 0x61 rfl (by decide) rfl rfl (fun _ => Nat.zero_lt_one)

theorem WireAgrees.plusHword : WireAgrees.Statement .plusHword :=
  WireAgrees.intro ⟨.arith, .plus, some .hword, false, 0, false⟩ 0x62 rfl (by decide) rfl rfl (fun _ => Nat.zero_lt_one)

theorem WireAgrees.plusWord : WireAgrees.Statement .plusWord :=
  WireAgrees.intro ⟨.arith, .plus, some .word, false, 0, false⟩ 0x63 rfl (by decide) rfl rfl (fun _ => Nat.zero_lt_one)

theorem WireAgrees.subByte : WireAgrees.Statement .subByte :=
  WireAgrees.intro ⟨.arith, .sub, some .byte, false, 0, false⟩ 0x65 rfl (by decide) rfl rfl (fun _ => Nat.zero_lt_one)

theorem WireAgrees.subHword : WireAgrees.Statement .subHword :=
  WireAgrees.intro ⟨.arith, .sub, some .hword, false, 0, false⟩ 0x66 rfl (by decide) rfl rfl (fun _ => Nat.zero_lt_one)

theorem WireAgrees.subWord : WireAgrees.Statement .subWord :=
  WireAgrees.intro ⟨.arith, .sub, some .word, false, 0, false⟩ 0x67 rfl (by decide) rfl rfl (fun _ => Nat.zero_lt_one)

theorem WireAgrees.multByte : WireAgrees.Statement .multByte :=
  WireAgrees.intro ⟨.arith, .mult, some .byte, false, 0, false⟩ 0x69 rfl (by decide) rfl rfl (fun _ => Nat.zero_lt_one)

theorem WireAgrees.multHword : WireAgrees.Statement .multHword :=
  WireAgrees.intro ⟨.arith, .mult, some .hword, false, 0, false⟩ 0x6A rfl (by decide) rfl rfl (fun _ => Nat.zero_lt_one)

theorem WireAgrees.multWord : WireAgrees.Statement .multWord :=
  WireAgrees.intro ⟨.arith, .mult, some .word, false, 0, false⟩ 0x6B rfl (by decide) rfl rfl (fun _ => Nat.zero_lt_one)

theorem WireAgrees.notByte : WireAgrees.Statement .notByte :=
  WireAgrees.intro ⟨.logic, .not, some .byte, false, 0, false⟩ 0x71 rfl (by decide) rfl rfl (fun _ => Nat.zero_lt_one)

theorem WireAgrees.notHword : WireAgrees.Statement .notHword :=
  WireAgrees.intro ⟨.logic, .not, some .hword, false, 0, false⟩ 0x72 rfl (by decide) rfl rfl (fun _ => Nat.zero_lt_one)

theorem WireAgrees.notWord : WireAgrees.Statement .notWord :=
  WireAgrees.intro ⟨.logic, .not, some .word, false, 0, false⟩ 0x73 rfl (by decide) rfl rfl (fun _ => Nat.zero_lt_one)

theorem WireAgrees.orByte : WireAgrees.Statement .orByte :=
  WireAgrees.intro ⟨.logic, .or, some .byte, false, 0, false⟩ 0x75 rfl (by decide) rfl rfl (fun _ => Nat.zero_lt_one)

theorem WireAgrees.orHword : WireAgrees.Statement .orHword :=
  WireAgrees.intro ⟨.logic, .or, some .hword, false, 0, false⟩ 0x76 rfl (by decide) rfl rfl (fun _ => Nat.zero_lt_one)

theorem WireAgrees.orWord : WireAgrees.Statement .orWord :=
  WireAgrees.intro ⟨.logic, .or, some .word, false, 0, false⟩ 0x77 rfl (by decide) rfl rfl (fun _ => Nat.zero_lt_one)

theorem WireAgrees.andByte : WireAgrees.Statement .andByte :=
  WireAgrees.intro ⟨.logic, .and, some .byte, false, 0, false⟩ 0x79 rfl (by decide) rfl rfl (fun _ => Nat.zero_lt_one)

theorem WireAgrees.andHword : WireAgrees.Statement .andHword :=
  WireAgrees.intro ⟨.logic, .and, some .hword, false, 0, false⟩ 0x7A rfl (by decide) rfl rfl (fun _ => Nat.zero_lt_one)

theorem WireAgrees.andWord : WireAgrees.Statement .andWord :=
  WireAgrees.intro ⟨.logic, .and, some .word, false, 0, false⟩ 0x7B rfl (by decide) rfl rfl (fun _ => Nat.zero_lt_one)

theorem WireAgrees.xorByte : WireAgrees.Statement .xorByte :=
  WireAgrees.intro ⟨.logic, .xor, some .byte, false, 0, false⟩ 0x7D rfl (by decide) rfl rfl (fun _ => Nat.zero_lt_one)

theorem WireAgrees.xorHword : WireAgrees.Statement .xorHword :=
  WireAgrees.intro ⟨.logic, .xor, some .hword, false, 0, false⟩ 0x7E rfl (by decide) rfl rfl (fun _ => Nat.zero_lt_one)

theorem WireAgrees.xorWord : WireAgrees.Statement .xorWord :=
  WireAgrees.intro ⟨.logic, .xor, some .word, false, 0, false⟩ 0x7F rfl (by decide) rfl rfl (fun _ => Nat.zero_lt_one)

theorem WireAgrees.eqByte : WireAgrees.Statement .eqByte :=
  WireAgrees.intro ⟨.cmp, .cmp false .eq, some .byte, false, 0, false⟩ 0x81 rfl (by decide) rfl rfl (fun _ => Nat.zero_lt_one)

theorem WireAgrees.eqHword : WireAgrees.Statement .eqHword :=
  WireAgrees.intro ⟨.cmp, .cmp false .eq, some .hword, false, 0, false⟩ 0x82 rfl (by decide) rfl rfl (fun _ => Nat.zero_lt_one)

theorem WireAgrees.eqWord : WireAgrees.Statement .eqWord :=
  WireAgrees.intro ⟨.cmp, .cmp false .eq, some .word, false, 0, false⟩ 0x83 rfl (by decide) rfl rfl (fun _ => Nat.zero_lt_one)

theorem WireAgrees.ltByte : WireAgrees.Statement .ltByte :=
  WireAgrees.intro ⟨.cmp, .cmp false .lt, some .byte, false, 0, false⟩ 0x85 rfl (by decide) rfl rfl (fun _ => Nat.zero_lt_one)

theorem WireAgrees.ltHword : WireAgrees.Statement .ltHword :=
  WireAgrees.intro ⟨.cmp, .cmp false .lt, some .hword, false, 0, false⟩ 0x86 rfl (by decide) rfl rfl (fun _ => Nat.zero_lt_one)

theorem WireAgrees.ltWord : WireAgrees.Statement .ltWord :=
  WireAgrees.intro ⟨.cmp, .cmp false .lt, some .word, false, 0, false⟩ 0x87 rfl (by decide) rfl rfl (fun _ => Nat.zero_lt_one)

theorem WireAgrees.lteByte : WireAgrees.Statement .lteByte :=
  WireAgrees.intro ⟨.cmp, .cmp false .lte, some .byte, false, 0, false⟩ 0x89 rfl (by decide) rfl rfl (fun _ => Nat.zero_lt_one)

theorem WireAgrees.lteHword : WireAgrees.Statement .lteHword :=
  WireAgrees.intro ⟨.cmp, .cmp false .lte, some .hword, false, 0, false⟩ 0x8A rfl (by decide) rfl rfl (fun _ => Nat.zero_lt_one)

theorem WireAgrees.lteWord : WireAgrees.Statement .lteWord :=
  WireAgrees.intro ⟨.cmp, .cmp false .lte, some .word, false, 0, false⟩ 0x8B rfl (by decide) rfl rfl (fun _ => Nat.zero_lt_one)

theorem WireAgrees.gtByte : WireAgrees.Statement .gtByte :=
  WireAgrees.intro ⟨.cmp, .cmp false .gt, some .byte, false, 0, false⟩ 0x8D rfl (by decide) rfl rfl (fun _ => Nat.zero_lt_one)

theorem WireAgrees.gtHword : WireAgrees.Statement .gtHword :=
  WireAgrees.intro ⟨.cmp, .cmp false .gt, some .hword, false, 0, false⟩ 0x8E rfl (by decide) rfl rfl (fun _ => Nat.zero_lt_one)

theorem WireAgrees.gtWord : WireAgrees.Statement .gtWord :=
  WireAgrees.intro ⟨.cmp, .cmp false .gt, some .word, false, 0, false⟩ 0x8F rfl (by decide) rfl rfl (fun _ => Nat.zero_lt_one)

theorem WireAgrees.gteByte : WireAgrees.Statement .gteByte :=
  WireAgrees.intro ⟨.cmp, .cmp false .gte, some .byte, false, 0, false⟩ 0x91 rfl (by decide) rfl rfl (fun _ => Nat.zero_lt_one)

theorem WireAgrees.gteHword : WireAgrees.Statement .gteHword :=
  WireAgrees.intro ⟨.cmp, .cmp false .gte, some .hword, false, 0, false⟩ 0x92 rfl (by decide) rfl rfl (fun _ => Nat.zero_lt_one)

theorem WireAgrees.gteWord : WireAgrees.Statement .gteWord :=
  WireAgrees.intro ⟨.cmp, .cmp false .gte, some .word, false, 0, false⟩ 0x93 rfl (by decide) rfl rfl (fun _ => Nat.zero_lt_one)

theorem WireAgrees.eqChar : WireAgrees.Statement .eqChar :=
  WireAgrees.intro ⟨.cmp, .cmp true .eq, some .byte, true, 0, false⟩ 0xA1 rfl (by decide) rfl rfl (fun _ => Nat.zero_lt_one)

theorem WireAgrees.eqInt : WireAgrees.Statement .eqInt :=
  WireAgrees.intro ⟨.cmp, .cmp true .eq, some .hword, true, 0, false⟩ 0xA2 rfl (by decide) rfl rfl (fun _ => Nat.zero_lt_one)

theorem WireAgrees.eqLong : WireAgrees.Statement .eqLong :=
  WireAgrees.intro ⟨.cmp, .cmp true .eq, some .word, true, 0, false⟩ 0xA3 rfl (by decide) rfl rfl (fun _ => Nat.zero_lt_one)

theorem WireAgrees.ltChar : WireAgrees.Statement .ltChar :=
  WireAgrees.intro ⟨.cmp, .cmp true .lt, some .byte, true, 0, false⟩ 0xA5 rfl (by decide) rfl rfl (fun _ => Nat.zero_lt_one)

theorem WireAgrees.ltInt : WireAgrees.Statement .ltInt :=
  WireAgrees.intro ⟨.cmp, .cmp true .lt, some .hword, true, 0, false⟩ 0xA6 rfl (by decide) rfl rfl (fun _ => Nat.zero_lt_one)

theorem WireAgrees.ltLong : WireAgrees.Statement .ltLong :=
  WireAgrees.intro ⟨.cmp, .cmp true .lt, some .word, true, 0, false⟩ 0xA7 rfl (by decide) rfl rfl (fun _ => Nat.zero_lt_one)

theorem WireAgrees.lteChar : WireAgrees.Statement .lteChar :=
  WireAgrees.intro ⟨.cmp, .cmp true .lte, some .byte, true, 0, false⟩ 0xA9 rfl (by decide) rfl rfl (fun _ => Nat.zero_lt_one)

theorem WireAgrees.lteInt : WireAgrees.Statement .lteInt :=
  WireAgrees.intro ⟨.cmp, .cmp true .lte, some .hword, true, 0, false⟩ 0xAA rfl (by decide) rfl rfl (fun _ => Nat.zero_lt_one)

theorem WireAgrees.lteLong : WireAgrees.Statement .lteLong :=
  WireAgrees.intro ⟨.cmp, .cmp true .lte, some .word, true, 0, false⟩ 0xAB rfl (by decide) rfl rfl (fun _ => Nat.zero_lt_one)

theorem WireAgrees.gtChar : WireAgrees.Statement .gtChar :=
  WireAgrees.intro ⟨.cmp, .cmp true .gt, some .byte, true, 0, false⟩ 0xAD rfl (by decide) rfl rfl (fun _ => Nat.zero_lt_one)

theorem WireAgrees.gtInt : WireAgrees.Statement .gtInt :=
  WireAgrees.intro ⟨.cmp, .cmp true .gt, some .hword, true, 0, false⟩ 0xAE rfl (by decide) rfl rfl (fun _ => Nat.zero_lt_one)

theorem WireAgrees.gtLong : WireAgrees.Statement .gtLong :=
  WireAgrees.intro ⟨.cmp, .cmp true .gt, some .word, true, 0, false⟩ 0xAF rfl (by decide) rfl rfl (fun _ => Nat.zero_lt_one)

theorem WireAgrees.gteChar : WireAgrees.Statement .gteChar :=
  WireAgrees.intro ⟨.cmp, .cmp true .gte, some .byte, true, 0, false⟩ 0xB1 rfl (by decide) rfl rfl (fun _ => Nat.zero_lt_one)

theorem WireAgrees.gteInt : WireAgrees.Statement .gteInt :=
  WireAgrees.intro ⟨.cmp, .cmp true .gte, some .hword, true, 0, false⟩ 0xB2 rfl (by decide) rfl rfl (fun _ => Nat.zero_lt_one)

theorem WireAgrees.gteLong : WireAgrees.Statement .gteLong :=
  WireAgrees.intro ⟨.cmp, .cmp true .gte, some .word, true, 0, false⟩ 0xB3 rfl (by decide) rfl rfl (fun _ => Nat.zero_lt_one)

theorem WireAgrees.mallocByte (n : Word) : WireAgrees.Statement (.mallocByte n) :=
  WireAgrees.intro ⟨.heap, .malloc, some .byte, false, 8, false⟩ 0xC1 rfl (by decide) rfl rfl (fun _ => operand_fits_word _)

theorem WireAgrees.mallocHword (n : Word) : WireAgrees.Statement (.mallocHword n) :=
  WireAgrees.intro ⟨.heap, .malloc, some .hword, false, 8, false⟩ 0xC2 rfl (by decide) rfl rfl (fun _ => operand_fits_word _)

theorem WireAgrees.mallocWord (n : Word) : WireAgrees.Statement (.mallocWord n) :=
  WireAgrees.intro ⟨.heap, .malloc, some .word, false, 8, false⟩ 0xC3 rfl (by decide) rfl rfl (fun _ => operand_fits_word _)

theorem WireAgrees.mgetByte (n : Word) : WireAgrees.Statement (.mgetByte n) :=
  WireAgrees.intro ⟨.heap, .mget, some .byte, false, 8, false⟩ 0xC5 rfl (by decide) rfl rfl (fun _ => operand_fits_word _)

theorem WireAgrees.mgetHword (n : Word) : WireAgrees.Statement (.mgetHword n) :=
  WireAgrees.intro ⟨.heap, .mget, some .hword, false, 8, false⟩ 0xC6 rfl (by decide) rfl rfl (fun _ => operand_fits_word _)

theorem WireAgrees.mgetWord (n : Word) : WireAgrees.Statement (.mgetWord n) :=
  WireAgrees.intro ⟨.heap, .mget, some .word, false, 8, false⟩ 0xC7 rfl (by decide) rfl rfl (fun _ => operand_fits_word _)

theorem WireAgrees.msetByte (n : Word) : WireAgrees.Statement (.msetByte n) :=
  WireAgrees.intro ⟨.heap, .mset, some .byte, false, 8, false⟩ 0xC9 rfl (by decide) rfl rfl (fun _ => operand_fits_word _)

theorem WireAgrees.msetHword (n : Word) : WireAgrees.Statement (.msetHword n) :=
  WireAgrees.intro ⟨.heap, .mset, some .hword, false, 8, false⟩ 0xCA rfl (by decide) rfl rfl (fun _ => operand_fits_word _)

theorem WireAgrees.msetWord (n : Word) : WireAgrees.Statement (.msetWord n) :=
  WireAgrees.intro ⟨.heap, .mset, some .word, false, 8, false⟩ 0xCB rfl (by decide) rfl rfl (fun _ => operand_fits_word _)

theorem WireAgrees.mdelete : WireAgrees.Statement .mdelete :=
  WireAgrees.intro ⟨.heap, .mdelete, none, false, 0, false⟩ 0xCC rfl (by decide) rfl rfl (fun _ => Nat.zero_lt_one)

theorem WireAgrees.msize : WireAgrees.Statement .msize :=
  WireAgrees.intro ⟨.heap, .msize, none, false, 0, false⟩ 0xD0 rfl (by decide) rfl rfl (fun _ => Nat.zero_lt_one)

theorem WireAgrees.jumpAbs (t : Word) : WireAgrees.Statement (.jumpAbs t) :=
  WireAgrees.intro ⟨.ctrl, .jumpAbs, none, false, 8, false⟩ 0xE0 rfl (by decide) rfl rfl (fun _ => operand_fits_word _)

theorem WireAgrees.jumpIfByte (t : Word) : WireAgrees.Statement (.jumpIfByte t) :=
  WireAgrees.intro ⟨.ctrl, .jumpIf, some .byte, false, 8, false⟩ 0xE5 rfl (by decide) rfl rfl (fun _ => operand_fits_word _)

theorem WireAgrees.jumpIfHword (t : Word) : WireAgrees.Statement (.jumpIfHword t) :=
  WireAgrees.intro ⟨.ctrl, .jumpIf, some .hword, false, 8, false⟩ 0xE6 rfl (by decide) rfl rfl (fun _ => operand_fits_word _)

theorem WireAgrees.jumpIfWord (t : Word) : WireAgrees.Statement (.jumpIfWord t) :=
  WireAgrees.intro ⟨.ctrl, .jumpIf, some .word, false, 8, false⟩ 0xE7 rfl (by decide) rfl rfl (fun _ => operand_fits_word _)

theorem WireAgrees.call (t : Word) : WireAgrees.Statement (.call t) :=
  WireAgrees.intro ⟨.ctrl, .call, none, false, 8, false⟩ 0xE8 rfl (by decide) rfl rfl (fun _ => operand_fits_word _)

theorem WireAgrees.ret : WireAgrees.Statement .ret :=
  WireAgrees.intro ⟨.ctrl, .ret, none, false, 0, false⟩ 0xEC rfl (by decide) rfl rfl (fun _ => Nat.zero_lt_one)

theorem WireAgrees.halt : WireAgrees.Statement .halt :=
  WireAgrees.intro ⟨.halt, .halt, none, false, 0, false⟩ 0xF0 rfl (by decide) rfl rfl (fun _ => Nat.zero_lt_one)

/-- The record of an instruction decodes to it (30_encoding.md R70, R80). -/
theorem WireAgrees.Statement.decodeRecord {i : Instr} (h : WireAgrees.Statement i) :
    decodeRecord (encodeRecord i) = some i := by
  obtain ⟨⟨d, hd, _, hi⟩, _⟩ := h
  simp [Sys2Proof.decodeRecord, encodeRecord, hd, hi]

end Sys2Proof.Laws
end

