-- ==== Sys2Proof/Laws/Relational.lean ====
section
/-! SUPPORT. How a relation between two states is carried through any instruction run in both: it is enough to look
at the primitives. -/

namespace Sys2Proof.Machine

/-- Two answers of a primitive agree: the same value or the same error, and related states. -/
def Result.Agree {α : Type} (R : State → State → Prop) : Result α → Result α → Prop
  | .ok a s, .ok b t => a = b ∧ R s t
  | .raised k s, .raised l t => k = l ∧ R s t
  | .ok _ _, .raised _ _ => False
  | .raised _ _, .ok _ _ => False

variable {R : State → State → Prop}

theorem Result.Agree.bind {α β : Type} {r r' : Result α} {f f' : α → State → Result β} (h : r.Agree R r')
    (hf : ∀ a s t, R s t → (f a s).Agree R (f' a t)) : (r.bind f).Agree R (r'.bind f') := by
  cases r <;> cases r'
  · obtain ⟨rfl, h⟩ := h; exact hf _ _ _ h
  · exact h.elim
  · exact h.elim
  · exact h

/-- The primitives respect `R`; those of the register file apart. -/
structure Respects (R : State → State → Prop) : Prop where
  push : ∀ {w : Width} (v : BitVec w.bits) (s t : State), R s t → (push v s).Agree R (push v t)
  pop : ∀ (w : Width) (s t : State), R s t → (pop w s).Agree R (pop w t)
  peek : ∀ (w : Width) (s t : State), R s t → (peek w s).Agree R (peek w t)
  heapAlloc : ∀ (n : Nat) (s t : State), R s t → (heapAlloc n s).Agree R (heapAlloc n t)
  heapRead : ∀ (h : Word) (off : Nat) (w : Width) (s t : State), R s t →
    (heapRead h off w s).Agree R (heapRead h off w t)
  heapWrite : ∀ {w : Width} (h : Word) (off : Nat) (v : BitVec w.bits) (s t : State), R s t →
    (heapWrite h off v s).Agree R (heapWrite h off v t)
  heapDelete : ∀ (h : Word) (s t : State), R s t → (heapDelete h s).Agree R (heapDelete h t)
  heapSize : ∀ (h : Word) (s t : State), R s t → (heapSize h s).Agree R (heapSize h t)
  callCheck : ∀ s t : State, R s t → (callCheck s).Agree R (callCheck t)
  pushReturn : ∀ s t : State, R s t → (csPush (s.ip + 1) s).Agree R (csPush (t.ip + 1) t)
  csPop : ∀ s t : State, R s t → (csPop s).Agree R (csPop t)
  targetCheck : ∀ (a : Word) (s t : State), R s t → (targetCheck a s).Agree R (targetCheck a t)
  setIp : ∀ (a : Word) (s t : State), R s t → (setIp a s).Agree R (setIp a t)
  advance : ∀ s t : State, R s t → (advance s).Agree R (advance t)
  halt : ∀ s t : State, R s t → R { s with status := .haltedOk } { t with status := .haltedOk }
  error : ∀ (k : ErrorKind) (s t : State), R s t → R (takeError k s) (takeError k t)

theorem Respects.pushThenAdvance (c : Respects R) {w : Width} (v : BitVec w.bits) {s t : State} (h : R s t) :
    ((Machine.push v s).bind fun _ s => Machine.advance s).Agree R
      ((Machine.push v t).bind fun _ s => Machine.advance s) :=
  (c.push v s t h).bind fun _ u v h => c.advance u v h

theorem Respects.pushImmediate (c : Respects R) (w : Width) (imm : Word) {s t : State} (h : R s t) :
    (Machine.pushImmediate w imm s).Agree R (Machine.pushImmediate w imm t) :=
  c.pushThenAdvance _ h

theorem Respects.popDiscard (c : Respects R) (w : Width) {s t : State} (h : R s t) :
    (Machine.popDiscard w s).Agree R (Machine.popDiscard w t) :=
  (c.pop w s t h).bind fun _ u v h => c.advance u v h

theorem Respects.duplicate (c : Respects R) (w : Width) {s t : State} (h : R s t) :
    (Machine.duplicate w s).Agree R (Machine.duplicate w t) :=
  (c.peek w s t h).bind fun x _ _ h => c.pushThenAdvance x h

theorem Respects.binaryOp (c : Respects R) {u : Width} (w : Width) (f : BitVec w.bits → BitVec w.bits → BitVec u.bits)
    {s t : State} (h : R s t) : (Machine.binaryOp w f s).Agree R (Machine.binaryOp w f t) :=
  (c.pop w s t h).bind fun b x y h =>
    (c.pop w x y h).bind fun a _ _ h => c.pushThenAdvance (f a b) h

theorem Respects.unaryOp (c : Respects R) (w : Width) (f : BitVec w.bits → BitVec w.bits)
    {s t : State} (h : R s t) : (Machine.unaryOp w f s).Agree R (Machine.unaryOp w f t) :=
  (c.pop w s t h).bind fun a _ _ h => c.pushThenAdvance (f a) h

theorem Respects.allocate (c : Respects R) (w : Width) (n : Word) {s t : State} (h : R s t) :
    (Machine.allocate w n s).Agree R (Machine.allocate w n t) :=
  (c.heapAlloc _ s t h).bind fun a _ _ h => c.pushThenAdvance (w := .word) a h

theorem Respects.getElement (c : Respects R) (w : Width) (n : Word) {s t : State} (h : R s t) :
    (Machine.getElement w n s).Agree R (Machine.getElement w n t) :=
  (c.pop .word s t h).bind fun a x y h =>
    (c.heapRead a _ w x y h).bind fun v _ _ h => c.pushThenAdvance v h

theorem Respects.setElement (c : Respects R) (w : Width) (n : Word) {s t : State} (h : R s t) :
    (Machine.setElement w n s).Agree R (Machine.setElement w n t) :=
  (c.pop w s t h).bind fun v x y h =>
    (c.pop .word x y h).bind fun a x y h =>
      (c.heapWrite a _ v x y h).bind fun _ x y h => c.advance x y h

theorem Respects.jumpTo (c : Respects R) (a : Word) {s t : State} (h : R s t) :
    (Machine.jumpTo a s).Agree R (Machine.jumpTo a t) :=
  (c.targetCheck a s t h).bind fun _ x y h => c.setIp a x y h

theorem Respects.jumpIf (c : Respects R) (w : Width) (a : Word) {s t : State} (h : R s t) :
    (Machine.jumpIf w a s).Agree R (Machine.jumpIf w a t) := by
  refine (c.pop w s t h).bind fun v x y h => ?_
  show Result.Agree R (if v.toNat ≠ 0 then _ else _) (if v.toNat ≠ 0 then _ else _)
  split
  · exact c.jumpTo a h
  · exact c.advance x y h

/-- Outcomes of sequences that agree. -/
theorem Respects.outcome (c : Respects R) {r r' : Result Unit} (h : r.Agree R r') :
    OutcomesAgree R r.outcome r'.outcome := by
  cases r <;> cases r'
  · exact h.2
  · exact h.elim
  · exact h.elim
  · obtain ⟨rfl, h⟩ := h; exact c.error _ _ _ h

/-- Every instruction respects what its primitives respect; PUSH_REG and MOV where their sequences do. -/
theorem Respects.exec (c : Respects R) (i : Instr) {s t : State} (h : R s t)
    (hp : ∀ (w : Width) (r : Byte), (i = .pushRegByte r ∨ i = .pushRegHword r ∨ i = .pushRegWord r) →
      (Machine.pushRegister w r s).Agree R (Machine.pushRegister w r t))
    (hm : ∀ (w : Width) (r : Byte), (i = .movByte r ∨ i = .movHword r ∨ i = .movWord r) →
      (Machine.moveToRegister w r s).Agree R (Machine.moveToRegister w r t)) :
    OutcomesAgree R (Machine.exec i s) (Machine.exec i t) := by
  cases i with
  | pushByte imm => exact c.outcome (c.pushImmediate .byte imm h)
  | pushHword imm => exact c.outcome (c.pushImmediate .hword imm h)
  | pushWord imm => exact c.outcome (c.pushImmediate .word imm h)
  | pushRegByte r => exact c.outcome (hp .byte r (by simp))
  | pushRegHword r => exact c.outcome (hp .hword r (by simp))
  | pushRegWord r => exact c.outcome (hp .word r (by simp))
  | popByte => exact c.outcome (c.popDiscard .byte h)
  | popHword => exact c.outcome (c.popDiscard .hword h)
  | popWord => exact c.outcome (c.popDiscard .word h)
  | movByte r => exact c.outcome (hm .byte r (by simp))
  | movHword r => exact c.outcome (hm .hword r (by simp))
  | movWord r => exact c.outcome (hm .word r (by simp))
  | dupByte => exact c.outcome (c.duplicate .byte h)
  | dupHword => exact c.outcome (c.duplicate .hword h)
  | dupWord => exact c.outcome (c.duplicate .word h)
  | plusByte => exact c.outcome (c.binaryOp .byte _ h)
  | plusHword => exact c.outcome (c.binaryOp .hword _ h)
  | plusWord => exact c.outcome (c.binaryOp .word _ h)
  | subByte => exact c.outcome (c.binaryOp .byte _ h)
  | subHword => exact c.outcome (c.binaryOp .hword _ h)
  | subWord => exact c.outcome (c.binaryOp .word _ h)
  | multByte => exact c.outcome (c.binaryOp .byte _ h)
  | multHword => exact c.outcome (c.binaryOp .hword _ h)
  | multWord => exact c.outcome (c.binaryOp .word _ h)
  | notByte => exact c.outcome (c.unaryOp .byte _ h)
  | notHword => exact c.outcome (c.unaryOp .hword _ h)
  | notWord => exact c.outcome (c.unaryOp .word _ h)
  | orByte => exact c.outcome (c.binaryOp .byte _ h)
  | orHword => exact c.outcome (c.binaryOp .hword _ h)
  | orWord => exact c.outcome (c.binaryOp .word _ h)
  | andByte => exact c.outcome (c.binaryOp .byte _ h)
  | andHword => exact c.outcome (c.binaryOp .hword _ h)
  | andWord => exact c.outcome (c.binaryOp .word _ h)
  | xorByte => exact c.outcome (c.binaryOp .byte _ h)
  | xorHword => exact c.outcome (c.binaryOp .hword _ h)
  | xorWord => exact c.outcome (c.binaryOp .word _ h)
  | eqByte => exact c.outcome (c.binaryOp .byte _ h)
  | eqHword => exact c.outcome (c.binaryOp .hword _ h)
  | eqWord => exact c.outcome (c.binaryOp .word _ h)
  | ltByte => exact c.outcome (c.binaryOp .byte _ h)
  | ltHword => exact c.outcome (c.binaryOp .hword _ h)
  | ltWord => exact c.outcome (c.binaryOp .word _ h)
  | lteByte => exact c.outcome (c.binaryOp .byte _ h)
  | lteHword => exact c.outcome (c.binaryOp .hword _ h)
  | lteWord => exact c.outcome (c.binaryOp .word _ h)
  | gtByte => exact c.outcome (c.binaryOp .byte _ h)
  | gtHword => exact c.outcome (c.binaryOp .hword _ h)
  | gtWord => exact c.outcome (c.binaryOp .word _ h)
  | gteByte => exact c.outcome (c.binaryOp .byte _ h)
  | gteHword => exact c.outcome (c.binaryOp .hword _ h)
  | gteWord => exact c.outcome (c.binaryOp .word _ h)
  | eqChar => exact c.outcome (c.binaryOp .byte _ h)
  | eqInt => exact c.outcome (c.binaryOp .hword _ h)
  | eqLong => exact c.outcome (c.binaryOp .word _ h)
  | ltChar => exact c.outcome (c.binaryOp .byte _ h)
  | ltInt => exact c.outcome (c.binaryOp .hword _ h)
  | ltLong => exact c.outcome (c.binaryOp .word _ h)
  | lteChar => exact c.outcome (c.binaryOp .byte _ h)
  | lteInt => exact c.outcome (c.binaryOp .hword _ h)
  | lteLong => exact c.outcome (c.binaryOp .word _ h)
  | gtChar => exact c.outcome (c.binaryOp .byte _ h)
  | gtInt => exact c.outcome (c.binaryOp .hword _ h)
  | gtLong => exact c.outcome (c.binaryOp .word _ h)
  | gteChar => exact c.outcome (c.binaryOp .byte _ h)
  | gteInt => exact c.outcome (c.binaryOp .hword _ h)
  | gteLong => exact c.outcome (c.binaryOp .word _ h)
  | mallocByte n => exact c.outcome (c.allocate .byte n h)
  | mallocHword n => exact c.outcome (c.allocate .hword n h)
  | mallocWord n => exact c.outcome (c.allocate .word n h)
  | mgetByte n => exact c.outcome (c.getElement .byte n h)
  | mgetHword n => exact c.outcome (c.getElement .hword n h)
  | mgetWord n => exact c.outcome (c.getElement .word n h)
  | msetByte n => exact c.outcome (c.setElement .byte n h)
  | msetHword n => exact c.outcome (c.setElement .hword n h)
  | msetWord n => exact c.outcome (c.setElement .word n h)
  | mdelete =>
    have hr : ((Machine.pop .word s).bind fun g s => (Machine.heapDelete g s).bind fun _ s => Machine.advance s).Agree R
        ((Machine.pop .word t).bind fun g s => (Machine.heapDelete g s).bind fun _ s => Machine.advance s) :=
      (c.pop .word s t h).bind fun g x y h => (c.heapDelete g x y h).bind fun _ x y h => c.advance x y h
    exact c.outcome hr
  | msize =>
    have hr : ((Machine.pop .word s).bind fun g s => (Machine.heapSize g s).bind fun n s =>
          (Machine.push (w := .word) n s).bind fun _ s => Machine.advance s).Agree R
        ((Machine.pop .word t).bind fun g s => (Machine.heapSize g s).bind fun n s =>
          (Machine.push (w := .word) n s).bind fun _ s => Machine.advance s) :=
      (c.pop .word s t h).bind fun g x y h =>
        (c.heapSize g x y h).bind fun n _ _ h => c.pushThenAdvance (w := .word) n h
    exact c.outcome hr
  | jumpAbs a => exact c.outcome (c.jumpTo a h)
  | jumpIfByte a => exact c.outcome (c.jumpIf .byte a h)
  | jumpIfHword a => exact c.outcome (c.jumpIf .hword a h)
  | jumpIfWord a => exact c.outcome (c.jumpIf .word a h)
  | call a =>
    have hr : ((Machine.callCheck s).bind fun _ s => (Machine.targetCheck a s).bind fun _ s =>
          (Machine.csPush (s.ip + 1) s).bind fun _ s => Machine.setIp a s).Agree R
        ((Machine.callCheck t).bind fun _ s => (Machine.targetCheck a s).bind fun _ s =>
          (Machine.csPush (s.ip + 1) s).bind fun _ s => Machine.setIp a s) :=
      (c.callCheck s t h).bind fun _ x y h => (c.targetCheck a x y h).bind fun _ x y h =>
        (c.pushReturn x y h).bind fun _ x y h => c.setIp a x y h
    exact c.outcome hr
  | ret =>
    have hr : ((Machine.csPop s).bind fun a s => Machine.setIp a s).Agree R
        ((Machine.csPop t).bind fun a s => Machine.setIp a s) :=
      (c.csPop s t h).bind fun a x y h => c.setIp a x y h
    exact c.outcome hr
  | halt => exact c.halt _ _ (c.advance s t h).2

end Sys2Proof.Machine
end

