-- ==== Sys2Proof/Tests/Slice0.lean ====
section
/-! SUPPORT. Tests of single steps and of the decoder, and for every statement with hypotheses a witness that meets
them.  Expected results are those of spec/95_test_vectors.md (the vector's number stands in the test's name) and words
written out from the opcode map of 30_encoding.md R80. -/

namespace Sys2Proof.Tests

set_option Elab.async false

open Sys2Proof.Machine

/-! ## Helpers -/

/-- Whether every row's bytes decode to its instruction with nothing left over. -/
def decodesAll (rows : List (List Byte × Instr)) : Bool :=
  rows.all fun row => decide ((decode row.1).toOption = some (row.2, []))

/-- The start state of a vector: the given stack, and a program of `plen` HALTs with the record of `wire` at `ip`. -/
def vector (wire stack : List Byte) (ip plen : Nat) : State :=
  { State.reset with
    stack := Memory.write [] 0 stack
    sp := BitVec.ofNat 64 stack.length
    ip := BitVec.ofNat 64 ip
    program := (List.replicate plen ⟨0xF0, 0, 0⟩).set ip (((decodeStream wire).toOption.getD []).headD ⟨0, 0, 0⟩) }

/-- What one step leaves: status, `ip`, operand stack. -/
def afterStep (s : State) : Option (Status × Nat × List Byte) :=
  match step s with
  | .next t => some (t.status, t.ip.toNat, stackContents t)
  | .fault _ => none
  | .refused _ => none

/-! ## Well-formedness -/

theorem test_wf_pushByte_fits : (Instr.pushByte 255).wf = true := by decide
theorem test_wf_pushByte_refused : (Instr.pushByte 256).wf = false := by decide
theorem test_wf_pushHword_fits : (Instr.pushHword 0xFFFFFFFF).wf = true := by decide
theorem test_wf_pushHword_refused : (Instr.pushHword 0x100000000).wf = false := by decide

/-! ## Decoding, every constructor from a word of the opcode map -/

theorem test_decode_push : decodesAll
    [([0x11, 0x00, 0xFE], .pushByte 0xFE), ([0x12, 0x00, 0x44, 0x33, 0x22, 0x91], .pushHword 0x91223344),
     ([0x13, 0x00, 0x08, 0x07, 0x06, 0x05, 0x04, 0x03, 0x02, 0x81], .pushWord 0x8102030405060708)] = true := by
  decide +kernel

theorem test_decode_pushReg : decodesAll
    [([0x21, 0xF1], .pushRegByte 0xF1), ([0x22, 0xF2], .pushRegHword 0xF2), ([0x23, 0xF3], .pushRegWord 0xF3)] = true := by
  decide +kernel

theorem test_decode_pop : decodesAll
    [([0x31, 0x00], .popByte), ([0x32, 0x00], .popHword), ([0x33, 0x00], .popWord)] = true := by
  decide +kernel

theorem test_decode_mov : decodesAll
    [([0x41, 0xF1], .movByte 0xF1), ([0x42, 0xF2], .movHword 0xF2), ([0x43, 0xF3], .movWord 0xF3)] = true := by
  decide +kernel

theorem test_decode_dup : decodesAll
    [([0x51, 0x00], .dupByte), ([0x52, 0x00], .dupHword), ([0x53, 0x00], .dupWord)] = true := by
  decide +kernel

theorem test_decode_arithmetic : decodesAll
    [([0x61, 0x00], .plusByte), ([0x62, 0x00], .plusHword), ([0x63, 0x00], .plusWord), ([0x65, 0x00], .subByte),
     ([0x66, 0x00], .subHword), ([0x67, 0x00], .subWord), ([0x69, 0x00], .multByte), ([0x6A, 0x00], .multHword),
     ([0x6B, 0x00], .multWord)] = true := by
  decide +kernel

theorem test_decode_logic : decodesAll
    [([0x71, 0x00], .notByte), ([0x72, 0x00], .notHword), ([0x73, 0x00], .notWord), ([0x75, 0x00], .orByte),
     ([0x76, 0x00], .orHword), ([0x77, 0x00], .orWord), ([0x79, 0x00], .andByte), ([0x7A, 0x00], .andHword),
     ([0x7B, 0x00], .andWord), ([0x7D, 0x00], .xorByte), ([0x7E, 0x00], .xorHword), ([0x7F, 0x00], .xorWord)] = true := by
  decide +kernel

theorem test_decode_unsignedComparison : decodesAll
    [([0x81, 0x00], .eqByte), ([0x82, 0x00], .eqHword), ([0x83, 0x00], .eqWord), ([0x85, 0x00], .ltByte),
     ([0x86, 0x00], .ltHword), ([0x87, 0x00], .ltWord), ([0x89, 0x00], .lteByte), ([0x8A, 0x00], .lteHword),
     ([0x8B, 0x00], .lteWord), ([0x8D, 0x00], .gtByte), ([0x8E, 0x00], .gtHword), ([0x8F, 0x00], .gtWord),
     ([0x91, 0x00], .gteByte), ([0x92, 0x00], .gteHword), ([0x93, 0x00], .gteWord)] = true := by
  decide +kernel

theorem test_decode_signedComparison : decodesAll
    [([0xA1, 0x00], .eqChar), ([0xA2, 0x00], .eqInt), ([0xA3, 0x00], .eqLong), ([0xA5, 0x00], .ltChar),
     ([0xA6, 0x00], .ltInt), ([0xA7, 0x00], .ltLong), ([0xA9, 0x00], .lteChar), ([0xAA, 0x00], .lteInt),
     ([0xAB, 0x00], .lteLong), ([0xAD, 0x00], .gtChar), ([0xAE, 0x00], .gtInt), ([0xAF, 0x00], .gtLong),
     ([0xB1, 0x00], .gteChar), ([0xB2, 0x00], .gteInt), ([0xB3, 0x00], .gteLong)] = true := by
  decide +kernel

theorem test_decode_heap : decodesAll
    [([0xC1, 0x00, 0x11, 0x21, 0x31, 0x41, 0x51, 0x61, 0x71, 0x81], .mallocByte 0x8171615141312111),
     ([0xC2, 0x00, 0x12, 0x22, 0x32, 0x42, 0x52, 0x62, 0x72, 0x82], .mallocHword 0x8272625242322212),
     ([0xC3, 0x00, 0x13, 0x23, 0x33, 0x43, 0x53, 0x63, 0x73, 0x83], .mallocWord 0x8373635343332313),
     ([0xC5, 0x00, 0x15, 0x25, 0x35, 0x45, 0x55, 0x65, 0x75, 0x85], .mgetByte 0x8575655545352515),
     ([0xC6, 0x00, 0x16, 0x26, 0x36, 0x46, 0x56, 0x66, 0x76, 0x86], .mgetHword 0x8676665646362616),
     ([0xC7, 0x00, 0x17, 0x27, 0x37, 0x47, 0x57, 0x67, 0x77, 0x87], .mgetWord 0x8777675747372717),
     ([0xC9, 0x00, 0x19, 0x29, 0x39, 0x49, 0x59, 0x69, 0x79, 0x89], .msetByte 0x8979695949392919),
     ([0xCA, 0x00, 0x1A, 0x2A, 0x3A, 0x4A, 0x5A, 0x6A, 0x7A, 0x8A], .msetHword 0x8A7A6A5A4A3A2A1A),
     ([0xCB, 0x00, 0x1B, 0x2B, 0x3B, 0x4B, 0x5B, 0x6B, 0x7B, 0x8B], .msetWord 0x8B7B6B5B4B3B2B1B),
     ([0xCC, 0x00], .mdelete), ([0xD0, 0x00], .msize)] = true := by
  decide +kernel

theorem test_decode_control : decodesAll
    [([0xE0, 0x00, 0x10, 0x20, 0x30, 0x40, 0x50, 0x60, 0x70, 0x80], .jumpAbs 0x8070605040302010),
     ([0xE5, 0x00, 0x15, 0x25, 0x35, 0x45, 0x55, 0x65, 0x75, 0x85], .jumpIfByte 0x8575655545352515),
     ([0xE6, 0x00, 0x16, 0x26, 0x36, 0x46, 0x56, 0x66, 0x76, 0x86], .jumpIfHword 0x8676665646362616),
     ([0xE7, 0x00, 0x17, 0x27, 0x37, 0x47, 0x57, 0x67, 0x77, 0x87], .jumpIfWord 0x8777675747372717),
     ([0xE8, 0x00, 0x18, 0x28, 0x38, 0x48, 0x58, 0x68, 0x78, 0x88], .call 0x8878685848382818), ([0xEC, 0x00], .ret),
     ([0xF0, 0x00], .halt)] = true := by
  decide +kernel

/-- VD-03, VD-04, VD-05, VD-06, VD-11. -/
theorem test_rejected_streams :
    [[0xF0], [0x13, 0, 1, 2, 3], [0, 0], [0xF0, 0, 0x14, 0], [0xF0, 0, 0xE0, 0, 1, 0, 0, 0, 0, 0, 0]].all
      (fun bytes : List Byte => (decodeStream bytes).toOption.isNone) = true := by
  decide +kernel

/-- VD-07 to VD-09. -/
theorem test_accepted_streams :
    (decodeStream [0x63, 0x7F]).toOption = some [⟨0x63, 0x7F, 0⟩] ∧
      (decodeStream [0x11, 0, 0xAB, 0x12, 0, 0x44, 0x33, 0x22, 0x11]).toOption =
        some [⟨0x11, 0, 0xAB⟩, ⟨0x12, 0, 0x11223344⟩] ∧
      (decodeStream [0x22, 3, 0x42, 3]).toOption = some [⟨0x22, 3, 0⟩, ⟨0x42, 3, 0⟩] := by
  decide +kernel

/-- A word of the table is read with byte 0 in its low bits, and every bit above `nbits` as 0. -/
theorem test_table_words :
    decodeTableWord 24 0xAB0011 = some (.pushByte 0xAB) ∧ decodeTableWord 16 0x0341 = some (.movByte 3) ∧
      decodeTableWord 80 0x800000000000000200E8 = some (.call 0x8000000000000002) ∧
      decodeTableWord 16 0xFF00E0 = some (.jumpAbs 0) ∧ decodeTableWord 16 0x0014 = none := by
  decide +kernel

/-- The word placed is the first instruction that runs after reset. -/
theorem test_withFetchWord :
    afterStep (State.reset.withFetchWord 24 0xAB0011) = some (.running, 1, [0xAB]) := by
  decide +kernel

theorem test_reset_is_standard_launch : Launch.standard.start = State.reset := by decide

/-! ## One step of each instruction -/

theorem test_pushByte_V41_01 :
    afterStep (vector [0x11, 0x00, 0xAB] [] 0 2) =
      some (.running, 1, [0xAB]) := by
  decide +kernel

theorem test_pushByte_V41_06 :
    afterStep (vector [0x11, 0x00, 0x5A] [0x00, 0x00, 0x00, 0x00, 0x00, 0x00, 0x00, 0x00, 0x00, 0x00, 0x00, 0x00, 0x00, 0x00, 0x00, 0x00] 0 2) =
      some (.haltedError .stackOverflow, 0, [0x00, 0x00, 0x00, 0x00, 0x00, 0x00, 0x00, 0x00, 0x00, 0x00, 0x00, 0x00, 0x00, 0x00, 0x00, 0x00]) := by
  decide +kernel

theorem test_pushHword_V41_02 :
    afterStep (vector [0x12, 0x00, 0x44, 0x33, 0x22, 0x11] [] 0 2) =
      some (.running, 1, [0x44, 0x33, 0x22, 0x11]) := by
  decide +kernel

theorem test_pushWord_V41_03 :
    afterStep (vector [0x13, 0x00, 0x08, 0x07, 0x06, 0x05, 0x04, 0x03, 0x02, 0x01] [0x99] 0 2) =
      some (.running, 1, [0x99, 0x08, 0x07, 0x06, 0x05, 0x04, 0x03, 0x02, 0x01]) := by
  decide +kernel

theorem test_pushWord_V41_04 :
    afterStep (vector [0x13, 0x00, 0x07, 0x00, 0x00, 0x00, 0x00, 0x00, 0x00, 0x00] [0x00, 0x00, 0x00, 0x00, 0x00, 0x00, 0x00, 0x00, 0x00] 0 2) =
      some (.haltedError .stackOverflow, 0, [0x00, 0x00, 0x00, 0x00, 0x00, 0x00, 0x00, 0x00, 0x00]) := by
  decide +kernel

theorem test_pushRegByte_V41_09 :
    afterStep { vector [0x21, 0x02] [] 0 2 with regs := [0, 0, 0x1122334455667788, 0] } =
      some (.running, 1, [0x88]) := by
  decide +kernel

theorem test_pushRegHword_V41_10 :
    afterStep { vector [0x22, 0x02] [] 0 2 with regs := [0, 0, 0x1122334455667788, 0] } =
      some (.running, 1, [0x88, 0x77, 0x66, 0x55]) := by
  decide +kernel

theorem test_pushRegHword_V41_12 :
    afterStep (vector [0x22, 0x04] [] 0 2) =
      some (.haltedError .invalidRegisterHWord, 0, []) := by
  decide +kernel

theorem test_pushRegWord_V41_11 :
    afterStep { vector [0x23, 0x02] [] 0 2 with regs := [0, 0, 0x1122334455667788, 0] } =
      some (.running, 1, [0x88, 0x77, 0x66, 0x55, 0x44, 0x33, 0x22, 0x11]) := by
  decide +kernel

theorem test_pushRegWord_V41_13 :
    afterStep (vector [0x23, 0x04] [0x00, 0x00, 0x00, 0x00, 0x00, 0x00, 0x00, 0x00, 0x00, 0x00, 0x00, 0x00, 0x00, 0x00, 0x00, 0x00] 0 2) =
      some (.haltedError .invalidRegisterWord, 0, [0x00, 0x00, 0x00, 0x00, 0x00, 0x00, 0x00, 0x00, 0x00, 0x00, 0x00, 0x00, 0x00, 0x00, 0x00, 0x00]) := by
  decide +kernel

theorem test_popByte_V41_15 :
    afterStep (vector [0x31, 0x00] [0x01, 0x02] 0 2) =
      some (.running, 1, [0x01]) := by
  decide +kernel

theorem test_popByte_V41_18 :
    afterStep (vector [0x31, 0x00] [] 0 2) =
      some (.haltedError .stackUnderflow, 0, []) := by
  decide +kernel

theorem test_popHword_V41_17 :
    afterStep (vector [0x32, 0x00] [0x08, 0x07, 0x06, 0x05, 0x04, 0x03, 0x02, 0x01] 0 2) =
      some (.running, 1, [0x08, 0x07, 0x06, 0x05]) := by
  decide +kernel

theorem test_popWord_V41_16 :
    afterStep (vector [0x33, 0x00] [0x01, 0x02, 0x03, 0x04] 0 2) =
      some (.haltedError .stackUnderflow, 0, [0x01, 0x02, 0x03, 0x04]) := by
  decide +kernel

theorem test_movByte_V41_19 :
    let s := { vector [0x41, 0x02] [0xAB] 0 2 with regs := [0, 0, 0x1122334455667788, 0] }
    afterStep s = some (.running, 1, []) ∧
      (execute s).regs = [0, 0, 0x11223344556677AB, 0] := by
  decide +kernel

theorem test_movByte_V41_22 :
    afterStep (vector [0x41, 0xFF] [0xAB] 0 2) =
      some (.haltedError .invalidRegisterByte, 0, [0xAB]) := by
  decide +kernel

theorem test_movHword_V41_20 :
    let s := { vector [0x42, 0x02] [0xAA, 0xBB, 0xCC, 0xDD] 0 2 with regs := [0, 0, 0x1122334455667788, 0] }
    afterStep s = some (.running, 1, []) ∧
      (execute s).regs = [0, 0, 0x11223344DDCCBBAA, 0] := by
  decide +kernel

theorem test_movWord_V41_21 :
    let s := { vector [0x43, 0x02] [0x01, 0x02, 0x03, 0x04, 0x05, 0x06, 0x07, 0x08] 0 2 with regs := [0, 0, 0x1122334455667788, 0] }
    afterStep s = some (.running, 1, []) ∧
      (execute s).regs = [0, 0, 0x0807060504030201, 0] := by
  decide +kernel

theorem test_movWord_V41_23 :
    afterStep (vector [0x43, 0x00] [] 0 2) =
      some (.haltedError .stackUnderflow, 0, []) := by
  decide +kernel

theorem test_dupByte_V41_26 :
    afterStep (vector [0x51, 0x00] [0x07] 0 2) =
      some (.running, 1, [0x07, 0x07]) := by
  decide +kernel

theorem test_dupHword_V41_27 :
    afterStep (vector [0x52, 0x00] [0xD4, 0xC3, 0xB2, 0xA1] 0 2) =
      some (.running, 1, [0xD4, 0xC3, 0xB2, 0xA1, 0xD4, 0xC3, 0xB2, 0xA1]) := by
  decide +kernel

theorem test_dupHword_V41_32 :
    afterStep (vector [0x52, 0x00] [0xEE, 0x01, 0x02, 0x03, 0x04] 0 2) =
      some (.running, 1, [0xEE, 0x01, 0x02, 0x03, 0x04, 0x01, 0x02, 0x03, 0x04]) := by
  decide +kernel

theorem test_dupWord_V41_28 :
    afterStep (vector [0x53, 0x00] [0x88, 0x77, 0x66, 0x55, 0x44, 0x33, 0x22, 0x11] 0 2) =
      some (.running, 1, [0x88, 0x77, 0x66, 0x55, 0x44, 0x33, 0x22, 0x11, 0x88, 0x77, 0x66, 0x55, 0x44, 0x33, 0x22, 0x11]) := by
  decide +kernel

theorem test_dupWord_V41_30 :
    afterStep (vector [0x53, 0x00] [0x00, 0x00, 0x00, 0x00, 0x00, 0x00, 0x00, 0x00, 0x00] 0 2) =
      some (.haltedError .stackOverflow, 0, [0x00, 0x00, 0x00, 0x00, 0x00, 0x00, 0x00, 0x00, 0x00]) := by
  decide +kernel

theorem test_plusByte_V42_01 :
    afterStep (vector [0x61, 0x00] [0xC8, 0x64] 0 2) =
      some (.running, 1, [0x2C]) := by
  decide +kernel

theorem test_plusHword_V42_03 :
    afterStep (vector [0x62, 0x00] [0xFF, 0xFF, 0xFF, 0xFF, 0x01, 0x00, 0x00, 0x00] 0 2) =
      some (.running, 1, [0x00, 0x00, 0x00, 0x00]) := by
  decide +kernel

theorem test_plusWord_V42_05 :
    afterStep (vector [0x63, 0x00] [0x02, 0x00, 0x00, 0x00, 0x00, 0x00, 0x00, 0x00, 0x03, 0x00, 0x00, 0x00, 0x00, 0x00, 0x00, 0x00] 0 2) =
      some (.running, 1, [0x05, 0x00, 0x00, 0x00, 0x00, 0x00, 0x00, 0x00]) := by
  decide +kernel

theorem test_plusWord_V42_19 :
    afterStep (vector [0x63, 0x00] [0x07, 0x00, 0x00, 0x00, 0x00, 0x00, 0x00, 0x00] 0 2) =
      some (.haltedError .stackUnderflow, 0, []) := by
  decide +kernel

theorem test_subByte_V42_08 :
    afterStep (vector [0x65, 0x00] [0x03, 0x05] 0 2) =
      some (.running, 1, [0xFE]) := by
  decide +kernel

theorem test_subByte_V42_21 :
    afterStep (vector [0x65, 0x00] [0x05] 0 2) =
      some (.haltedError .stackUnderflow, 0, []) := by
  decide +kernel

theorem test_subHword_V42_09 :
    afterStep (vector [0x66, 0x00] [0x00, 0x00, 0x00, 0x00, 0x01, 0x00, 0x00, 0x00] 0 2) =
      some (.running, 1, [0xFF, 0xFF, 0xFF, 0xFF]) := by
  decide +kernel

theorem test_subWord_V42_10 :
    afterStep (vector [0x67, 0x00] [0x00, 0x00, 0x00, 0x00, 0x00, 0x00, 0x00, 0x00, 0x01, 0x00, 0x00, 0x00, 0x00, 0x00, 0x00, 0x00] 0 2) =
      some (.running, 1, [0xFF, 0xFF, 0xFF, 0xFF, 0xFF, 0xFF, 0xFF, 0xFF]) := by
  decide +kernel

theorem test_multByte_V42_13 :
    afterStep (vector [0x69, 0x00] [0xFF, 0xFF] 0 2) =
      some (.running, 1, [0x01]) := by
  decide +kernel

theorem test_multHword_V42_15 :
    afterStep (vector [0x6A, 0x00] [0xFF, 0xFF, 0xFF, 0xFF, 0x02, 0x00, 0x00, 0x00] 0 2) =
      some (.running, 1, [0xFE, 0xFF, 0xFF, 0xFF]) := by
  decide +kernel

theorem test_multHword_V42_22 :
    afterStep (vector [0x6A, 0x00] [0x00, 0x00, 0x00, 0x00, 0x00, 0x00, 0x00] 0 2) =
      some (.haltedError .stackUnderflow, 0, [0x00, 0x00, 0x00]) := by
  decide +kernel

theorem test_multWord_V42_18 :
    afterStep (vector [0x6B, 0x00] [0x01, 0x00, 0x00, 0x00, 0x01, 0x00, 0x00, 0x00, 0x01, 0x00, 0x00, 0x00, 0x01, 0x00, 0x00, 0x00] 0 2) =
      some (.running, 1, [0x01, 0x00, 0x00, 0x00, 0x02, 0x00, 0x00, 0x00]) := by
  decide +kernel

theorem test_notByte_V44_02 :
    afterStep (vector [0x71, 0x00] [0x01] 0 2) =
      some (.running, 1, [0xFE]) := by
  decide +kernel

theorem test_notHword_V44_03 :
    afterStep (vector [0x72, 0x00] [0x00, 0x00, 0x00, 0x00] 0 2) =
      some (.running, 1, [0xFF, 0xFF, 0xFF, 0xFF]) := by
  decide +kernel

theorem test_notWord_V44_04 :
    afterStep (vector [0x73, 0x00] [0xFF, 0x00, 0xFF, 0x00, 0xFF, 0x00, 0xFF, 0x00] 0 2) =
      some (.running, 1, [0x00, 0xFF, 0x00, 0xFF, 0x00, 0xFF, 0x00, 0xFF]) := by
  decide +kernel

theorem test_notWord_V44_05 :
    afterStep (vector [0x73, 0x00] [0x00, 0x00, 0x00, 0x00, 0x00, 0x00, 0x00] 0 2) =
      some (.haltedError .stackUnderflow, 0, [0x00, 0x00, 0x00, 0x00, 0x00, 0x00, 0x00]) := by
  decide +kernel

theorem test_orByte_V44_06 :
    afterStep (vector [0x75, 0x00] [0x0C, 0x0A] 0 2) =
      some (.running, 1, [0x0E]) := by
  decide +kernel

theorem test_andByte_V44_07 :
    afterStep (vector [0x79, 0x00] [0x0C, 0x0A] 0 2) =
      some (.running, 1, [0x08]) := by
  decide +kernel

theorem test_xorByte_V44_08 :
    afterStep (vector [0x7D, 0x00] [0x0C, 0x0A] 0 2) =
      some (.running, 1, [0x06]) := by
  decide +kernel

theorem test_orHword_V44_09 :
    afterStep (vector [0x76, 0x00] [0xF0, 0xF0, 0xF0, 0xF0, 0x0F, 0x0F, 0x0F, 0x0F] 0 2) =
      some (.running, 1, [0xFF, 0xFF, 0xFF, 0xFF]) := by
  decide +kernel

theorem test_andHword_V44_10 :
    afterStep (vector [0x7A, 0x00] [0xF0, 0xF0, 0xF0, 0xF0, 0x0F, 0x0F, 0x0F, 0x0F] 0 2) =
      some (.running, 1, [0x00, 0x00, 0x00, 0x00]) := by
  decide +kernel

theorem test_xorHword_V44_11 :
    afterStep (vector [0x7E, 0x00] [0xEF, 0xBE, 0xAD, 0xDE, 0xEF, 0xBE, 0xAD, 0xDE] 0 2) =
      some (.running, 1, [0x00, 0x00, 0x00, 0x00]) := by
  decide +kernel

theorem test_orWord_V44_12 :
    afterStep (vector [0x77, 0x00] [0x00, 0x00, 0x00, 0x00, 0x00, 0x00, 0x00, 0x80, 0x01, 0x00, 0x00, 0x00, 0x00, 0x00, 0x00, 0x00] 0 2) =
      some (.running, 1, [0x01, 0x00, 0x00, 0x00, 0x00, 0x00, 0x00, 0x80]) := by
  decide +kernel

theorem test_andWord_V44_13 :
    afterStep (vector [0x7B, 0x00] [0xF0, 0xDE, 0xBC, 0x9A, 0x78, 0x56, 0x34, 0x12, 0xFF, 0xFF, 0xFF, 0xFF, 0x00, 0x00, 0x00, 0x00] 0 2) =
      some (.running, 1, [0xF0, 0xDE, 0xBC, 0x9A, 0x00, 0x00, 0x00, 0x00]) := by
  decide +kernel

theorem test_xorWord_V44_14 :
    afterStep (vector [0x7F, 0x00] [0xF0, 0xDE, 0xBC, 0x9A, 0x78, 0x56, 0x34, 0x12, 0xFF, 0xFF, 0xFF, 0xFF, 0xFF, 0xFF, 0xFF, 0xFF] 0 2) =
      some (.running, 1, [0x0F, 0x21, 0x43, 0x65, 0x87, 0xA9, 0xCB, 0xED]) := by
  decide +kernel

theorem test_xorWord_V44_15 :
    afterStep (vector [0x7F, 0x00] [0x01, 0x00, 0x00, 0x00, 0x00, 0x00, 0x00, 0x00] 0 2) =
      some (.haltedError .stackUnderflow, 0, []) := by
  decide +kernel

theorem test_orHword_V44_17 :
    afterStep (vector [0x76, 0x00] [0x00, 0x00, 0x00, 0x00, 0x00, 0x00] 0 2) =
      some (.haltedError .stackUnderflow, 0, [0x00, 0x00]) := by
  decide +kernel

theorem test_eqWord_V43_04 :
    afterStep (vector [0x83, 0x00] [0x05, 0x00, 0x00, 0x00, 0x00, 0x00, 0x00, 0x00] 0 2) =
      some (.haltedError .stackUnderflow, 0, []) := by
  decide +kernel

theorem test_ltChar_V43_05 :
    afterStep (vector [0xA5, 0x00] [] 0 2) =
      some (.haltedError .stackUnderflow, 0, []) := by
  decide +kernel

theorem test_mallocByte_V45_01 :
    let s := vector [0xC1, 0x00, 0x03, 0x00, 0x00, 0x00, 0x00, 0x00, 0x00, 0x00] [] 0 2
    afterStep s = some (.running, 1, [0x01, 0x00, 0x00, 0x00, 0x00, 0x00, 0x00, 0x00]) ∧
      (execute s).heap = [(1, ⟨3, 0, []⟩)] := by
  decide +kernel

theorem test_mallocByte_V45_07 :
    let s := vector [0xC1, 0x00, 0x04, 0x00, 0x00, 0x00, 0x00, 0x00, 0x00, 0x00] [0x00, 0x00, 0x00, 0x00, 0x00, 0x00, 0x00, 0x00, 0x00] 0 2
    afterStep s = some (.haltedError .stackOverflow, 0, [0x00, 0x00, 0x00, 0x00, 0x00, 0x00, 0x00, 0x00, 0x00]) ∧
      (execute s).heap = [(1, ⟨4, 0, []⟩)] := by
  decide +kernel

theorem test_mallocHword_V45_02 :
    let s := { vector [0xC2, 0x00, 0x03, 0x00, 0x00, 0x00, 0x00, 0x00, 0x00, 0x00] [] 0 2 with heap := [(1, ⟨3, 0, []⟩)], hnext := 2 }
    afterStep s = some (.running, 1, [0x02, 0x00, 0x00, 0x00, 0x00, 0x00, 0x00, 0x00]) ∧
      (execute s).heap = [(1, ⟨3, 0, []⟩), (2, ⟨12, 0, []⟩)] := by
  decide +kernel

theorem test_mallocWord_V45_04 :
    let s := { vector [0xC3, 0x00, 0x02, 0x00, 0x00, 0x00, 0x00, 0x00, 0x00, 0x00] [] 0 2 with heapLimit := some 15 }
    afterStep s = some (.haltedError .outOfMemory, 0, []) ∧
      (execute s).heap = [] := by
  decide +kernel

theorem test_mallocWord_V45_05 :
    let s := { vector [0xC3, 0x00, 0x02, 0x00, 0x00, 0x00, 0x00, 0x00, 0x00, 0x00] [] 0 2 with heapLimit := some 16 }
    afterStep s = some (.running, 1, [0x01, 0x00, 0x00, 0x00, 0x00, 0x00, 0x00, 0x00]) ∧
      (execute s).heap = [(1, ⟨16, 0, []⟩)] := by
  decide +kernel

theorem test_msetByte_V45_08 :
    let s := { vector [0xC9, 0x00, 0x01, 0x00, 0x00, 0x00, 0x00, 0x00, 0x00, 0x00] [0x01, 0x00, 0x00, 0x00, 0x00, 0x00, 0x00, 0x00, 0xAB] 0 2 with heap := [(1, ⟨3, 0, []⟩)], hnext := 2 }
    afterStep s = some (.running, 1, []) ∧
      (execute s).heap = [(1, ⟨3, 0, [(1, 0xAB)]⟩)] := by
  decide +kernel

theorem test_msetByte_V45_21 :
    let s := { vector [0xC9, 0x00, 0x03, 0x00, 0x00, 0x00, 0x00, 0x00, 0x00, 0x00] [0x01, 0x00, 0x00, 0x00, 0x00, 0x00, 0x00, 0x00, 0xAB] 0 2 with heap := [(1, ⟨3, 0, [(0, 0x01), (1, 0x02), (2, 0x03)]⟩)], hnext := 2 }
    afterStep s = some (.haltedError .outOfBounds, 0, []) ∧
      (execute s).heap = [(1, ⟨3, 0, [(0, 0x01), (1, 0x02), (2, 0x03)]⟩)] := by
  decide +kernel

theorem test_msetHword_V45_09 :
    let s := { vector [0xCA, 0x00, 0x02, 0x00, 0x00, 0x00, 0x00, 0x00, 0x00, 0x00] [0x01, 0x00, 0x00, 0x00, 0x00, 0x00, 0x00, 0x00, 0xD4, 0xC3, 0xB2, 0xA1] 0 2 with heap := [(1, ⟨12, 0, []⟩)], hnext := 2 }
    afterStep s = some (.running, 1, []) ∧
      (execute s).heap = [(1, ⟨12, 0, [(8, 0xD4), (9, 0xC3), (10, 0xB2), (11, 0xA1)]⟩)] := by
  decide +kernel

theorem test_msetHword_V45_23 :
    let s := { vector [0xCA, 0x00, 0x00, 0x00, 0x00, 0x00, 0x00, 0x00, 0x00, 0x00] [0x44, 0x33, 0x22, 0x11] 0 2 with heap := [(1, ⟨4, 0, [(0, 0x00), (1, 0x00), (2, 0x00), (3, 0x00)]⟩)], hnext := 2 }
    afterStep s = some (.haltedError .stackUnderflow, 0, []) ∧
      (execute s).heap = [(1, ⟨4, 0, [(0, 0x00), (1, 0x00), (2, 0x00), (3, 0x00)]⟩)] := by
  decide +kernel

theorem test_msetWord_V45_10 :
    let s := { vector [0xCB, 0x00, 0x00, 0x00, 0x00, 0x00, 0x00, 0x00, 0x00, 0x00] [0x01, 0x00, 0x00, 0x00, 0x00, 0x00, 0x00, 0x00, 0x08, 0x07, 0x06, 0x05, 0x04, 0x03, 0x02, 0x01] 0 2 with heap := [(1, ⟨8, 0, [(0, 0xEE), (1, 0xEE), (2, 0xEE), (3, 0xEE), (4, 0xEE), (5, 0xEE), (6, 0xEE), (7, 0xEE)]⟩)], hnext := 2 }
    afterStep s = some (.running, 1, []) ∧
      (execute s).heap = [(1, ⟨8, 0, [(0, 0x08), (1, 0x07), (2, 0x06), (3, 0x05), (4, 0x04), (5, 0x03), (6, 0x02), (7, 0x01)]⟩)] := by
  decide +kernel

theorem test_msetWord_V45_22 :
    let s := { vector [0xCB, 0x00, 0x00, 0x00, 0x00, 0x00, 0x00, 0x00, 0x00, 0x00] [0x05, 0x00, 0x00, 0x00, 0x00, 0x00, 0x00, 0x00, 0x01, 0x00, 0x00, 0x00, 0x00, 0x00, 0x00, 0x00] 0 2 with heap := [(1, ⟨8, 0, [(0, 0x00), (1, 0x00), (2, 0x00), (3, 0x00), (4, 0x00), (5, 0x00), (6, 0x00), (7, 0x00)]⟩)], hnext := 2 }
    afterStep s = some (.haltedError .invalidPageAddress, 0, []) ∧
      (execute s).heap = [(1, ⟨8, 0, [(0, 0x00), (1, 0x00), (2, 0x00), (3, 0x00), (4, 0x00), (5, 0x00), (6, 0x00), (7, 0x00)]⟩)] := by
  decide +kernel

theorem test_mgetByte_V45_11 :
    afterStep { vector [0xC5, 0x00, 0x01, 0x00, 0x00, 0x00, 0x00, 0x00, 0x00, 0x00] [0x01, 0x00, 0x00, 0x00, 0x00, 0x00, 0x00, 0x00] 0 2 with heap := [(1, ⟨3, 0, [(0, 0x10), (1, 0xAB), (2, 0x30)]⟩)], hnext := 2 } =
      some (.running, 1, [0xAB]) := by
  decide +kernel

theorem test_mgetByte_V45_20 :
    afterStep { vector [0xC5, 0x00, 0x63, 0x00, 0x00, 0x00, 0x00, 0x00, 0x00, 0x00] [0x07, 0x00, 0x00, 0x00, 0x00, 0x00, 0x00, 0x00] 0 2 with heap := [(1, ⟨1, 0, [(0, 0x00)]⟩)], hnext := 2 } =
      some (.haltedError .invalidPageAddress, 0, []) := by
  decide +kernel

theorem test_mgetHword_V45_12 :
    afterStep { vector [0xC6, 0x00, 0x02, 0x00, 0x00, 0x00, 0x00, 0x00, 0x00, 0x00] [0x01, 0x00, 0x00, 0x00, 0x00, 0x00, 0x00, 0x00] 0 2 with heap := [(1, ⟨12, 0, [(0, 0x00), (1, 0x00), (2, 0x00), (3, 0x00), (4, 0x00), (5, 0x00), (6, 0x00), (7, 0x00), (8, 0xD4), (9, 0xC3), (10, 0xB2), (11, 0xA1)]⟩)], hnext := 2 } =
      some (.running, 1, [0xD4, 0xC3, 0xB2, 0xA1]) := by
  decide +kernel

theorem test_mgetHword_V45_16 :
    afterStep { vector [0xC6, 0x00, 0x01, 0x00, 0x00, 0x00, 0x00, 0x00, 0x00, 0x00] [0x01, 0x00, 0x00, 0x00, 0x00, 0x00, 0x00, 0x00] 0 2 with heap := [(1, ⟨5, 0, [(0, 0x00), (1, 0x00), (2, 0x00), (3, 0x00), (4, 0x00)]⟩)], hnext := 2 } =
      some (.haltedError .outOfBounds, 0, []) := by
  decide +kernel

theorem test_mgetWord_V45_13 :
    afterStep { vector [0xC7, 0x00, 0x00, 0x00, 0x00, 0x00, 0x00, 0x00, 0x00, 0x00] [0x02, 0x00, 0x00, 0x00, 0x00, 0x00, 0x00, 0x00] 0 2 with heap := [(1, ⟨8, 0, [(0, 0x00), (1, 0x00), (2, 0x00), (3, 0x00), (4, 0x00), (5, 0x00), (6, 0x00), (7, 0x00)]⟩), (2, ⟨8, 0, [(0, 0x08), (1, 0x07), (2, 0x06), (3, 0x05), (4, 0x04), (5, 0x03), (6, 0x02), (7, 0x01)]⟩)], hnext := 3 } =
      some (.running, 1, [0x08, 0x07, 0x06, 0x05, 0x04, 0x03, 0x02, 0x01]) := by
  decide +kernel

theorem test_mgetWord_V45_17 :
    afterStep { vector [0xC7, 0x00, 0x00, 0x00, 0x00, 0x00, 0x00, 0x00, 0x00, 0x80] [0x01, 0x00, 0x00, 0x00, 0x00, 0x00, 0x00, 0x00] 0 2 with heap := [(1, ⟨8, 0, [(0, 0x00), (1, 0x00), (2, 0x00), (3, 0x00), (4, 0x00), (5, 0x00), (6, 0x00), (7, 0x00)]⟩)], hnext := 2 } =
      some (.haltedError .outOfBounds, 0, []) := by
  decide +kernel

theorem test_msize_V45_26 :
    afterStep { vector [0xD0, 0x00] [0x01, 0x00, 0x00, 0x00, 0x00, 0x00, 0x00, 0x00] 0 2 with heap := [(1, ⟨12, 0, []⟩)], hnext := 2 } =
      some (.running, 1, [0x0C, 0x00, 0x00, 0x00, 0x00, 0x00, 0x00, 0x00]) := by
  decide +kernel

theorem test_msize_V45_28 :
    afterStep { vector [0xD0, 0x00] [0x02, 0x00, 0x00, 0x00, 0x00, 0x00, 0x00, 0x00] 0 2 with heap := [(1, ⟨1, 0, [(0, 0x00)]⟩)], hnext := 2 } =
      some (.haltedError .invalidPageAddress, 0, []) := by
  decide +kernel

theorem test_mdelete_V45_29 :
    let s := { vector [0xCC, 0x00] [0x01, 0x00, 0x00, 0x00, 0x00, 0x00, 0x00, 0x00] 0 2 with heap := [(1, ⟨4, 0, [(0, 0x01), (1, 0x02), (2, 0x03), (3, 0x04)]⟩), (2, ⟨1, 0, [(0, 0x09)]⟩)], hnext := 3 }
    afterStep s = some (.running, 1, []) ∧
      (execute s).heap = [(2, ⟨1, 0, [(0, 0x09)]⟩)] := by
  decide +kernel

theorem test_mdelete_V45_30 :
    let s := { vector [0xCC, 0x00] [0x01, 0x00, 0x00, 0x00, 0x00, 0x00, 0x00, 0x00] 0 2 with heap := [(2, ⟨1, 0, [(0, 0x09)]⟩)], hnext := 3 }
    afterStep s = some (.haltedError .invalidPageAddress, 0, []) ∧
      (execute s).heap = [(2, ⟨1, 0, [(0, 0x09)]⟩)] := by
  decide +kernel

theorem test_jumpAbs_V46_02 :
    afterStep (vector [0xE0, 0x00, 0x04, 0x00, 0x00, 0x00, 0x00, 0x00, 0x00, 0x00] [] 0 5) =
      some (.running, 4, []) := by
  decide +kernel

theorem test_jumpAbs_V46_03 :
    afterStep (vector [0xE0, 0x00, 0x05, 0x00, 0x00, 0x00, 0x00, 0x00, 0x00, 0x00] [] 0 5) =
      some (.haltedError .invalidProgramAddress, 0, []) := by
  decide +kernel

theorem test_jumpIfByte_V46_06 :
    afterStep (vector [0xE5, 0x00, 0x04, 0x00, 0x00, 0x00, 0x00, 0x00, 0x00, 0x00] [0x80] 1 6) =
      some (.running, 4, []) := by
  decide +kernel

theorem test_jumpIfByte_V46_11 :
    afterStep (vector [0xE5, 0x00, 0x09, 0x00, 0x00, 0x00, 0x00, 0x00, 0x00, 0x00] [0x01] 1 6) =
      some (.haltedError .invalidProgramAddress, 1, []) := by
  decide +kernel

theorem test_jumpIfHword_V46_08 :
    afterStep (vector [0xE6, 0x00, 0x04, 0x00, 0x00, 0x00, 0x00, 0x00, 0x00, 0x00] [0x00, 0x00, 0x01, 0x00] 1 6) =
      some (.running, 4, []) := by
  decide +kernel

theorem test_jumpIfWord_V46_10 :
    afterStep (vector [0xE7, 0x00, 0x04, 0x00, 0x00, 0x00, 0x00, 0x00, 0x00, 0x00] [0x00, 0x00, 0x00, 0x00, 0x00, 0x00, 0x00, 0x80] 1 6) =
      some (.running, 4, []) := by
  decide +kernel

theorem test_jumpIfWord_V46_13 :
    afterStep (vector [0xE7, 0x00, 0x00, 0x00, 0x00, 0x00, 0x00, 0x00, 0x00, 0x00] [0x00, 0x00, 0x00, 0x00, 0x00, 0x00, 0x00] 1 6) =
      some (.haltedError .stackUnderflow, 1, [0x00, 0x00, 0x00, 0x00, 0x00, 0x00, 0x00]) := by
  decide +kernel

theorem test_call_V46_14 :
    let s := vector [0xE8, 0x00, 0x04, 0x00, 0x00, 0x00, 0x00, 0x00, 0x00, 0x00] [] 1 6
    afterStep s = some (.running, 4, []) ∧
      (execute s).csp = 1 := by
  decide +kernel

theorem test_call_V46_17 :
    let s := { vector [0xE8, 0x00, 0x06, 0x00, 0x00, 0x00, 0x00, 0x00, 0x00, 0x00] [] 1 6 with callStack := [(0, 3), (1, 5)], csp := 2 }
    afterStep s = some (.haltedError .callStackOverflow, 1, []) ∧
      (execute s).csp = 2 := by
  decide +kernel

theorem test_ret_V46_22 :
    let s := vector [0xEC, 0x00] [] 4 6
    afterStep s = some (.haltedError .callStackUnderflow, 4, []) ∧
      (execute s).csp = 0 := by
  decide +kernel

theorem test_ret_V46_23 :
    let s := { vector [0xEC, 0x00] [] 4 6 with callStack := [(0, 6)], csp := 1 }
    afterStep s = some (.running, 6, []) ∧
      (execute s).csp = 0 := by
  decide +kernel

theorem test_halt_V46_24 :
    afterStep (vector [0xF0, 0x00] [0x01, 0x02] 1 3) =
      some (.haltedOk, 2, [0x01, 0x02]) := by
  decide +kernel

/-- The byte a comparison with this opcode pushes for two operands of `n` bytes. -/
def compared (opcode : Byte) (n a b : Nat) : Option (List Byte) :=
  (afterStep (vector [opcode, 0] (leBytes n a ++ leBytes n b) 0 2)).map fun r => r.2.2

theorem test_eqByte_matrix :
    [compared 0x81 1 0x80 0x7F, compared 0x81 1 0x2 0x2, compared 0x81 1 0x1 0xFF] =
      [some [0], some [1], some [0]] := by
  decide +kernel

theorem test_ltByte_matrix :
    [compared 0x85 1 0x80 0x7F, compared 0x85 1 0x2 0x2, compared 0x85 1 0x1 0xFF] =
      [some [0], some [0], some [1]] := by
  decide +kernel

theorem test_lteByte_matrix :
    [compared 0x89 1 0x80 0x7F, compared 0x89 1 0x2 0x2, compared 0x89 1 0x1 0xFF] =
      [some [0], some [1], some [1]] := by
  decide +kernel

theorem test_gtByte_matrix :
    [compared 0x8D 1 0x80 0x7F, compared 0x8D 1 0x2 0x2, compared 0x8D 1 0x1 0xFF] =
      [some [1], some [0], some [0]] := by
  decide +kernel

theorem test_gteByte_matrix :
    [compared 0x91 1 0x80 0x7F, compared 0x91 1 0x2 0x2, compared 0x91 1 0x1 0xFF] =
      [some [1], some [1], some [0]] := by
  decide +kernel

theorem test_eqChar_matrix :
    [compared 0xA1 1 0x80 0x7F, compared 0xA1 1 0x2 0x2, compared 0xA1 1 0x1 0xFF] =
      [some [0], some [1], some [0]] := by
  decide +kernel

theorem test_ltChar_matrix :
    [compared 0xA5 1 0x80 0x7F, compared 0xA5 1 0x2 0x2, compared 0xA5 1 0x1 0xFF] =
      [some [1], some [0], some [0]] := by
  decide +kernel

theorem test_lteChar_matrix :
    [compared 0xA9 1 0x80 0x7F, compared 0xA9 1 0x2 0x2, compared 0xA9 1 0x1 0xFF] =
      [some [1], some [1], some [0]] := by
  decide +kernel

theorem test_gtChar_matrix :
    [compared 0xAD 1 0x80 0x7F, compared 0xAD 1 0x2 0x2, compared 0xAD 1 0x1 0xFF] =
      [some [0], some [0], some [1]] := by
  decide +kernel

theorem test_gteChar_matrix :
    [compared 0xB1 1 0x80 0x7F, compared 0xB1 1 0x2 0x2, compared 0xB1 1 0x1 0xFF] =
      [some [0], some [1], some [1]] := by
  decide +kernel

theorem test_eqHword_matrix :
    [compared 0x82 4 0x80000000 0x7FFFFFFF, compared 0x82 4 0x2 0x2, compared 0x82 4 0x1 0xFFFFFFFF] =
      [some [0], some [1], some [0]] := by
  decide +kernel

theorem test_ltHword_matrix :
    [compared 0x86 4 0x80000000 0x7FFFFFFF, compared 0x86 4 0x2 0x2, compared 0x86 4 0x1 0xFFFFFFFF] =
      [some [0], some [0], some [1]] := by
  decide +kernel

theorem test_lteHword_matrix :
    [compared 0x8A 4 0x80000000 0x7FFFFFFF, compared 0x8A 4 0x2 0x2, compared 0x8A 4 0x1 0xFFFFFFFF] =
      [some [0], some [1], some [1]] := by
  decide +kernel

theorem test_gtHword_matrix :
    [compared 0x8E 4 0x80000000 0x7FFFFFFF, compared 0x8E 4 0x2 0x2, compared 0x8E 4 0x1 0xFFFFFFFF] =
      [some [1], some [0], some [0]] := by
  decide +kernel

theorem test_gteHword_matrix :
    [compared 0x92 4 0x80000000 0x7FFFFFFF, compared 0x92 4 0x2 0x2, compared 0x92 4 0x1 0xFFFFFFFF] =
      [some [1], some [1], some [0]] := by
  decide +kernel

theorem test_eqInt_matrix :
    [compared 0xA2 4 0x80000000 0x7FFFFFFF, compared 0xA2 4 0x2 0x2, compared 0xA2 4 0x1 0xFFFFFFFF] =
      [some [0], some [1], some [0]] := by
  decide +kernel

theorem test_ltInt_matrix :
    [compared 0xA6 4 0x80000000 0x7FFFFFFF, compared 0xA6 4 0x2 0x2, compared 0xA6 4 0x1 0xFFFFFFFF] =
      [some [1], some [0], some [0]] := by
  decide +kernel

theorem test_lteInt_matrix :
    [compared 0xAA 4 0x80000000 0x7FFFFFFF, compared 0xAA 4 0x2 0x2, compared 0xAA 4 0x1 0xFFFFFFFF] =
      [some [1], some [1], some [0]] := by
  decide +kernel

theorem test_gtInt_matrix :
    [compared 0xAE 4 0x80000000 0x7FFFFFFF, compared 0xAE 4 0x2 0x2, compared 0xAE 4 0x1 0xFFFFFFFF] =
      [some [0], some [0], some [1]] := by
  decide +kernel

theorem test_gteInt_matrix :
    [compared 0xB2 4 0x80000000 0x7FFFFFFF, compared 0xB2 4 0x2 0x2, compared 0xB2 4 0x1 0xFFFFFFFF] =
      [some [0], some [1], some [1]] := by
  decide +kernel

theorem test_eqWord_matrix :
    [compared 0x83 8 0x8000000000000000 0x7FFFFFFFFFFFFFFF, compared 0x83 8 0x2 0x2, compared 0x83 8 0x1 0xFFFFFFFFFFFFFFFF] =
      [some [0], some [1], some [0]] := by
  decide +kernel

theorem test_ltWord_matrix :
    [compared 0x87 8 0x8000000000000000 0x7FFFFFFFFFFFFFFF, compared 0x87 8 0x2 0x2, compared 0x87 8 0x1 0xFFFFFFFFFFFFFFFF] =
      [some [0], some [0], some [1]] := by
  decide +kernel

theorem test_lteWord_matrix :
    [compared 0x8B 8 0x8000000000000000 0x7FFFFFFFFFFFFFFF, compared 0x8B 8 0x2 0x2, compared 0x8B 8 0x1 0xFFFFFFFFFFFFFFFF] =
      [some [0], some [1], some [1]] := by
  decide +kernel

theorem test_gtWord_matrix :
    [compared 0x8F 8 0x8000000000000000 0x7FFFFFFFFFFFFFFF, compared 0x8F 8 0x2 0x2, compared 0x8F 8 0x1 0xFFFFFFFFFFFFFFFF] =
      [some [1], some [0], some [0]] := by
  decide +kernel

theorem test_gteWord_matrix :
    [compared 0x93 8 0x8000000000000000 0x7FFFFFFFFFFFFFFF, compared 0x93 8 0x2 0x2, compared 0x93 8 0x1 0xFFFFFFFFFFFFFFFF] =
      [some [1], some [1], some [0]] := by
  decide +kernel

theorem test_eqLong_matrix :
    [compared 0xA3 8 0x8000000000000000 0x7FFFFFFFFFFFFFFF, compared 0xA3 8 0x2 0x2, compared 0xA3 8 0x1 0xFFFFFFFFFFFFFFFF] =
      [some [0], some [1], some [0]] := by
  decide +kernel

theorem test_ltLong_matrix :
    [compared 0xA7 8 0x8000000000000000 0x7FFFFFFFFFFFFFFF, compared 0xA7 8 0x2 0x2, compared 0xA7 8 0x1 0xFFFFFFFFFFFFFFFF] =
      [some [1], some [0], some [0]] := by
  decide +kernel

theorem test_lteLong_matrix :
    [compared 0xAB 8 0x8000000000000000 0x7FFFFFFFFFFFFFFF, compared 0xAB 8 0x2 0x2, compared 0xAB 8 0x1 0xFFFFFFFFFFFFFFFF] =
      [some [1], some [1], some [0]] := by
  decide +kernel

theorem test_gtLong_matrix :
    [compared 0xAF 8 0x8000000000000000 0x7FFFFFFFFFFFFFFF, compared 0xAF 8 0x2 0x2, compared 0xAF 8 0x1 0xFFFFFFFFFFFFFFFF] =
      [some [0], some [0], some [1]] := by
  decide +kernel

theorem test_gteLong_matrix :
    [compared 0xB3 8 0x8000000000000000 0x7FFFFFFFFFFFFFFF, compared 0xB3 8 0x2 0x2, compared 0xB3 8 0x1 0xFFFFFFFFFFFFFFFF] =
      [some [0], some [1], some [1]] := by
  decide +kernel

/-- VE-04 to VE-15: every kind of reserved encoding, with one byte on the stack. -/
theorem test_reserved_opcodes_VE :
    [0x00, 0x10, 0x14, 0x6D, 0xC0, 0xCD, 0xD4, 0xE1, 0xE4, 0xF1, 0xFF, 0xB5].all (fun opcode : Byte =>
      decide (afterStep { vector [] [0x55] 0 2 with program := [⟨opcode, 0x33, 0x1234⟩, ⟨0xF0, 0, 0⟩] } =
        some (.haltedError .invalidOpcode, 0, [0x55]))) = true := by
  decide +kernel

/-- VE-02: `ip` = PLEN = 3; the register STATUS then reads 0xC2. -/
theorem test_end_of_program_VE_02 :
    afterStep { State.reset with ip := 3, program := List.replicate 3 ⟨0xF0, 0, 0⟩ } =
        some (.haltedError .endOfProgram, 3, []) ∧
      statusRegister { State.reset with status := .haltedError .endOfProgram } = 0xC2 := by
  decide +kernel

/-- VE-17: a faulted machine stays as it is. -/
theorem test_halted_VE_17 :
    let s : State := { vector [0x33, 0x00] [] 0 1 with status := .haltedError .stackUnderflow }
    afterStep s = none ∧ execute s = s := by
  decide +kernel

/-! ## Witnesses: for every statement with hypotheses, values that meet them, clause by clause at a boundary -/

/-- A stack of `n` zero bytes. -/
def filled (n : Nat) : State :=
  vector [] (List.replicate n 0) 0 2

/-- A stack with the given bytes, and block 1 holding `heap`. -/
def withBlock (stack heap : List Byte) : State :=
  { vector [] stack 0 2 with heap := [(1, blockOfBytes heap)], hnext := 2 }

theorem witness_DecodeReturnsEncodedInstruction :
    (Instr.pushByte 0xFF).wf = true ∧ (Instr.pushHword 0xFFFFFFFF).wf = true ∧ (Instr.movWord 0xFF).wf = true := by
  decide

theorem witness_DecodeStreamInvertsEncodeStream :
    ∀ rec ∈ [(⟨0x11, 0x07, 0xFF⟩ : Record), ⟨0xE8, 0, 0xFFFFFFFFFFFFFFFF⟩, ⟨0xF0, 0, 0⟩], rec.fitsWire = true := by
  decide

theorem witness_EncodeStreamInvertsDecodeStream :
    decodeStream [0x63, 0x7F, 0x11, 0x00, 0xAB] = .ok [⟨0x63, 0x7F, 0⟩, ⟨0x11, 0, 0xAB⟩] := by
  rfl

theorem witness_BadRecordRejectsTheStream :
    encodeStream [⟨0xF0, 0, 0⟩] = some [0xF0, 0x00] ∧ decodeOpcode 0x14 = none ∧
      recordBytes ⟨0x11, 0, 0xAB⟩ = some [0x11, 0x00, 0xAB] ∧ 0 < 1 ∧ 2 < [0x11, 0x00, 0xAB].length ∧
      decodeStream [0xF0] = .error .invalidOpcode := by
  refine ⟨rfl, rfl, rfl, by decide, by decide, rfl⟩

theorem witness_UnusedFieldsAreIgnored :
    decodeOpcode 0x63 = some ⟨.arith, .plus, some .word, false, 0, false⟩ ∧
      (0x1FF : Word).toNat % 2 ^ 8 = (0xFF : Word).toNat % 2 ^ 8 ∧
      (0x1FFFFFFFF : Word).toNat % 2 ^ 32 = (0xFFFFFFFF : Word).toNat % 2 ^ 32 := by
  decide

theorem witness_StepRunsDecodedInstruction :
    let s := vector [0x11, 0x00, 0xAB] [] 1 2
    s.status = .running ∧ s.program[s.ip.toNat]? = some ⟨0x11, 0, 0xAB⟩ ∧
      decodeRecord ⟨0x11, 0, 0xAB⟩ = some (.pushByte 0xAB) ∧ (Instr.pushByte 0xAB).wf = true ∧
      s.program[s.ip.toNat]? = some (encodeRecord (.pushByte 0xAB)) := by
  decide +kernel

theorem witness_EndOfProgramStep :
    let s : State := { State.reset with ip := 3, program := List.replicate 3 ⟨0xF0, 0, 0⟩ }
    s.status = .running ∧ s.program.length ≤ s.ip.toNat ∧
      State.reset.status = .running ∧ State.reset.program.length ≤ State.reset.ip.toNat := by
  decide

theorem witness_InvalidOpcodeStep :
    let s : State := { State.reset with program := [⟨0xFF, 0x33, 0x1234⟩] }
    s.status = .running ∧ s.program[s.ip.toNat]? = some ⟨0xFF, 0x33, 0x1234⟩ ∧ decodeOpcode 0xFF = none := by
  decide

theorem witness_HaltedMachineHasNoSuccessor :
    { State.reset with status := .haltedOk }.status ≠ .running ∧
      { State.reset with status := .haltedError .endOfProgram }.status ≠ .running := by
  decide

theorem witness_RunningMachineAlwaysSteps : State.reset.status = .running := rfl

theorem witness_InstructionPointerTable :
    (State.reset.status = .running ∧ exec .halt State.reset = .next { State.reset with ip := 1, status := .haltedOk } ∧
        ¬ Faulted { State.reset with ip := 1, status := .haltedOk }) ∧
      exec .ret State.reset = .next { State.reset with status := .haltedError .callStackUnderflow } ∧
        Faulted { State.reset with status := .haltedError .callStackUnderflow } := by
  refine ⟨⟨rfl, rfl, ?_⟩, rfl, ⟨_, rfl⟩⟩
  rintro ⟨k, hk⟩
  cases hk

theorem witness_OnlyHaltEndsInSuccess :
    let s := vector [0xF0, 0x00] [] 0 1
    step s = .next { s with ip := 1, status := .haltedOk } ∧ Final { s with ip := 1, status := .haltedOk } :=
  ⟨rfl, rfl⟩

theorem witness_CleanErrorsChangeOnlyStatus :
    Instr.popByte ∈ [Instr.pushByte 0, .pushHword 0, .pushWord 0, .pushRegByte 0, .pushRegHword 0, .pushRegWord 0,
      .popByte, .popHword, .popWord, .movByte 0, .movHword 0, .movWord 0, .dupByte, .dupHword, .dupWord, .notByte,
      .notHword, .notWord, .jumpAbs 0, .call 0, .ret, .halt] ∧
      StackCursorInRange State.reset ∧ State.reset.status = .running ∧
      exec .popByte State.reset = .next { State.reset with status := .haltedError .stackUnderflow } ∧
      { State.reset with status := .haltedError .stackUnderflow }.status = .haltedError .stackUnderflow ∧
      StackCursorInRange (filled 16) :=
  ⟨by simp, by unfold StackCursorInRange; decide, rfl, rfl, rfl, by unfold StackCursorInRange; decide⟩

theorem witness_RunEndsHaltedWhateverTheBudget :
    let s := vector [0xF0, 0x00] [] 0 1
    executeAll 1 s = some { s with ip := 1, status := .haltedOk } ∧
      executeAll 0 { s with status := .haltedOk } = some { s with status := .haltedOk } := by
  decide +kernel

theorem witness_PushImmediateRule :
    ((0x11 : Byte), Width.byte, Instr.pushByte) ∈
      [((0x11 : Byte), Width.byte, Instr.pushByte), (0x12, .hword, .pushHword), (0x13, .word, .pushWord)] ∧
    (filled 15).sp.toNat + 1 ≤ (filled 15).stackMax.toNat ∧
    (filled 16).stackMax.toNat < (filled 16).sp.toNat + 1 := by
  refine ⟨by simp, by decide, by decide⟩

theorem witness_PushRegisterRule :
    ((0x21 : Byte), Width.byte, Instr.pushRegByte, ErrorKind.invalidRegisterByte) ∈
      [((0x21 : Byte), Width.byte, Instr.pushRegByte, ErrorKind.invalidRegisterByte),
        (0x22, .hword, .pushRegHword, .invalidRegisterHWord), (0x23, .word, .pushRegWord, .invalidRegisterWord)] ∧
    (filled 15).regs[(3 : Byte).toNat]? = some 0 ∧ (filled 15).sp.toNat + 1 ≤ (filled 15).stackMax.toNat ∧
    State.reset.regs.length ≤ (4 : Byte).toNat ∧
    (3 : Byte).toNat < (filled 16).regs.length ∧ (filled 16).stackMax.toNat < (filled 16).sp.toNat + 1 := by
  refine ⟨by simp, by decide, by decide, by decide, by decide, by decide⟩

theorem witness_PopRule :
    ((0x31 : Byte), Width.byte, Instr.popByte) ∈
      [((0x31 : Byte), Width.byte, Instr.popByte), (0x32, .hword, .popHword), (0x33, .word, .popWord)] ∧
    1 ≤ (filled 1).sp.toNat ∧ (filled 0).sp.toNat < 1 := by
  refine ⟨by simp, by decide, by decide⟩

theorem witness_MoveRule :
    ((0x41 : Byte), Width.byte, Instr.movByte, ErrorKind.invalidRegisterByte) ∈
      [((0x41 : Byte), Width.byte, Instr.movByte, ErrorKind.invalidRegisterByte),
        (0x42, .hword, .movHword, .invalidRegisterHWord), (0x43, .word, .movWord, .invalidRegisterWord)] ∧
    (filled 1).regs[(3 : Byte).toNat]? = some 0 ∧ 1 ≤ (filled 1).sp.toNat ∧
    State.reset.regs.length ≤ (4 : Byte).toNat ∧ (3 : Byte).toNat < (filled 0).regs.length ∧ (filled 0).sp.toNat < 1 := by
  refine ⟨by simp, by decide, by decide, by decide, by decide, by decide⟩

theorem witness_DuplicateRule :
    ((0x51 : Byte), Width.byte, Instr.dupByte) ∈
      [((0x51 : Byte), Width.byte, Instr.dupByte), (0x52, .hword, .dupHword), (0x53, .word, .dupWord)] ∧
    1 ≤ (filled 15).sp.toNat ∧ (filled 15).sp.toNat + 1 ≤ (filled 15).stackMax.toNat ∧
    (filled 0).sp.toNat < 1 ∧
    1 ≤ (filled 16).sp.toNat ∧ (filled 16).stackMax.toNat < (filled 16).sp.toNat + 1 := by
  refine ⟨by simp, by decide, by decide, by decide, by decide, by decide⟩

theorem witness_LittleEndianAccess : 7 < Width.word.bytes ∧ (99 < 100 ∨ 100 + Width.word.bytes ≤ 99) ∧
    (108 < 100 ∨ 100 + Width.word.bytes ≤ 108) := by
  decide

theorem witness_MixedWidthPops :
    (filled 15).sp.toNat + Width.byte.bytes ≤ (filled 15).stackMax.toNat ∧
      (filled 8).sp.toNat + 8 ≤ (filled 8).stackMax.toNat ∧ 7 < 8 := by
  decide

theorem witness_ArithmeticRule :
    ((0x61 : Byte), Width.byte, Instr.plusByte, fun m a b : Nat => (a + b) % m) ∈
      [((0x61 : Byte), Width.byte, Instr.plusByte, fun m a b : Nat => (a + b) % m),
        (0x62, .hword, .plusHword, fun m a b => (a + b) % m), (0x63, .word, .plusWord, fun m a b => (a + b) % m),
        (0x65, .byte, .subByte, fun m a b => if b ≤ a then a - b else a + m - b),
        (0x66, .hword, .subHword, fun m a b => if b ≤ a then a - b else a + m - b),
        (0x67, .word, .subWord, fun m a b => if b ≤ a then a - b else a + m - b),
        (0x69, .byte, .multByte, fun m a b => a * b % m), (0x6A, .hword, .multHword, fun m a b => a * b % m),
        (0x6B, .word, .multWord, fun m a b => a * b % m)] ∧
    2 * 1 ≤ (filled 2).sp.toNat ∧ StackCursorInRange (filled 2) ∧ 2 * 1 ≤ (filled 16).sp.toNat ∧
    StackCursorInRange (filled 16) ∧ (filled 0).sp.toNat < 1 ∧ 1 ≤ (filled 1).sp.toNat ∧ (filled 1).sp.toNat < 2 * 1 := by
  unfold StackCursorInRange
  refine ⟨List.mem_cons_self, by decide, by decide, by decide, by decide, by decide, by decide, by decide⟩

theorem witness_BitwiseRule :
    ((0x75 : Byte), Width.byte, Instr.orByte, or) ∈
      [((0x75 : Byte), Width.byte, Instr.orByte, or), (0x76, .hword, .orHword, or), (0x77, .word, .orWord, or),
        (0x79, .byte, .andByte, and), (0x7A, .hword, .andHword, and), (0x7B, .word, .andWord, and),
        (0x7D, .byte, .xorByte, xor), (0x7E, .hword, .xorHword, xor), (0x7F, .word, .xorWord, xor)] ∧
    2 * 1 ≤ (filled 2).sp.toNat ∧ StackCursorInRange (filled 2) ∧ 2 * 1 ≤ (filled 16).sp.toNat ∧
    StackCursorInRange (filled 16) ∧ (filled 0).sp.toNat < 1 ∧ 1 ≤ (filled 1).sp.toNat ∧ (filled 1).sp.toNat < 2 * 1 := by
  unfold StackCursorInRange
  refine ⟨List.mem_cons_self, by decide, by decide, by decide, by decide, by decide, by decide, by decide⟩

theorem witness_UnsignedEqualAndLessRule :
    ((0x81 : Byte), Width.byte, Instr.eqByte, fun a b : Nat => a == b) ∈
      [((0x81 : Byte), Width.byte, Instr.eqByte, fun a b : Nat => a == b),
        (0x82, .hword, .eqHword, fun a b => a == b), (0x83, .word, .eqWord, fun a b => a == b),
        (0x85, .byte, .ltByte, fun a b => decide (a < b)), (0x86, .hword, .ltHword, fun a b => decide (a < b)),
        (0x87, .word, .ltWord, fun a b => decide (a < b)), (0x89, .byte, .lteByte, fun a b => decide (a ≤ b)),
        (0x8A, .hword, .lteHword, fun a b => decide (a ≤ b)), (0x8B, .word, .lteWord, fun a b => decide (a ≤ b))] ∧
    2 * 1 ≤ (filled 2).sp.toNat ∧ StackCursorInRange (filled 2) ∧ 2 * 1 ≤ (filled 16).sp.toNat ∧
    StackCursorInRange (filled 16) ∧ (filled 0).sp.toNat < 1 ∧ 1 ≤ (filled 1).sp.toNat ∧ (filled 1).sp.toNat < 2 * 1 := by
  unfold StackCursorInRange
  refine ⟨List.mem_cons_self, by decide, by decide, by decide, by decide, by decide, by decide, by decide⟩

theorem witness_UnsignedGreaterRule :
    ((0x8D : Byte), Width.byte, Instr.gtByte, fun a b : Nat => decide (a > b)) ∈
      [((0x8D : Byte), Width.byte, Instr.gtByte, fun a b : Nat => decide (a > b)),
        (0x8E, .hword, .gtHword, fun a b => decide (a > b)), (0x8F, .word, .gtWord, fun a b => decide (a > b)),
        (0x91, .byte, .gteByte, fun a b => decide (a ≥ b)), (0x92, .hword, .gteHword, fun a b => decide (a ≥ b)),
        (0x93, .word, .gteWord, fun a b => decide (a ≥ b))] ∧
    2 * 1 ≤ (filled 2).sp.toNat ∧ StackCursorInRange (filled 2) ∧ 2 * 1 ≤ (filled 16).sp.toNat ∧
    StackCursorInRange (filled 16) ∧ (filled 0).sp.toNat < 1 ∧ 1 ≤ (filled 1).sp.toNat ∧ (filled 1).sp.toNat < 2 * 1 := by
  unfold StackCursorInRange
  refine ⟨List.mem_cons_self, by decide, by decide, by decide, by decide, by decide, by decide, by decide⟩

theorem witness_SignedEqualAndLessRule :
    ((0xA1 : Byte), Width.byte, Instr.eqChar, fun a b : Int => a == b) ∈
      [((0xA1 : Byte), Width.byte, Instr.eqChar, fun a b : Int => a == b),
        (0xA2, .hword, .eqInt, fun a b => a == b), (0xA3, .word, .eqLong, fun a b => a == b),
        (0xA5, .byte, .ltChar, fun a b => decide (a < b)), (0xA6, .hword, .ltInt, fun a b => decide (a < b)),
        (0xA7, .word, .ltLong, fun a b => decide (a < b)), (0xA9, .byte, .lteChar, fun a b => decide (a ≤ b)),
        (0xAA, .hword, .lteInt, fun a b => decide (a ≤ b)), (0xAB, .word, .lteLong, fun a b => decide (a ≤ b))] ∧
    2 * 1 ≤ (filled 2).sp.toNat ∧ StackCursorInRange (filled 2) ∧ 2 * 1 ≤ (filled 16).sp.toNat ∧
    StackCursorInRange (filled 16) ∧ (filled 0).sp.toNat < 1 ∧ 1 ≤ (filled 1).sp.toNat ∧ (filled 1).sp.toNat < 2 * 1 := by
  unfold StackCursorInRange
  refine ⟨List.mem_cons_self, by decide, by decide, by decide, by decide, by decide, by decide, by decide⟩

theorem witness_SignedGreaterRule :
    ((0xAD : Byte), Width.byte, Instr.gtChar, fun a b : Int => decide (a > b)) ∈
      [((0xAD : Byte), Width.byte, Instr.gtChar, fun a b : Int => decide (a > b)),
        (0xAE, .hword, .gtInt, fun a b => decide (a > b)), (0xAF, .word, .gtLong, fun a b => decide (a > b)),
        (0xB1, .byte, .gteChar, fun a b => decide (a ≥ b)), (0xB2, .hword, .gteInt, fun a b => decide (a ≥ b)),
        (0xB3, .word, .gteLong, fun a b => decide (a ≥ b))] ∧
    2 * 1 ≤ (filled 2).sp.toNat ∧ StackCursorInRange (filled 2) ∧ 2 * 1 ≤ (filled 16).sp.toNat ∧
    StackCursorInRange (filled 16) ∧ (filled 0).sp.toNat < 1 ∧ 1 ≤ (filled 1).sp.toNat ∧ (filled 1).sp.toNat < 2 * 1 := by
  unfold StackCursorInRange
  refine ⟨List.mem_cons_self, by decide, by decide, by decide, by decide, by decide, by decide, by decide⟩

theorem witness_NotRule :
    ((0x71 : Byte), Width.byte, Instr.notByte) ∈
      [((0x71 : Byte), Width.byte, Instr.notByte), (0x72, .hword, .notHword), (0x73, .word, .notWord)] ∧
    1 ≤ (filled 1).sp.toNat ∧ StackCursorInRange (filled 1) ∧ 1 ≤ (filled 16).sp.toNat ∧
    StackCursorInRange (filled 16) ∧ (filled 0).sp.toNat < 1 := by
  unfold StackCursorInRange
  refine ⟨by simp, by decide, by decide, by decide, by decide, by decide⟩

theorem witness_MinusOneAgainstOne :
    (Width.byte, Instr.ltChar, Instr.ltByte, Instr.gtByte) ∈
      [(Width.byte, Instr.ltChar, Instr.ltByte, Instr.gtByte), (.hword, .ltInt, .ltHword, .gtHword),
        (.word, .ltLong, .ltWord, .gtWord)] ∧
    2 * 1 ≤ (vector [] [0xFF, 0x01] 0 2).sp.toNat ∧ StackCursorInRange (vector [] [0xFF, 0x01] 0 2) ∧
    (leftOperand .byte (vector [] [0xFF, 0x01] 0 2)).toNat = 2 ^ 8 - 1 ∧
    (rightOperand .byte (vector [] [0xFF, 0x01] 0 2)).toNat = 1 := by
  unfold StackCursorInRange
  refine ⟨by simp, by decide, by decide, by decide +kernel, by decide +kernel⟩

theorem witness_AllocateRule :
    ((0xC1 : Byte), Width.byte, Instr.mallocByte) ∈
      [((0xC1 : Byte), Width.byte, Instr.mallocByte), (0xC2, .hword, .mallocHword), (0xC3, .word, .mallocWord)] ∧
    AllocationRefused ((0x2000000000000000 : Word).toNat * 8) State.reset ∧
    ¬ AllocationRefused ((3 : Word).toNat * 1) (filled 8) ∧
    allocHandle (filled 8) = some (1, { filled 8 with hnext := 2 }) ∧
    (filled 8).sp.toNat + 8 ≤ (filled 8).stackMax.toNat ∧
    ¬ AllocationRefused ((4 : Word).toNat * 1) (filled 9) ∧
    allocHandle (filled 9) = some (1, { filled 9 with hnext := 2 }) ∧
    (filled 9).stackMax.toNat < (filled 9).sp.toNat + 8 := by
  have h8 : allocHandle (filled 8) = some (1, { filled 8 with hnext := 2 }) := rfl
  have h9 : allocHandle (filled 9) = some (1, { filled 9 with hnext := 2 }) := rfl
  refine ⟨by simp, .inl (by decide), ?_, h8, by decide, ?_, h9, by decide⟩
  · rintro (h | ⟨_, h, _⟩ | h)
    · exact absurd h (by decide)
    · cases h
    · rw [h8] at h; cases h
  · rintro (h | ⟨_, h, _⟩ | h)
    · exact absurd h (by decide)
    · cases h
    · rw [h9] at h; cases h

theorem witness_SequentialAllocation :
    (Width.byte, Instr.mallocByte) ∈
      [(Width.byte, Instr.mallocByte), (.hword, .mallocHword), (.word, .mallocWord)] ∧
    (∀ s ∈ [{ filled 8 with hnext := 0xFFFFFFFFFFFFFFFE, heapLimit := some 3 }],
      s.alloc = .seq ∧ s.hnext.toNat < 2 ^ 64 - 1 ∧ (3 : Word).toNat * 1 < 2 ^ 64 ∧
      (∀ limit, s.heapLimit = some limit → liveBytes s + (3 : Word).toNat * 1 ≤ limit) ∧
      s.sp.toNat + 8 ≤ s.stackMax.toNat) ∧
    { State.reset with hnext := 0xFFFFFFFFFFFFFFFF }.alloc = .seq ∧
    { State.reset with hnext := 0xFFFFFFFFFFFFFFFF }.hnext.toNat = 2 ^ 64 - 1 := by
  refine ⟨by simp, ?_, rfl, by decide⟩
  intro s hs
  rw [List.mem_singleton] at hs
  subst hs
  refine ⟨rfl, by decide, by decide, ?_, by decide⟩
  intro limit h
  cases h
  decide

/-- A state with the invariant: after two allocations and one deletion, about to run MDELETE on handle 2. -/
def oneOfTwoLive : State :=
  { vector [0xCC, 0x00] [0x02, 0, 0, 0, 0, 0, 0, 0] 0 2 with heap := [(2, ⟨1, 0, []⟩)], hnext := 3, draws := 2 }

theorem inv_oneOfTwoLive : Inv oneOfTwoLive where
  sp := by show 8 ≤ 16; decide
  csp := by show 0 ≤ 2; decide
  canonical := ⟨by decide, by decide, by decide, by decide⟩
  stackBytes := ⟨by decide, by decide⟩
  callEntries := ⟨by decide, by intro i hi; exact absurd hi (Nat.not_lt_zero i)⟩
  heapBytes := by intro e he; rw [List.mem_singleton.mp he]; exact ⟨by decide, by decide⟩
  limit := by intro n h; cases h
  handles := by intro _; exact ⟨by decide, by decide⟩
  ip := Nat.zero_le _
  bounds := ⟨by decide, by decide⟩

theorem witness_AllocatedHandleIsNotLive :
    Inv oneOfTwoLive ∧ allocHandle oneOfTwoLive = some (3, { oneOfTwoLive with hnext := 4 }) ∧
      oneOfTwoLive.alloc = .seq :=
  ⟨inv_oneOfTwoLive, rfl, rfl⟩

theorem witness_OutOfMemoryInExactlyThreeCases :
    (Width.byte, Instr.mallocByte) ∈
      [(Width.byte, Instr.mallocByte), (.hword, .mallocHword), (.word, .mallocWord)] ∧
    State.reset.status = .running ∧
    exec (.mallocWord 0x2000000000000000) State.reset = .next { State.reset with status := .haltedError .outOfMemory } := by
  refine ⟨by simp, rfl, rfl⟩

theorem witness_GetElementRule :
    ((0xC5 : Byte), Width.byte, Instr.mgetByte) ∈
      [((0xC5 : Byte), Width.byte, Instr.mgetByte), (0xC6, .hword, .mgetHword), (0xC7, .word, .mgetWord)] ∧
    (let s := withBlock [0x01, 0, 0, 0, 0, 0, 0, 0] [0x10, 0xAB, 0x30];
      8 ≤ s.sp.toNat ∧ blockOf s (rightOperand .word s) = some (blockOfBytes [0x10, 0xAB, 0x30]) ∧
        (2 : Word).toNat * 1 + 1 ≤ (blockOfBytes [0x10, 0xAB, 0x30]).size.toNat ∧ s.sp.toNat ≤ s.stackMax.toNat ∧
        (blockOfBytes [0x10, 0xAB, 0x30]).size.toNat < (3 : Word).toNat * 1 + 1) ∧
    (8 ≤ (filled 8).sp.toNat ∧ blockOf (filled 8) (rightOperand .word (filled 8)) = none) ∧ (filled 7).sp.toNat < 8 := by
  refine ⟨by simp, by decide +kernel, by decide +kernel, by decide⟩

theorem witness_SetElementRule :
    ((0xC9 : Byte), Width.byte, Instr.msetByte) ∈
      [((0xC9 : Byte), Width.byte, Instr.msetByte), (0xCA, .hword, .msetHword), (0xCB, .word, .msetWord)] ∧
    (let s := withBlock [0x01, 0, 0, 0, 0, 0, 0, 0, 0x55] [0x10, 0xAB, 0x30];
      1 + 8 ≤ s.sp.toNat ∧ (1 : Word) = stackValue s (s.sp.toNat - (1 + 8)) .word ∧
        blockOf s 1 = some (blockOfBytes [0x10, 0xAB, 0x30]) ∧
        (2 : Word).toNat * 1 + 1 ≤ (blockOfBytes [0x10, 0xAB, 0x30]).size.toNat ∧
        (blockOfBytes [0x10, 0xAB, 0x30]).size.toNat < (3 : Word).toNat * 1 + 1) ∧
    (1 + 8 ≤ (filled 9).sp.toNat ∧ (0 : Word) = stackValue (filled 9) ((filled 9).sp.toNat - (1 + 8)) .word ∧
      blockOf (filled 9) 0 = none) ∧
    (filled 0).sp.toNat < 1 ∧ 1 ≤ (filled 8).sp.toNat ∧ (filled 8).sp.toNat < 1 + 8 := by
  refine ⟨by simp, by decide +kernel, by decide +kernel, by decide, by decide, by decide⟩

theorem witness_DeleteRule :
    (let s := withBlock [0x01, 0, 0, 0, 0, 0, 0, 0] [0x10, 0xAB, 0x30];
      8 ≤ s.sp.toNat ∧ (blockOf s (rightOperand .word s)).isSome = true) ∧
    (8 ≤ (filled 8).sp.toNat ∧ blockOf (filled 8) (rightOperand .word (filled 8)) = none) ∧ (filled 7).sp.toNat < 8 := by
  decide +kernel

theorem witness_SizeRule :
    (let s := withBlock [0x01, 0, 0, 0, 0, 0, 0, 0] [];
      8 ≤ s.sp.toNat ∧ blockOf s (rightOperand .word s) = some (blockOfBytes []) ∧ s.sp.toNat ≤ s.stackMax.toNat) ∧
    (8 ≤ (filled 8).sp.toNat ∧ blockOf (filled 8) (rightOperand .word (filled 8)) = none) ∧ (filled 7).sp.toNat < 8 := by
  decide +kernel

theorem witness_HeapReadAfterWrite :
    (∃ t, heapWrite (w := .byte) 1 1 (0x55 : BitVec 8) (withBlock [] [0x10, 0xAB, 0x30]) = .ok () t) ∧
      ((1 : Word) ≠ 1 ∨ 0 + Width.byte.bytes ≤ 1 ∨ 1 + Width.byte.bytes ≤ 0) ∧
      heapRead 1 0 .byte (withBlock [] [0x10, 0xAB, 0x30]) = .ok (0x10 : BitVec 8) (withBlock [] [0x10, 0xAB, 0x30]) ∧
      ((1 : Word) ≠ 1 ∨ 3 + Width.byte.bytes ≤ 1 ∨ 1 + Width.byte.bytes ≤ 3) ∧
      heapRead 1 3 .byte (withBlock [] [0x10, 0xAB, 0x30]) = .raised .outOfBounds (withBlock [] [0x10, 0xAB, 0x30]) ∧
      (2 : Word) ≠ 1 ∧
      heapRead 2 0 .byte (withBlock [] [0x10, 0xAB, 0x30]) = .raised .invalidPageAddress (withBlock [] [0x10, 0xAB, 0x30]) := by
  refine ⟨⟨_, rfl⟩, by decide, rfl, by decide, rfl, by decide, rfl⟩

theorem witness_DeletedHandleIsInvalid :
    blockOf (withBlock [] [0x10, 0xAB, 0x30]) 0 = none ∧ (blockOf (withBlock [] [0x10, 0xAB, 0x30]) 1).isSome = true ∧ (2 : Word) ≠ 1 := by
  decide +kernel

theorem witness_HandlesAreNeverReused :
    let s := oneOfTwoLive
    Inv s ∧ s.alloc = .seq ∧ step s = .next { s with sp := 0, ip := 1, heap := [] } ∧
      (1 : Word).toNat < s.hnext.toNat ∧ blockOf s 1 = none :=
  ⟨inv_oneOfTwoLive, rfl, rfl, by decide, rfl⟩

theorem witness_JumpRule :
    (1 : Word).toNat < (filled 0).program.length ∧ (filled 0).program.length ≤ (2 : Word).toNat := by
  decide

theorem witness_JumpIfRule :
    ((0xE5 : Byte), Width.byte, Instr.jumpIfByte) ∈
      [((0xE5 : Byte), Width.byte, Instr.jumpIfByte), (0xE6, .hword, .jumpIfHword), (0xE7, .word, .jumpIfWord)] ∧
    (let s := vector [] [0x80] 0 2;
      1 ≤ s.sp.toNat ∧ (rightOperand .byte s).toNat ≠ 0 ∧ (1 : Word).toNat < s.program.length ∧
        s.program.length ≤ (2 : Word).toNat) ∧
    (1 ≤ (filled 1).sp.toNat ∧ (rightOperand .byte (filled 1)).toNat = 0) ∧ (filled 0).sp.toNat < 1 := by
  refine ⟨by simp, by decide +kernel, by decide +kernel, by decide⟩

theorem witness_CallRule :
    (let s : State := { filled 0 with csp := 1 };
      s.csp ≠ s.callMax ∧ (1 : Word).toNat < s.program.length ∧ s.program.length ≤ (2 : Word).toNat ∧
        0 ≠ s.csp.toNat) ∧
      { filled 0 with csp := 2 }.csp = { filled 0 with csp := 2 }.callMax := by
  decide

theorem witness_ReturnRule : { filled 0 with csp := 1 }.csp ≠ 0 ∧ (filled 0).csp = 0 := by
  decide

theorem witness_CallThenReturn :
    { filled 0 with csp := 1 }.csp.toNat < (filled 0).callMax.toNat ∧ (1 : Word).toNat < (filled 0).program.length := by
  decide

theorem witness_StepKeepsInvariant :
    Inv oneOfTwoLive ∧
      step oneOfTwoLive = .next { oneOfTwoLive with sp := 0, ip := 1, heap := [] } :=
  ⟨inv_oneOfTwoLive, rfl⟩

/-- A launch with four registers, one loaded block, a limit it just meets, and one record. -/
def smallLaunch : Launch :=
  Launch.construct |>.loadStack 16 |>.loadRegisterCount 4 |>.loadHeapBlocks [(5, [0x07])] (some 1) |>.loadCallStack 2
    |>.loadRecords [⟨0xF0, 0, 0⟩]

theorem valid_smallLaunch : smallLaunch.Valid where
  registers := by decide
  program := by decide
  heap := by decide
  handles := by decide
  blocks := by decide
  limit := by intro n h; cases h; decide

theorem witness_EveryLaunchHasInvariant : smallLaunch.Valid :=
  valid_smallLaunch

theorem witness_StepKeepsCanonicalStorage :
    CanonicalStorage oneOfTwoLive ∧
      step oneOfTwoLive = .next { oneOfTwoLive with sp := 0, ip := 1, heap := [] } :=
  ⟨inv_oneOfTwoLive.canonical, rfl⟩

theorem witness_ProgramAndParametersNeverChange :
    step (vector [0x31, 0x00] [0x07] 0 1) = .next { vector [0x31, 0x00] [0x07] 0 1 with sp := 0, ip := 1 } := by
  rfl

theorem witness_RegistersOnlyThroughPushRegAndMov :
    (∃ t, exec (.movByte 3) (vector [] [0x07] 0 1) = .next t ∧ t.regs ≠ (vector [] [0x07] 0 1).regs) ∧
      ∀ r : Byte, Instr.popByte ∉ [Instr.pushRegByte r, .pushRegHword r, .pushRegWord r, .movByte r, .movHword r, .movWord r] := by
  exact ⟨⟨_, rfl, by decide +kernel⟩, by simp⟩

theorem witness_WhoWritesWhat :
    (∃ t, exec .ret { filled 0 with csp := 1 } = .next t ∧ t.csp ≠ 1) ∧
      (∃ t, exec (.call 0) (filled 0) = .next t ∧ t.callStack ≠ [] ∧ t.csp ≠ 0) ∧
      (∃ t, exec (.mallocByte 1) (filled 0) = .next t ∧ t.heap ≠ [] ∧ t.hnext ≠ 1) ∧
      (∃ t, exec (.pushByte 7) (filled 0) = .next t ∧ t.stack ≠ [] ∧ t.sp ≠ 0) := by
  refine ⟨⟨_, rfl, by decide +kernel⟩, ⟨_, rfl, by decide +kernel, by decide +kernel⟩,
    ⟨_, rfl, by decide +kernel, by decide +kernel⟩, ⟨_, rfl, by decide +kernel, by decide +kernel⟩⟩

theorem witness_BytesAboveCursorsDoNotMatter :
    AgreeBelowCursors (filled 1) { filled 1 with stack := [(0, 0), (1, 0x55)], callStack := [(0, 1)] } ∧
      filled 1 ≠ { filled 1 with stack := [(0, 0), (1, 0x55)], callStack := [(0, 1)] } := by
  refine ⟨⟨rfl, ?_, ?_⟩, by decide⟩
  · intro a ha
    have h : a < 1 := ha
    interval_cases a
    rfl
  · intro i hi
    exact absurd hi (Nat.not_lt_zero i)

theorem witness_LaunchState :
    (smallLaunch.Valid ∧ smallLaunch.rejected = false ∧ smallLaunch.heap ≠ []) ∧
      (smallLaunch.loadEmptyHeap none).Valid ∧ (smallLaunch.loadEmptyHeap none).rejected = false ∧
      (smallLaunch.loadEmptyHeap none).heap = [] := by
  refine ⟨⟨valid_smallLaunch, rfl, by decide⟩, ⟨by decide, by decide, by decide, by decide, by decide, ?_⟩, rfl, rfl⟩
  intro n h
  cases h

theorem witness_ProgramLoad :
    decodeStream [0xF0, 0x00] = .ok [⟨0xF0, 0, 0⟩] ∧ decodeStream [0xF0, 0x00, 0x14, 0x00] = .error .invalidOpcode :=
  ⟨rfl, rfl⟩

theorem witness_StatusRegisterLayout :
    State.reset.status = .running ∧ { State.reset with status := .haltedOk }.status = .haltedOk ∧
      (ErrorKind.outOfMemory, 13) ∈ [(ErrorKind.stackOverflow, 1), (.stackUnderflow, 2), (.callStackOverflow, 3),
        (.callStackUnderflow, 4), (.invalidOpcode, 5), (.invalidRegisterByte, 6), (.invalidRegisterHWord, 7),
        (.invalidRegisterWord, 8), (.invalidProgramAddress, 9), (.invalidPageAddress, 10), (.outOfBounds, 11),
        (.endOfProgram, 12), (.outOfMemory, 13)] ∧
      { State.reset with status := .haltedError .outOfMemory }.status = .haltedError .outOfMemory := by
  refine ⟨rfl, rfl, by simp, rfl⟩

end Sys2Proof.Tests
end

section
/-! PROOFS of the statements of 00_scope.md: what reset latches is constant over every step. -/

namespace Sys2Proof.Machine

/-! ## What reset latches -/

/-- What reset latches for the whole run: the program (10_state.md R27) and the launch parameters of 00_scope.md R6. -/
structure Latched where
  program : List Record
  stackMax : Word
  callMax : Word
  heapLimit : Option Nat
  alloc : AllocPolicy
  nreg : Nat

/-- The latched part of a state; NREG is the number of register cells (10_state.md R22). -/
def State.latched (s : State) : Latched :=
  ⟨s.program, s.stackMax, s.callMax, s.heapLimit, s.alloc, s.regs.length⟩

theorem State.latched_eq_iff {s t : State} :
    t.latched = s.latched ↔
      t.program = s.program ∧ t.stackMax = s.stackMax ∧ t.callMax = s.callMax ∧ t.heapLimit = s.heapLimit ∧
        t.alloc = s.alloc ∧ t.regs.length = s.regs.length := by
  simp only [State.latched, Latched.mk.injEq]

/-! ## The primitives that write more than a cursor -/

/-- A register write replaces a cell of the file; it makes none and removes none. -/
theorem regWrite_latched {w : Width} (r : Byte) (v : BitVec w.bits) (s : State) :
    (regWrite r v s).latched = s.latched := by
  simp [State.latched]

/-- The policy of an allocation changes `hnext` at most, and the allocation the heap and the draw counter. -/
theorem heapAlloc_latched {n : Nat} {s t : State} {h : Word} (e : heapAlloc n s = .ok h t) :
    t.latched = s.latched := by
  obtain ⟨_, _, u, hu, rfl⟩ := heapAlloc_ok_inv e
  rw [allocHandle_state hu]
  rfl

theorem heapWrite_latched {w : Width} {h : Word} {off : Nat} {v : BitVec w.bits} {s t : State}
    (e : heapWrite h off v s = .ok () t) : t.latched = s.latched := by
  obtain ⟨_, _, _, rfl⟩ := heapWrite_ok_inv e
  rfl

theorem heapDelete_latched {h : Word} {s t : State} (e : heapDelete h s = .ok () t) : t.latched = s.latched := by
  obtain ⟨_, _, rfl⟩ := heapDelete_ok_inv e
  rfl

/-! ## Instructions and steps -/

/-- Every state change an instruction can make carries the latched part along.  Where the change is an update of
other fields, the latched part after it is by definition the one before. -/
theorem carried_latched (l : Latched) : Carried (fun s => s.latched = l) (fun s => s.latched = l) where
  push _ _ h _ := h
  pop _ _ h _ := h
  regWrite r v s h _ := (regWrite_latched r v s).trans h
  heapAlloc _ _ _ _ h e := (heapAlloc_latched e).trans h
  heapWrite _ _ _ _ _ h e := (heapWrite_latched e).trans h
  heapDelete _ _ _ h e := (heapDelete_latched e).trans h
  advance _ h := h
  call _ _ h _ _ := h
  ret _ h _ := h
  jump _ _ h _ := h
  halt _ h := h
  error _ _ h := h

theorem exec_latched {i : Instr} {s t : State} (h : exec i s = .next t) : t.latched = s.latched :=
  (carried_latched s.latched).exec i rfl h

@[simp] theorem takeError_latched (k : ErrorKind) (s : State) : (takeError k s).latched = s.latched := rfl

/-- A step that has a next state takes an error at fetch or decode, or runs one instruction. -/
theorem step_latched {s t : State} (h : step s = .next t) : t.latched = s.latched := by
  rcases step_cases s with ⟨_, halted⟩ | ⟨_, _, endOfProgram⟩ | ⟨_, _, _, _, reserved⟩ | ⟨_, _, _, _, _, runs⟩
  · rw [halted] at h
    cases h
  · rw [endOfProgram] at h
    cases h
    exact takeError_latched _ s
  · rw [reserved] at h
    cases h
    exact takeError_latched _ s
  · exact exec_latched (runs ▸ h)

/-- Settles O54: the latched part of the state, carried through the step. -/
theorem programAndParametersNeverChange : Obligations.ProgramAndParametersNeverChange :=
  fun _ _ h => State.latched_eq_iff.mp (step_latched h)

end Sys2Proof.Machine
end

section
/-! PROOFS of the statements of 10_state.md: every step keeps the invariant. -/

namespace Sys2Proof.Machine

/-! ## What the heap primitives leave unchanged -/

/-- `t` differs from `s` in the heap and the allocator's counters at most. -/
def OnlyHeap (s t : State) : Prop :=
  t = { s with heap := t.heap, hnext := t.hnext, draws := t.draws }

theorem heapAlloc_onlyHeap {n : Nat} {s t : State} {h : Word} (e : heapAlloc n s = .ok h t) : OnlyHeap s t := by
  obtain ⟨_, _, u, hu, rfl⟩ := heapAlloc_ok_inv e
  rw [OnlyHeap, allocHandle_state hu]

theorem heapWrite_onlyHeap {w : Width} {h : Word} {off : Nat} {v : BitVec w.bits} {s t : State}
    (e : heapWrite h off v s = .ok () t) : OnlyHeap s t := by
  obtain ⟨_, _, _, rfl⟩ := heapWrite_ok_inv e
  rfl

theorem heapDelete_onlyHeap {h : Word} {s t : State} (e : heapDelete h s = .ok () t) : OnlyHeap s t := by
  obtain ⟨_, _, rfl⟩ := heapDelete_ok_inv e
  rfl

/-! ## Live bytes -/

theorem Sparse.get_eq_none_of_lt {α : Type} {m : List (Nat × α)} {a : Nat} (h : ∀ e ∈ m, a < e.1) :
    Sparse.get m a = none := by
  cases hg : Sparse.get m a with
  | none => rfl
  | some v => exact absurd (h _ (Sparse.mem_of_get hg)) (Nat.lt_irrefl a)

/-- Storing at `a` trades what `a` held for the new entry, in any sum over the entries. -/
theorem Sparse.sum_set {α : Type} (f : α → Nat) {m : List (Nat × α)} (a : Nat) (v : α) (hm : Sparse.wf m = true) :
    ((Sparse.set m a v).map fun e => f e.2).sum + ((Sparse.get m a).map f).getD 0 =
      (m.map fun e => f e.2).sum + f v := by
  induction m with
  | nil => simp [Sparse.set]
  | cons e m ih =>
    obtain ⟨k, x⟩ := e
    obtain ⟨hk, hm⟩ := (Sparse.wf_cons k x m).mp hm
    have ih := ih hm
    rcases Nat.lt_trichotomy a k with h | rfl | h
    · have hn : Sparse.get m a = none := Sparse.get_eq_none_of_lt fun e he => h.trans (hk e he)
      simp only [Sparse.set, if_pos h, Sparse.get_cons, if_neg h.ne', hn, List.map_cons, List.sum_cons,
        Option.map_none, Option.getD_none]
      omega
    · simp only [Sparse.set, lt_irrefl, if_false, if_true, Sparse.get_cons, List.map_cons, List.sum_cons,
        Option.map_some, Option.getD_some]
      omega
    · simp only [Sparse.set, if_neg h.not_gt, if_neg h.ne', Sparse.get_cons, if_neg h.ne, List.map_cons,
        List.sum_cons]
      omega

/-- Erasing an entry never raises a sum over the entries. -/
theorem Sparse.sum_erase_le {α : Type} (f : α → Nat) (m : List (Nat × α)) (a : Nat) :
    ((Sparse.erase m a).map fun e => f e.2).sum ≤ (m.map fun e => f e.2).sum :=
  (List.filter_sublist.map _).sum_le_sum fun _ _ => Nat.zero_le _

/-- The sum of the sizes of the blocks in a heap. -/
def heapSizes (heap : List (Nat × Block)) : Nat :=
  (heap.map fun e => e.2.size.toNat).sum

theorem liveBytes_eq (s : State) : liveBytes s = heapSizes s.heap := rfl

/-- A new block adds its size to the live bytes. -/
theorem heapSizes_set_fresh {m : List (Nat × Block)} {a : Nat} (b : Block) (hm : Sparse.wf m = true)
    (ha : Sparse.get m a = none) : heapSizes (Sparse.set m a b) = heapSizes m + b.size.toNat := by
  simpa [ha, heapSizes] using Sparse.sum_set (fun b : Block => b.size.toNat) a b hm

/-- A block replaced by one of its size leaves the live bytes as they were. -/
theorem heapSizes_set_sameSize {m : List (Nat × Block)} {a : Nat} {b b' : Block} (hm : Sparse.wf m = true)
    (ha : Sparse.get m a = some b) (hs : b'.size = b.size) : heapSizes (Sparse.set m a b') = heapSizes m := by
  have := Sparse.sum_set (fun b : Block => b.size.toNat) a b' hm
  simp only [ha, hs, Option.map_some, Option.getD_some] at this
  exact Nat.add_right_cancel this

theorem heapSizes_erase_le (m : List (Nat × Block)) (a : Nat) : heapSizes (Sparse.erase m a) ≤ heapSizes m :=
  Sparse.sum_erase_le (fun b : Block => b.size.toNat) m a

/-! ## The invariant under each update of the state -/

/-- What the invariant asks of one entry of the heap (10_state.md R24). -/
def StoredBlock (e : Nat × Block) : Prop :=
  Memory.wf e.2.data = true ∧ e.1 < 2 ^ 64 ∧ ∀ c ∈ e.2.data, c.1 < e.2.size.toNat

variable {s : State}

theorem Inv.storedBlock (h : Inv s) {e : Nat × Block} (he : e ∈ s.heap) : StoredBlock e :=
  ⟨h.canonical.blocks e he, h.heapBytes e he⟩

theorem Inv.afterPush (h : Inv s) {w : Width} (v : BitVec w.bits) (hr : s.sp.toNat + w.bytes ≤ s.stackMax.toNat) :
    Inv (afterPush v s) := by
  have hsp := afterPush_sp_toNat v hr
  refine { h with
    sp := by rw [hsp]; exact hr
    canonical := { h.canonical with stack := Memory.wf_write _ _ h.canonical.stack }
    stackBytes := ⟨fun c hc => ?_, fun a ha => ?_⟩ }
  · rcases Memory.mem_write hc with hc | ⟨_, hc⟩
    · exact h.stackBytes.1 c hc
    · rw [valueBytes_length] at hc
      exact hc.trans_le hr
  · rw [hsp] at ha
    rw [afterPush_stack]
    by_cases hlow : a < s.sp.toNat
    · rw [Memory.get_write_outside _ _ _ (.inl hlow)]
      exact h.stackBytes.2 a hlow
    · obtain ⟨k, rfl⟩ := Nat.exists_eq_add_of_le (Nat.not_lt.mp hlow)
      have hk : k < (valueBytes v).length := by rw [valueBytes_length]; omega
      rw [Memory.get_write_inside _ _ _ hk]
      rfl

theorem Inv.afterPop (h : Inv s) {w : Width} (hw : w.bytes ≤ s.sp.toNat) : Inv (afterPop w s) := by
  have hsp : (Machine.afterPop w s).sp.toNat ≤ s.sp.toNat := by rw [afterPop_sp_toNat hw]; omega
  exact { h with
    sp := hsp.trans h.sp
    canonical := { h.canonical with }
    stackBytes := ⟨h.stackBytes.1, fun a ha => h.stackBytes.2 a (ha.trans_le hsp)⟩ }

theorem Inv.regWrite (h : Inv s) {w : Width} (r : Byte) (v : BitVec w.bits) : Inv (regWrite r v s) :=
  { h with
    canonical := { h.canonical with }
    bounds := ⟨h.bounds.1, by simpa using h.bounds.2⟩ }

/-- The invariant for another heap: what has to hold of its entries, of their sizes and of `hnext`. -/
theorem Inv.withHeap (h : Inv s) {heap : List (Nat × Block)} {hnext : Word} (draws : Nat)
    (canonical : Sparse.wf heap = true) (blocks : ∀ e ∈ heap, StoredBlock e)
    (limit : ∀ n, s.heapLimit = some n → heapSizes heap ≤ n)
    (handles : s.alloc = .seq → 1 ≤ hnext.toNat ∧ ∀ e ∈ heap, 1 ≤ e.1 ∧ e.1 < hnext.toNat) :
    Inv { s with heap := heap, hnext := hnext, draws := draws } :=
  { h with
    canonical := { h.canonical with heap := canonical, blocks := fun e he => (blocks e he).1 }
    heapBytes := fun e he => (blocks e he).2
    limit := limit
    handles := handles }

theorem storedBlock_newBlock (h : Word) (n : Nat) (s : State) : StoredBlock (h.toNat, newBlock n s) :=
  ⟨rfl, h.isLt, fun _ hc => absurd hc List.not_mem_nil⟩

theorem StoredBlock.store {h : Nat} {b : Block} (hb : StoredBlock (h, b)) {w : Width} {off : Nat} (v : BitVec w.bits)
    (ho : off + w.bytes ≤ b.size.toNat) : StoredBlock (h, b.store off v) := by
  obtain ⟨hwf, hh, hin⟩ := hb
  refine ⟨Memory.wf_write _ _ hwf, hh, fun c hc => ?_⟩
  rcases Memory.mem_write hc with hc | ⟨_, hc⟩
  · exact hin c hc
  · rw [valueBytes_length] at hc
    exact hc.trans_le ho

theorem newBlock_size {n : Nat} (hn : n < 2 ^ 64) (s : State) : (newBlock n s).size.toNat = n :=
  Nat.mod_eq_of_lt hn

theorem exceedsLimit_eq_false {n limit : Nat} (h : exceedsLimit n s = false) (hl : s.heapLimit = some limit) :
    liveBytes s + n ≤ limit := by
  simpa [exceedsLimit, hl] using h

/-- Every policy gives a handle that is not live; under ALLOC_SEQ because every live handle is below `hnext`. -/
theorem Inv.allocHandle_fresh (h : Inv s) {g : Word} {u : State} (e : allocHandle s = some (g, u)) :
    Sparse.get s.heap g.toNat = none := by
  rcases allocHandle_cases s with e' | ⟨hseq, _, e'⟩ | ⟨_, _, hfree, e'⟩ <;> rw [e'] at e <;> cases e
  · cases hg : Sparse.get s.heap s.hnext.toNat with
    | none => rfl
    | some b => exact absurd ((h.handles hseq).2 _ (Sparse.mem_of_get hg)).2 (Nat.lt_irrefl _)
  · exact hfree

/-- Under ALLOC_SEQ the handle given is `hnext`, and `hnext` advances without wrapping (20_memory.md R50). -/
theorem allocHandle_seq {g : Word} {u : State} (e : allocHandle s = some (g, u)) (hseq : s.alloc = .seq) :
    g = s.hnext ∧ u.hnext.toNat = s.hnext.toNat + 1 := by
  rcases allocHandle_cases s with e' | ⟨_, hlast, e'⟩ | ⟨_, hother, _, _⟩
  · rw [e'] at e; cases e
  · rw [e'] at e; cases e
    have := s.hnext.isLt
    exact ⟨rfl, Nat.mod_eq_of_lt (show s.hnext.toNat + 1 < 2 ^ 64 by omega)⟩
  · rw [hseq] at hother; cases hother

theorem Inv.heapAlloc (h : Inv s) {n : Nat} {g : Word} {t : State} (e : heapAlloc n s = .ok g t) : Inv t := by
  obtain ⟨hn, hlimit, u, hu, rfl⟩ := heapAlloc_ok_inv e
  have hfresh := h.allocHandle_fresh hu
  rw [allocHandle_state hu]
  refine h.withHeap _ (Sparse.wf_set _ _ h.canonical.heap) (fun e he => ?_) (fun m hm => ?_) fun hseq => ?_
  · rcases Sparse.mem_set he with rfl | he
    · exact storedBlock_newBlock g n s
    · exact h.storedBlock he
  · rw [heapSizes_set_fresh _ h.canonical.heap hfresh, newBlock_size hn]
    exact liveBytes_eq s ▸ exceedsLimit_eq_false hlimit hm
  · obtain ⟨rfl, hnext⟩ := allocHandle_seq hu hseq
    obtain ⟨hpos, hlive⟩ := h.handles hseq
    show 1 ≤ u.hnext.toNat ∧ ∀ e : Nat × Block, _ → 1 ≤ e.1 ∧ e.1 < u.hnext.toNat
    rw [hnext]
    refine ⟨by omega, fun e he => ?_⟩
    rcases Sparse.mem_set he with rfl | he
    · exact ⟨hpos, Nat.lt_succ_self _⟩
    · exact (hlive e he).imp_right Nat.lt_succ_of_lt

theorem Inv.heapWrite (h : Inv s) {w : Width} {g : Word} {off : Nat} {v : BitVec w.bits} {t : State}
    (e : heapWrite g off v s = .ok () t) : Inv t := by
  obtain ⟨b, hb, ho, rfl⟩ := heapWrite_ok_inv e
  have hmem : (g.toNat, b) ∈ s.heap := Sparse.mem_of_get hb
  refine h.withHeap s.draws (Sparse.wf_set _ _ h.canonical.heap) (fun e he => ?_) (fun m hm => ?_)
    fun hseq => ⟨(h.handles hseq).1, fun e he => ?_⟩
  · rcases Sparse.mem_set he with rfl | he
    · exact (h.storedBlock hmem).store v ho
    · exact h.storedBlock he
  · rw [heapSizes_set_sameSize h.canonical.heap hb (Block.store_size b off v)]
    exact h.limit m hm
  · rcases Sparse.mem_set he with rfl | he
    · exact (h.handles hseq).2 (g.toNat, b) hmem
    · exact (h.handles hseq).2 e he

theorem Inv.heapDelete (h : Inv s) {g : Word} {t : State} (e : heapDelete g s = .ok () t) : Inv t := by
  obtain ⟨_, _, rfl⟩ := heapDelete_ok_inv e
  have hsub : ∀ e ∈ Sparse.erase s.heap g.toNat, e ∈ s.heap := fun _ he => List.mem_of_mem_filter he
  exact h.withHeap s.draws (Sparse.wf_erase _ h.canonical.heap) (fun e he => h.storedBlock (hsub e he))
    (fun m hm => (heapSizes_erase_le _ _).trans (h.limit m hm))
    fun hseq => ⟨(h.handles hseq).1, fun e he => (h.handles hseq).2 e (hsub e he)⟩

/-- `ip` and `status` are free to change as long as `ip` stays within the program or at its end. -/
theorem Inv.withIpStatus (h : Inv s) {ip : Word} (status : Status) (hip : ip.toNat ≤ s.program.length) :
    Inv { s with ip := ip, status := status } :=
  { h with canonical := { h.canonical with }, ip := hip }

/-- A record index advances without wrapping (00_scope.md R6). -/
theorem Inv.next_toNat (h : Inv s) (hip : s.ip.toNat < s.program.length) : (s.ip + 1).toNat = s.ip.toNat + 1 := by
  have := h.bounds.1
  exact Nat.mod_eq_of_lt (show s.ip.toNat + 1 < 2 ^ 64 by omega)

/-- A return address written at `csp` (20_memory.md R57). -/
theorem Inv.csPush (h : Inv s) {a : Word} (hfull : s.csp ≠ s.callMax) (ha : 1 ≤ a.toNat)
    (ha' : a.toNat ≤ s.program.length) :
    Inv { s with callStack := Sparse.set s.callStack s.csp.toNat a, csp := s.csp + 1 } := by
  have hlt : s.csp.toNat < s.callMax.toNat := h.csp.lt_of_ne (word_toNat_ne hfull)
  have hcsp : (s.csp + 1).toNat = s.csp.toNat + 1 := by
    have := s.callMax.isLt
    exact Nat.mod_eq_of_lt (show s.csp.toNat + 1 < 2 ^ 64 by omega)
  refine { h with
    csp := by rw [hcsp]; exact hlt
    canonical := { h.canonical with callStack := Sparse.wf_set _ _ h.canonical.callStack }
    callEntries := ⟨fun c hc => ?_, fun i hi => ?_⟩ }
  · rcases Sparse.mem_set hc with rfl | hc
    · exact hlt
    · exact h.callEntries.1 c hc
  · rw [hcsp] at hi
    rcases Nat.lt_succ_iff_lt_or_eq.mp hi with hi | rfl
    · rw [Sparse.get_set_other _ _ hi.ne]
      exact h.callEntries.2 i hi
    · exact ⟨a, Sparse.get_set_same _ _ _, ha, ha'⟩

theorem csp_pred_toNat (hne : s.csp ≠ 0) : (s.csp - 1).toNat = s.csp.toNat - 1 := by
  have := word_toNat_ne hne
  bv_omega

theorem Inv.csPop (h : Inv s) (hne : s.csp ≠ 0) : Inv { s with csp := s.csp - 1 } := by
  have hcsp : (s.csp - 1).toNat ≤ s.csp.toNat := by rw [csp_pred_toNat hne]; omega
  exact { h with
    csp := hcsp.trans h.csp
    canonical := { h.canonical with }
    callEntries := ⟨h.callEntries.1, fun i hi => h.callEntries.2 i (hi.trans_le hcsp)⟩ }

/-- The entry on top of the call stack is a record index or PLEN (10_state.md R26). -/
theorem Inv.topEntry_le (h : Inv s) (hne : s.csp ≠ 0) :
    (callEntry s (s.csp.toNat - 1)).toNat ≤ s.program.length := by
  have hpos : 0 < s.csp.toNat := Nat.pos_of_ne_zero (word_toNat_ne hne)
  obtain ⟨a, ha, _, hle⟩ := h.callEntries.2 (s.csp.toNat - 1) (by omega)
  rw [callEntry, ha]
  exact hle

/-! ## Every step keeps the invariant -/

/-- The invariant while an instruction runs: `ip` still indexes the record fetched (40_engine.md R105). -/
structure InvAtRecord (s : State) : Prop where
  inv : Inv s
  inside : s.ip.toNat < s.program.length

theorem InvAtRecord.advance (h : InvAtRecord s) (status : Status) :
    Inv { s with ip := s.ip + 1, status := status } :=
  h.inv.withIpStatus status (by rw [h.inv.next_toNat h.inside]; exact h.inside)

theorem InvAtRecord.afterHeap {t : State} (h : InvAtRecord s) (ht : Inv t) (hf : OnlyHeap s t) : InvAtRecord t :=
  ⟨ht, by rw [hf]; exact h.inside⟩

theorem carried_inv : Carried InvAtRecord Inv where
  push v _ h hr := ⟨h.inv.afterPush v hr, h.inside⟩
  pop _ _ h hw := ⟨h.inv.afterPop hw, h.inside⟩
  regWrite r v _ h _ := ⟨h.inv.regWrite r v, h.inside⟩
  heapAlloc _ _ _ _ h e := h.afterHeap (h.inv.heapAlloc e) (heapAlloc_onlyHeap e)
  heapWrite _ _ _ _ _ h e := h.afterHeap (h.inv.heapWrite e) (heapWrite_onlyHeap e)
  heapDelete _ _ _ h e := h.afterHeap (h.inv.heapDelete e) (heapDelete_onlyHeap e)
  advance s h := h.advance s.status
  call s a h hfull ha := by
    have hnext := h.inv.next_toNat h.inside
    exact (h.inv.csPush hfull (by omega) (by rw [hnext]; exact h.inside)).withIpStatus s.status ha.le
  ret s h hne := (h.inv.csPop hne).withIpStatus s.status (h.inv.topEntry_le hne)
  jump s a h ha := h.inv.withIpStatus s.status ha.le
  halt s h := h.advance .haltedOk
  error k s h := h.inv.withIpStatus (.haltedError k) h.inv.ip

/-- Settles O50: a step that has a next state takes an error before it runs anything, or runs one instruction from a
record of the program. -/
theorem stepKeepsInvariant : Obligations.StepKeepsInvariant := by
  intro s t h e
  rcases step_cases s with ⟨_, halted⟩ | ⟨_, _, endOfProgram⟩ | ⟨_, _, _, _, reserved⟩ | ⟨_, i, _, fetched, _, runs⟩
  · rw [halted] at e; cases e
  · rw [endOfProgram] at e; cases e
    exact h.withIpStatus _ h.ip
  · rw [reserved] at e; cases e
    exact h.withIpStatus _ h.ip
  · obtain ⟨inside, _⟩ := List.getElem?_eq_some_iff.mp fetched
    exact carried_inv.exec i ⟨h, inside⟩ (runs ▸ e)
end Sys2Proof.Machine
end

section
/-! PROOFS of the statements of 10_state.md: the register STATUS, and the state reset leaves. -/

namespace Sys2Proof.Machine

variable {s : State}

/-! ## The register STATUS -/

theorem statusState_lt (st : Status) : statusState st < 4 := by
  cases st <;> simp [statusState]

theorem statusErr_lt (st : Status) : statusErr st < 16 := by
  cases st with
  | running => decide
  | haltedOk => decide
  | haltedError k => cases k <;> decide

theorem statusRegister_toNat (s : State) :
    (statusRegister s).toNat = statusState s.status + 16 * statusErr s.status := by
  have := statusState_lt s.status
  have := statusErr_lt s.status
  exact Nat.mod_eq_of_lt (by omega)

/-- STATUS.STATE, bits 1:0. -/
theorem statusRegister_stateField (s : State) :
    ((statusRegister s).extractLsb' 0 2).toNat = statusState s.status := by
  have := statusState_lt s.status
  rw [BitVec.extractLsb'_toNat, statusRegister_toNat, Nat.shiftRight_eq_div_pow]
  omega

/-- Bits 3:2 read as zero. -/
theorem statusRegister_zeroField (s : State) : ((statusRegister s).extractLsb' 2 2).toNat = 0 := by
  have := statusState_lt s.status
  rw [BitVec.extractLsb'_toNat, statusRegister_toNat, Nat.shiftRight_eq_div_pow]
  omega

/-- STATUS.ERR, bits 7:4. -/
theorem statusRegister_errField (s : State) :
    ((statusRegister s).extractLsb' 4 4).toNat = statusErr s.status := by
  have := statusState_lt s.status
  have := statusErr_lt s.status
  rw [BitVec.extractLsb'_toNat, statusRegister_toNat, Nat.shiftRight_eq_div_pow]
  omega

theorem statusRegister_running (h : s.status = .running) : statusRegister s = 0x00 := by
  rw [statusRegister, h]; rfl

theorem statusRegister_haltedOk (h : s.status = .haltedOk) : statusRegister s = 0x01 := by
  rw [statusRegister, h]; rfl

/-- Settles O60: each field read off the number the register holds. -/
theorem statusRegisterLayout : Obligations.StatusRegisterLayout := by
  intro s
  refine ⟨BitVec.eq_of_toNat_eq (statusRegister_zeroField s), statusRegister_running, statusRegister_haltedOk,
    fun k code hrow hs => ⟨BitVec.eq_of_toNat_eq ?_, ?_⟩⟩
  · rw [statusRegister_stateField, hs]
    rfl
  · rw [statusRegister_errField, hs]
    exact (by decide : ∀ row ∈ _, errorCode (Prod.fst row) = Prod.snd row) (k, code) hrow

/-! ## The state reset leaves -/

/-- The running maximum of the handles bounds its start and every handle, and is one of them. -/
theorem foldl_max_handles (heap : List (Nat × Block)) (m : Nat) :
    m ≤ heap.foldl (fun m e => max m e.1) m ∧ (∀ e ∈ heap, e.1 ≤ heap.foldl (fun m e => max m e.1) m) ∧
      (heap.foldl (fun m e => max m e.1) m = m ∨ ∃ e ∈ heap, heap.foldl (fun m e => max m e.1) m = e.1) := by
  induction heap generalizing m with
  | nil => simp
  | cons x heap ih =>
    obtain ⟨hm, hle, hmem⟩ := ih (max m x.1)
    rw [List.foldl_cons]
    refine ⟨(le_max_left ..).trans hm, List.forall_mem_cons.mpr ⟨(le_max_right ..).trans hm, hle⟩, ?_⟩
    rcases hmem with h | ⟨e, he, h⟩
    · rcases max_choice m x.1 with hx | hx
      · exact .inl (h.trans hx)
      · exact .inr ⟨x, List.mem_cons_self, h.trans hx⟩
    · exact .inr ⟨e, List.mem_cons_of_mem _ he, h⟩

theorem le_largestHandle {heap : List (Nat × Block)} {e : Nat × Block} (he : e ∈ heap) :
    e.1 ≤ largestHandle heap :=
  (foldl_max_handles heap 0).2.1 e he

theorem largestHandle_mem {heap : List (Nat × Block)} (h : heap ≠ []) : ∃ e ∈ heap, largestHandle heap = e.1 := by
  obtain ⟨x, hx⟩ := List.exists_mem_of_ne_nil heap h
  rcases (foldl_max_handles heap 0).2.2 with hz | hmem
  · exact ⟨x, hx, hz.trans (Nat.le_zero.mp (hz ▸ le_largestHandle hx)).symm⟩
  · exact hmem

variable {l : Launch}

/-- One more than the largest handle is a word: no handle of a valid launch is `2^64 - 1` (20_memory.md R50). -/
theorem Launch.Valid.hnext_toNat (hl : l.Valid) : l.start.hnext.toNat = largestHandle l.heap + 1 := by
  have hlt : largestHandle l.heap + 1 < 2 ^ 64 := by
    by_cases h : l.heap = []
    · rw [h]; decide
    · obtain ⟨e, he, hmax⟩ := largestHandle_mem h
      have := hl.handles e he
      omega
  exact Nat.mod_eq_of_lt hlt

theorem Launch.Valid.lt_hnext (hl : l.Valid) {e : Nat × Block} (he : e ∈ l.heap) : e.1 < l.start.hnext.toNat := by
  rw [hl.hnext_toNat]
  exact Nat.lt_succ_of_le (le_largestHandle he)

/-- Settles O52: the cursors are 0 and the buffers hold nothing, and of the heap a valid launch says the rest. -/
theorem everyLaunchHasInvariant : Obligations.EveryLaunchHasInvariant := fun l hl =>
  { sp := Nat.zero_le _
    csp := Nat.zero_le _
    canonical := ⟨rfl, rfl, hl.heap, fun e he => (hl.blocks e he).1⟩
    stackBytes := ⟨fun _ hc => absurd hc List.not_mem_nil, fun a ha => absurd ha (Nat.not_lt_zero a)⟩
    callEntries := ⟨fun _ hc => absurd hc List.not_mem_nil, fun i hi => absurd hi (Nat.not_lt_zero i)⟩
    heapBytes := fun e he => by
      have := (hl.handles e he).2
      exact ⟨by omega, (hl.blocks e he).2.1⟩
    limit := hl.limit
    handles := fun _ => by
      refine ⟨?_, fun e he => ⟨(hl.handles e he).1, hl.lt_hnext he⟩⟩
      rw [hl.hnext_toNat]
      exact Nat.le_add_left ..
    ip := Nat.zero_le _
    bounds := ⟨hl.program, hl.registers⟩ }

theorem reset_eq_start_standard : State.reset = Launch.standard.start := rfl

/-- The launch of the test-vector conventions is valid: no block, no record, four registers. -/
theorem valid_standard : Launch.standard.Valid where
  registers := by decide
  program := by decide
  heap := rfl
  handles _ he := absurd he List.not_mem_nil
  blocks _ he := absurd he List.not_mem_nil
  limit _ hn := nomatch hn

/-- Settles O51: reset is the start of the standard launch. -/
theorem resetHasInvariant : Obligations.ResetHasInvariant := by
  rw [Obligations.ResetHasInvariant, reset_eq_start_standard]
  exact everyLaunchHasInvariant _ valid_standard

theorem start_running (h : l.rejected = false) : l.start.status = .running := by
  rw [Launch.start, h]; rfl

theorem start_hnext_of_empty (h : l.heap = []) : l.start.hnext = 1 := by
  rw [Launch.start, h]; rfl

/-- Settles O58: what reset latches or zeroes is so by definition; `status` and `hnext` by the lemmas above. -/
theorem launchState : Obligations.LaunchState := by
  intro l hl hr
  have running := start_running hr
  refine ⟨running, statusRegister_running running, rfl, rfl, rfl, rfl, rfl, rfl, rfl, rfl, rfl, fun _ => rfl,
    fun _ => rfl, fun _ => rfl, start_hnext_of_empty, fun hne => ⟨?_, fun e he => hl.lt_hnext he⟩⟩
  obtain ⟨e, he, hmax⟩ := largestHandle_mem hne
  exact ⟨e, he, by rw [hl.hnext_toNat, hmax]⟩

end Sys2Proof.Machine
end

section
/-! PROOFS of the statements of 10_state.md: what each instruction leaves in `ip`, what it writes, and which depend on a
register. -/

namespace Sys2Proof.Machine

variable {s : State}

/-! ## The instructions as sequences

Every instruction runs one of nineteen sequences of primitives (40_engine.md R104), at a width and with an operand.
What holds of the sequences holds of all instructions. -/

/-- The sequences of 40_engine.md R104, by the names the model gives them. -/
inductive Sequence where
  | pushImmediate (w : Width) (imm : Word)
  | pushRegister (w : Width) (r : Byte)
  | popDiscard (w : Width)
  | moveToRegister (w : Width) (r : Byte)
  | duplicate (w : Width)
  | binaryOp (w : Width) (f : BitVec w.bits → BitVec w.bits → BitVec w.bits)
  | unaryOp (w : Width) (f : BitVec w.bits → BitVec w.bits)
  | compareUnsigned (w : Width) (rel : Relation)
  | compareSigned (w : Width) (rel : Relation)
  | allocate (w : Width) (n : Word)
  | getElement (w : Width) (n : Word)
  | setElement (w : Width) (n : Word)
  | delete
  | size
  | jumpTo (t : Word)
  | jumpIf (w : Width) (t : Word)
  | call (t : Word)
  | ret
  | halt

/-- A sequence run: the meaning the model gives it. -/
def Sequence.run : Sequence → State → Result Unit
  | .pushImmediate w imm, s => Machine.pushImmediate w imm s
  | .pushRegister w r, s => Machine.pushRegister w r s
  | .popDiscard w, s => Machine.popDiscard w s
  | .moveToRegister w r, s => Machine.moveToRegister w r s
  | .duplicate w, s => Machine.duplicate w s
  | .binaryOp w f, s => Machine.binaryOp w f s
  | .unaryOp w f, s => Machine.unaryOp w f s
  | .compareUnsigned w rel, s => Machine.compareUnsigned w rel s
  | .compareSigned w rel, s => Machine.compareSigned w rel s
  | .allocate w n, s => Machine.allocate w n s
  | .getElement w n, s => Machine.getElement w n s
  | .setElement w n, s => Machine.setElement w n s
  | .delete, s => (pop .word s).bind fun h s => (heapDelete h s).bind fun _ s => advance s
  | .size, s => (pop .word s).bind fun h s => (heapSize h s).bind fun n s =>
      (push (w := .word) n s).bind fun _ s => advance s
  | .jumpTo t, s => Machine.jumpTo t s
  | .jumpIf w t, s => Machine.jumpIf w t s
  | .call t, s => (callCheck s).bind fun _ s => (targetCheck t s).bind fun _ s =>
      (csPush (s.ip + 1) s).bind fun _ s => setIp t s
  | .ret, s => (csPop s).bind fun a s => setIp a s
  | .halt, s => (advance s).bind fun _ s => .ok () { s with status := .haltedOk }

/-- The sequence of each instruction. -/
def sequenceOf : Instr → Sequence
  | .pushByte imm => .pushImmediate .byte imm
  | .pushHword imm => .pushImmediate .hword imm
  | .pushWord imm => .pushImmediate .word imm
  | .pushRegByte r => .pushRegister .byte r
  | .pushRegHword r => .pushRegister .hword r
  | .pushRegWord r => .pushRegister .word r
  | .popByte => .popDiscard .byte
  | .popHword => .popDiscard .hword
  | .popWord => .popDiscard .word
  | .movByte r => .moveToRegister .byte r
  | .movHword r => .moveToRegister .hword r
  | .movWord r => .moveToRegister .word r
  | .dupByte => .duplicate .byte
  | .dupHword => .duplicate .hword
  | .dupWord => .duplicate .word
  | .plusByte => .binaryOp .byte plus
  | .plusHword => .binaryOp .hword plus
  | .plusWord => .binaryOp .word plus
  | .subByte => .binaryOp .byte minus
  | .subHword => .binaryOp .hword minus
  | .subWord => .binaryOp .word minus
  | .multByte => .binaryOp .byte times
  | .multHword => .binaryOp .hword times
  | .multWord => .binaryOp .word times
  | .notByte => .unaryOp .byte complement
  | .notHword => .unaryOp .hword complement
  | .notWord => .unaryOp .word complement
  | .orByte => .binaryOp .byte bitOr
  | .orHword => .binaryOp .hword bitOr
  | .orWord => .binaryOp .word bitOr
  | .andByte => .binaryOp .byte bitAnd
  | .andHword => .binaryOp .hword bitAnd
  | .andWord => .binaryOp .word bitAnd
  | .xorByte => .binaryOp .byte bitXor
  | .xorHword => .binaryOp .hword bitXor
  | .xorWord => .binaryOp .word bitXor
  | .eqByte => .compareUnsigned .byte .eq
  | .eqHword => .compareUnsigned .hword .eq
  | .eqWord => .compareUnsigned .word .eq
  | .ltByte => .compareUnsigned .byte .lt
  | .ltHword => .compareUnsigned .hword .lt
  | .ltWord => .compareUnsigned .word .lt
  | .lteByte => .compareUnsigned .byte .lte
  | .lteHword => .compareUnsigned .hword .lte
  | .lteWord => .compareUnsigned .word .lte
  | .gtByte => .compareUnsigned .byte .gt
  | .gtHword => .compareUnsigned .hword .gt
  | .gtWord => .compareUnsigned .word .gt
  | .gteByte => .compareUnsigned .byte .gte
  | .gteHword => .compareUnsigned .hword .gte
  | .gteWord => .compareUnsigned .word .gte
  | .eqChar => .compareSigned .byte .eq
  | .eqInt => .compareSigned .hword .eq
  | .eqLong => .compareSigned .word .eq
  | .ltChar => .compareSigned .byte .lt
  | .ltInt => .compareSigned .hword .lt
  | .ltLong => .compareSigned .word .lt
  | .lteChar => .compareSigned .byte .lte
  | .lteInt => .compareSigned .hword .lte
  | .lteLong => .compareSigned .word .lte
  | .gtChar => .compareSigned .byte .gt
  | .gtInt => .compareSigned .hword .gt
  | .gtLong => .compareSigned .word .gt
  | .gteChar => .compareSigned .byte .gte
  | .gteInt => .compareSigned .hword .gte
  | .gteLong => .compareSigned .word .gte
  | .mallocByte n => .allocate .byte n
  | .mallocHword n => .allocate .hword n
  | .mallocWord n => .allocate .word n
  | .mgetByte n => .getElement .byte n
  | .mgetHword n => .getElement .hword n
  | .mgetWord n => .getElement .word n
  | .msetByte n => .setElement .byte n
  | .msetHword n => .setElement .hword n
  | .msetWord n => .setElement .word n
  | .mdelete => .delete
  | .msize => .size
  | .jumpAbs t => .jumpTo t
  | .jumpIfByte t => .jumpIf .byte t
  | .jumpIfHword t => .jumpIf .hword t
  | .jumpIfWord t => .jumpIf .word t
  | .call t => .call t
  | .ret => .ret
  | .halt => .halt
/-- The dispatch runs the instruction's sequence. -/
theorem exec_eq_run (i : Instr) (s : State) : exec i s = ((sequenceOf i).run s).outcome := by
  cases i <;> rfl

/-! ## What each instruction leaves in `ip` -/

/-- The `ip` that a completed sequence leaves: the table of 10_state.md R29 by sequence. -/
def Sequence.nextIp (q : Sequence) (s : State) : Word :=
  match q with
  | .jumpTo t | .call t => t
  | .jumpIf w t => if (rightOperand w s).toNat ≠ 0 then t else s.ip + 1
  | .ret => callEntry s (s.csp.toNat - 1)
  | _ => s.ip + 1

theorem nextIp_eq (i : Instr) (s : State) : nextIp i s = (sequenceOf i).nextIp s := by
  cases i <;> rfl

/-- While an instruction runs, `ip` is the index of its record. -/
structure RunningAt (a : Word) (u : State) : Prop where
  ip : u.ip = a
  status : u.status = .running

/-- An instruction has completed with this `ip`. -/
structure CompletedAt (a : Word) (u : State) : Prop where
  ip : u.ip = a
  unfaulted : ¬ Faulted u

theorem not_faulted (h : s.status = .running ∨ s.status = .haltedOk) : ¬ Faulted s := by
  rintro ⟨k, hk⟩
  rw [hk] at h
  simp at h

theorem RunningAt.setIp {a : Word} (h : RunningAt a s) (t : Word) : CompletedAt t { s with ip := t } :=
  ⟨rfl, not_faulted (.inl h.status)⟩

theorem RunningAt.advance {a : Word} (h : RunningAt a s) : CompletedAt (a + 1) { s with ip := s.ip + 1 } :=
  ⟨congrArg (· + 1) h.ip, not_faulted (.inl h.status)⟩

theorem RunningAt.afterHeap {a : Word} {t : State} (h : RunningAt a s) (hf : OnlyHeap s t) : RunningAt a t := by
  rw [hf]
  exact ⟨h.ip, h.status⟩

/-- No data primitive touches `ip` or `status`, and `advance` ends the sequence (40_engine.md R105). -/
theorem carriedData_ip (a : Word) : CarriedData (RunningAt a) (CompletedAt (a + 1)) where
  push _ _ h _ := ⟨h.ip, h.status⟩
  pop _ _ h _ := ⟨h.ip, h.status⟩
  regWrite _ _ _ h _ := ⟨h.ip, h.status⟩
  heapAlloc _ _ _ _ h e := h.afterHeap (heapAlloc_onlyHeap e)
  heapWrite _ _ _ _ _ h e := h.afterHeap (heapWrite_onlyHeap e)
  heapDelete _ _ _ h e := h.afterHeap (heapDelete_onlyHeap e)
  advance _ h := h.advance

theorem RunningAt.jumpTo {a : Word} (h : RunningAt a s) (t : Word) :
    (jumpTo t s).Ends (RunningAt a) (CompletedAt t) := by
  unfold Machine.jumpTo
  rcases targetCheck_cases t s with ⟨_, e⟩ | ⟨_, e⟩ <;> rw [e]
  · exact h
  · exact h.setIp t

theorem RunningAt.jumpIf {a : Word} (h : RunningAt a s) (w : Width) (t : Word) :
    (jumpIf w t s).Ends (RunningAt a) (CompletedAt (if (rightOperand w s).toNat ≠ 0 then t else a + 1)) := by
  unfold Machine.jumpIf
  rcases pop_cases w s with ⟨_, e⟩ | ⟨_, e⟩ <;> rw [e]
  · exact h
  · have hpop : RunningAt a (afterPop w s) := ⟨h.ip, h.status⟩
    rw [Result.bind_ok, topValue_eq]
    by_cases hc : (rightOperand w s).toNat ≠ 0
    · rw [if_pos hc, if_pos hc]
      exact hpop.jumpTo t
    · rw [if_neg hc, if_neg hc]
      exact hpop.advance

/-- A sequence that raises leaves `ip` at its record, one that completes leaves it where R29 says. -/
theorem Sequence.run_ip (q : Sequence) (hs : s.status = .running) :
    (q.run s).Ends (RunningAt s.ip) (CompletedAt (q.nextIp s)) := by
  have h : RunningAt s.ip s := ⟨rfl, hs⟩
  have c := carriedData_ip s.ip
  cases q with
  | pushImmediate w imm => exact c.pushImmediate w imm h
  | pushRegister w r => exact c.pushRegister w r h
  | popDiscard w => exact c.popDiscard w h
  | moveToRegister w r => exact c.moveToRegister w r h
  | duplicate w => exact c.duplicate w h
  | binaryOp w f => exact c.binaryOp w f h
  | unaryOp w f => exact c.unaryOp w f h
  | compareUnsigned w rel => exact c.binaryOp w _ h
  | compareSigned w rel => exact c.binaryOp w _ h
  | allocate w n => exact c.allocate w n h
  | getElement w n => exact c.getElement w n h
  | setElement w n => exact c.setElement w n h
  | delete =>
    exact Result.Ends.bind (c.pop_keeps .word h) fun g _ _ h1 =>
      Result.Ends.bind (c.heapDelete_keeps g h1) fun _ t _ h2 => c.advance t h2
  | size =>
    exact Result.Ends.bind (c.pop_keeps .word h) fun _ _ _ h1 =>
      Result.Ends.bind (CarriedData.heapSize_keeps h1) fun _ _ _ h2 => c.push_then_advance _ h2
  | jumpTo t => exact h.jumpTo t
  | jumpIf w t => exact h.jumpIf w t
  | call t =>
    show Result.Ends _ _ ((callCheck s).bind _)
    rcases callCheck_cases s with ⟨_, e⟩ | ⟨hfull, e⟩ <;> rw [e]
    · exact h
    rw [Result.bind_ok]
    rcases targetCheck_cases t s with ⟨_, e⟩ | ⟨_, e⟩ <;> rw [e]
    · exact h
    rw [Result.bind_ok, csPush, callCheck_ok hfull]
    exact ⟨rfl, not_faulted (.inl hs)⟩
  | ret =>
    show Result.Ends _ _ ((csPop s).bind _)
    rcases csPop_cases s with ⟨_, e⟩ | ⟨_, e⟩ <;> rw [e]
    · exact h
    · exact ⟨rfl, not_faulted (.inl hs)⟩
  | halt => exact ⟨rfl, not_faulted (.inr rfl)⟩

theorem ip_of_outcome {r : Result Unit} {a n : Word} {t : State} (h : r.Ends (RunningAt a) (CompletedAt n))
    (e : r.outcome = .next t) : (¬ Faulted t → t.ip = n) ∧ (Faulted t → t.ip = a) := by
  cases r with
  | ok _ u => cases e; exact ⟨fun _ => h.ip, fun hf => absurd hf h.unfaulted⟩
  | raised k u => cases e; exact ⟨fun hn => absurd ⟨k, rfl⟩ hn, fun _ => h.ip⟩

/-- Settles O13, sequence by sequence. -/
theorem instructionPointerTable : Obligations.InstructionPointerTable := by
  intro i s t hs e
  rw [nextIp_eq]
  exact ip_of_outcome ((sequenceOf i).run_ip hs) (exec_eq_run i s ▸ e)

/-! ## What each instruction writes -/

/-- Which parts of the state a sequence may write, `ip` and `status` apart; `stack` is S with `sp`. -/
structure Writes where
  stack : Bool := false
  regs : Bool := false
  heap : Bool := false
  hnext : Bool := false
  callStack : Bool := false
  csp : Bool := false

/-- The table of what each sequence writes (10_state.md R21 to R26). -/
def Sequence.writes : Sequence → Writes
  | .moveToRegister _ _ => { stack := true, regs := true }
  | .allocate _ _ => { stack := true, heap := true, hnext := true }
  | .setElement _ _ | .delete => { stack := true, heap := true }
  | .call _ => { callStack := true, csp := true }
  | .ret => { csp := true }
  | .jumpTo _ | .halt => {}
  | .pushImmediate _ _ | .pushRegister _ _ | .popDiscard _ | .duplicate _ | .binaryOp _ _ | .unaryOp _ _
  | .compareUnsigned _ _ | .compareSigned _ _ | .getElement _ _ | .size | .jumpIf _ _ => { stack := true }

/-- Every part that is not written is in `t` what it was in `s`. -/
structure WritesOnly (W : Writes) (s t : State) : Prop where
  stack : W.stack = false → t.stack = s.stack ∧ t.sp = s.sp
  regs : W.regs = false → t.regs = s.regs
  heap : W.heap = false → t.heap = s.heap
  hnext : W.hnext = false → t.hnext = s.hnext
  callStack : W.callStack = false → t.callStack = s.callStack
  csp : W.csp = false → t.csp = s.csp

namespace WritesOnly

variable {W : Writes} {u : State}

theorem refl (W : Writes) (s : State) : WritesOnly W s s :=
  ⟨fun _ => ⟨rfl, rfl⟩, fun _ => rfl, fun _ => rfl, fun _ => rfl, fun _ => rfl, fun _ => rfl⟩

theorem push (h : WritesOnly W s u) (hW : W.stack = true) {w : Width} (v : BitVec w.bits) :
    (Machine.push v u).Keeps (WritesOnly W s) := by
  rcases push_cases v u with ⟨_, e⟩ | ⟨_, e⟩ <;> rw [e]
  · exact h
  · exact { h with stack := by simp [hW] }

theorem pop (h : WritesOnly W s u) (hW : W.stack = true) (w : Width) :
    (Machine.pop w u).Keeps (WritesOnly W s) := by
  rcases pop_cases w u with ⟨_, e⟩ | ⟨_, e⟩ <;> rw [e]
  · exact h
  · exact { h with stack := by simp [hW] }

theorem peek (h : WritesOnly W s u) (w : Width) : (Machine.peek w u).Keeps (WritesOnly W s) := by
  rcases peek_cases w u with ⟨_, e⟩ | ⟨_, e⟩ <;> rw [e] <;> exact h

theorem regCheck (h : WritesOnly W s u) (r : Byte) (w : Width) :
    (Machine.regCheck r w u).Keeps (WritesOnly W s) := by
  rcases regCheck_cases r w u with ⟨_, e⟩ | ⟨_, e⟩ <;> rw [e] <;> exact h

theorem regWrite (h : WritesOnly W s u) (hW : W.regs = true) {w : Width} (r : Byte) (v : BitVec w.bits) :
    WritesOnly W s (Machine.regWrite r v u) :=
  { h with regs := by simp [hW] }

/-- After a heap primitive only the heap and `hnext` remain to be accounted for. -/
theorem afterHeap {t : State} (h : WritesOnly W s u) (hf : OnlyHeap u t) (heap : W.heap = false → t.heap = s.heap)
    (hnext : W.hnext = false → t.hnext = s.hnext) : WritesOnly W s t := by
  rw [hf]
  exact { h with heap := heap, hnext := hnext }

theorem heapAlloc (h : WritesOnly W s u) (hheap : W.heap = true) (hhnext : W.hnext = true) (n : Nat) :
    (Machine.heapAlloc n u).Keeps (WritesOnly W s) := by
  rcases heapAlloc_cases n u with e | ⟨_, _, _, _, _, e⟩
  · rw [e]; exact h
  · have hf := heapAlloc_onlyHeap e
    rw [e]
    exact h.afterHeap hf (by simp [hheap]) (by simp [hhnext])

theorem heapWrite (h : WritesOnly W s u) (hW : W.heap = true) {w : Width} (g : Word) (off : Nat) (v : BitVec w.bits) :
    (Machine.heapWrite g off v u).Keeps (WritesOnly W s) := by
  rcases heapWrite_cases g off v u with ⟨_, e⟩ | ⟨_, _, _, e⟩ | ⟨_, _, _, e⟩ <;> rw [e]
  · exact h
  · exact h
  · exact { h with heap := by simp [hW] }

theorem heapDelete (h : WritesOnly W s u) (hW : W.heap = true) (g : Word) :
    (Machine.heapDelete g u).Keeps (WritesOnly W s) := by
  rcases heapDelete_cases g u with ⟨_, e⟩ | ⟨_, _, e⟩ <;> rw [e]
  · exact h
  · exact { h with heap := by simp [hW] }

theorem callCheck (h : WritesOnly W s u) : (Machine.callCheck u).Keeps (WritesOnly W s) := by
  rcases callCheck_cases u with ⟨_, e⟩ | ⟨_, e⟩ <;> rw [e] <;> exact h

theorem targetCheck (h : WritesOnly W s u) (t : Word) : (Machine.targetCheck t u).Keeps (WritesOnly W s) := by
  rcases targetCheck_cases t u with ⟨_, e⟩ | ⟨_, e⟩ <;> rw [e] <;> exact h

theorem csPush (h : WritesOnly W s u) (hcs : W.callStack = true) (hcsp : W.csp = true) (a : Word) :
    (Machine.csPush a u).Keeps (WritesOnly W s) := by
  rcases csPush_cases a u with ⟨_, e⟩ | ⟨_, e⟩ <;> rw [e]
  · exact h
  · exact { h with callStack := by simp [hcs], csp := by simp [hcsp] }

theorem csPop (h : WritesOnly W s u) (hW : W.csp = true) : (Machine.csPop u).Keeps (WritesOnly W s) := by
  rcases csPop_cases u with ⟨_, e⟩ | ⟨_, e⟩ <;> rw [e]
  · exact h
  · exact { h with csp := by simp [hW] }

theorem setIp (h : WritesOnly W s u) (a : Word) : (Machine.setIp a u).Keeps (WritesOnly W s) :=
  { h with }

theorem advance (h : WritesOnly W s u) : (Machine.advance u).Keeps (WritesOnly W s) :=
  { h with }

theorem takeError (h : WritesOnly W s u) (k : ErrorKind) : WritesOnly W s (Machine.takeError k u) :=
  { h with }

theorem pushThenAdvance (h : WritesOnly W s u) (hW : W.stack = true) {w : Width} (v : BitVec w.bits) :
    ((Machine.push v u).bind fun _ u => Machine.advance u).Keeps (WritesOnly W s) :=
  (h.push hW v).bind fun _ _ _ h => h.advance

theorem binaryOp (h : WritesOnly W s u) (hW : W.stack = true) {v w : Width}
    (f : BitVec w.bits → BitVec w.bits → BitVec v.bits) : (Machine.binaryOp w f u).Keeps (WritesOnly W s) :=
  (h.pop hW w).bind fun b _ _ h => (h.pop hW w).bind fun a _ _ h => h.pushThenAdvance hW (f a b)

theorem jumpTo (h : WritesOnly W s u) (t : Word) : (Machine.jumpTo t u).Keeps (WritesOnly W s) :=
  (h.targetCheck t).bind fun _ _ _ h => h.setIp t

end WritesOnly

/-- Every sequence writes what its row of the table says. -/
theorem Sequence.run_writesOnly (q : Sequence) (s : State) : (q.run s).Keeps (WritesOnly q.writes s) := by
  have h := WritesOnly.refl q.writes s
  cases q with
  | pushImmediate w imm => exact h.pushThenAdvance rfl _
  | pushRegister w r => exact (h.regCheck r w).bind fun _ _ _ h => h.pushThenAdvance rfl _
  | popDiscard w => exact (h.pop rfl w).bind fun _ _ _ h => h.advance
  | moveToRegister w r =>
    exact (h.regCheck r w).bind fun _ _ _ h => (h.pop rfl w).bind fun v _ _ h => (h.regWrite rfl r v).advance
  | duplicate w => exact (h.peek w).bind fun v _ _ h => h.pushThenAdvance rfl v
  | binaryOp w f => exact h.binaryOp rfl f
  | unaryOp w f => exact (h.pop rfl w).bind fun v _ _ h => h.pushThenAdvance rfl (f v)
  | compareUnsigned w rel => exact h.binaryOp rfl _
  | compareSigned w rel => exact h.binaryOp rfl _
  | allocate w n => exact (h.heapAlloc rfl rfl _).bind fun g _ _ h => h.pushThenAdvance (w := .word) rfl g
  | getElement w n =>
    exact (h.pop rfl .word).bind fun _ _ _ h => (CarriedData.heapRead_keeps h).bind fun v _ _ h => h.pushThenAdvance rfl v
  | setElement w n =>
    exact (h.pop rfl w).bind fun v _ _ h => (h.pop rfl .word).bind fun g _ _ h =>
      (h.heapWrite rfl g _ v).bind fun _ _ _ h => h.advance
  | delete => exact (h.pop rfl .word).bind fun g _ _ h => (h.heapDelete rfl g).bind fun _ _ _ h => h.advance
  | size =>
    exact (h.pop rfl .word).bind fun _ _ _ h =>
      (CarriedData.heapSize_keeps h).bind fun n _ _ h => h.pushThenAdvance (w := .word) rfl n
  | jumpTo t => exact h.jumpTo t
  | jumpIf w t =>
    refine (h.pop rfl w).bind fun v u _ h => ?_
    show Result.Keeps _ (if v.toNat ≠ 0 then _ else _)
    split
    · exact h.jumpTo t
    · exact h.advance
  | call t =>
    exact h.callCheck.bind fun _ _ _ h => (h.targetCheck t).bind fun _ u _ h =>
      (h.csPush rfl rfl (u.ip + 1)).bind fun _ _ _ h => h.setIp t
  | ret => exact (h.csPop rfl).bind fun a _ _ h => h.setIp a
  | halt => exact { h with }

theorem exec_writesOnly {i : Instr} {s t : State} (e : exec i s = .next t) :
    WritesOnly (sequenceOf i).writes s t :=
  ((sequenceOf i).run_writesOnly s).outcome (fun k _ h => h.takeError k) (exec_eq_run i s ▸ e)

/-! ## The table read by column -/

theorem mov_of_writes_regs {i : Instr} (h : (sequenceOf i).writes.regs = true) :
    ∃ r, i = .movByte r ∨ i = .movHword r ∨ i = .movWord r := by
  cases i with
  | movByte r | movHword r | movWord r => exact ⟨r, by simp⟩
  | _ => cases h

theorem heapWriter_of_writes_heap {i : Instr} (h : (sequenceOf i).writes.heap = true) :
    i = .mdelete ∨
      ∃ n, i ∈ [Instr.mallocByte n, .mallocHword n, .mallocWord n, .msetByte n, .msetHword n, .msetWord n] := by
  cases i with
  | mdelete => exact .inl rfl
  | mallocByte n | mallocHword n | mallocWord n | msetByte n | msetHword n | msetWord n => exact .inr ⟨n, by simp⟩
  | _ => cases h

theorem malloc_of_writes_hnext {i : Instr} (h : (sequenceOf i).writes.hnext = true) :
    ∃ n, i ∈ [Instr.mallocByte n, .mallocHword n, .mallocWord n] := by
  cases i with
  | mallocByte n | mallocHword n | mallocWord n => exact ⟨n, by simp⟩
  | _ => cases h

theorem call_of_writes_callStack {i : Instr} (h : (sequenceOf i).writes.callStack = true) : ∃ a, i = .call a := by
  cases i with
  | call a => exact ⟨a, rfl⟩
  | _ => cases h

theorem call_or_ret_of_writes_csp {i : Instr} (h : (sequenceOf i).writes.csp = true) :
    i = .ret ∨ ∃ a, i = .call a := by
  cases i with
  | ret => exact .inl rfl
  | call a => exact .inr ⟨a, rfl⟩
  | _ => cases h

theorem not_control_of_writes_stack {i : Instr} (h : (sequenceOf i).writes.stack = true) :
    i ≠ .ret ∧ i ≠ .halt ∧ ∀ a, i ≠ .jumpAbs a ∧ i ≠ .call a := by
  refine ⟨?_, ?_, fun a => ⟨?_, ?_⟩⟩ <;> rintro rfl <;> cases h

/-- Settles O56: a part that changed is written, and the table says by which instructions. -/
theorem whoWritesWhat : Obligations.WhoWritesWhat := by
  intro i s t e
  have h := exec_writesOnly e
  refine ⟨fun hne => call_or_ret_of_writes_csp ?_, fun hne => call_of_writes_callStack ?_,
    fun hne => heapWriter_of_writes_heap ?_, fun hne => malloc_of_writes_hnext ?_,
    fun hne => not_control_of_writes_stack ?_⟩ <;> refine Bool.eq_true_of_not_eq_false fun hW => ?_
  · exact hne (h.csp hW)
  · exact hne (h.callStack hW)
  · exact hne (h.heap hW)
  · exact hne (h.hnext hW)
  · obtain ⟨hstack, hsp⟩ := h.stack hW
    exact hne.elim (· hstack) (· hsp)

/-! ## What depends on the registers -/

/-- The same state with other registers. -/
def withRegs (x : List Word) (s : State) : State :=
  { s with regs := x }

/-- `t` is `s` with the registers `x`. -/
def SameButRegs (x : List Word) (s t : State) : Prop :=
  t = withRegs x s

variable {x : List Word}

/-- A test that does not look at the registers goes the same way in both states. -/
theorem Result.Agree.ite {α : Type} {R : State → State → Prop} {c : Prop} [Decidable c] {r q r' q' : Result α}
    (hr : r.Agree R r') (hq : q.Agree R q') : (if c then r else q).Agree R (if c then r' else q') := by
  split
  · exact hr
  · exact hq

theorem lookup_agree {s t : State} (h : Word) (hR : SameButRegs x s t) :
    (lookup h s).Agree (SameButRegs x) (lookup h t) := by
  subst hR
  rcases lookup_cases h s with ⟨hb, e⟩ | ⟨b, hb, e⟩
  · rw [e, lookup_miss (s := withRegs x s) hb]
    exact ⟨rfl, rfl⟩
  · rw [e, lookup_live (s := withRegs x s) hb]
    exact ⟨rfl, rfl⟩

theorem callCheck_agree {s t : State} (hR : SameButRegs x s t) :
    (callCheck s).Agree (SameButRegs x) (callCheck t) := by
  subst hR
  exact .ite ⟨rfl, rfl⟩ ⟨rfl, rfl⟩

theorem heapAlloc_agree {s t : State} (n : Nat) (hR : SameButRegs x s t) :
    (heapAlloc n s).Agree (SameButRegs x) (heapAlloc n t) := by
  subst hR
  unfold heapAlloc
  rw [allocHandle_congr (s := s) (t := withRegs x s) rfl rfl rfl rfl]
  refine .ite ⟨rfl, rfl⟩ (.ite ⟨rfl, rfl⟩ ?_)
  cases ha : allocHandle s with
  | none => exact ⟨rfl, rfl⟩
  | some p =>
    have hp : p.2 = { s with hnext := p.2.hnext } := allocHandle_state (h := p.1) ha
    refine ⟨rfl, ?_⟩
    rw [hp]
    rfl

/-- No primitive but those of the register file reads or writes a register. -/
theorem respects_sameButRegs (x : List Word) : Respects (SameButRegs x) where
  push _ _ _ h := by subst h; exact .ite ⟨rfl, rfl⟩ ⟨rfl, rfl⟩
  pop _ _ _ h := by subst h; exact .ite ⟨rfl, rfl⟩ ⟨rfl, rfl⟩
  peek _ _ _ h := by subst h; exact .ite ⟨rfl, rfl⟩ ⟨rfl, rfl⟩
  heapAlloc n _ _ h := heapAlloc_agree n h
  heapRead g _ _ _ _ h := (lookup_agree g h).bind fun _ _ _ h => by subst h; exact .ite ⟨rfl, rfl⟩ ⟨rfl, rfl⟩
  heapWrite g _ _ _ _ h := (lookup_agree g h).bind fun _ _ _ h => by subst h; exact .ite ⟨rfl, rfl⟩ ⟨rfl, rfl⟩
  heapDelete g _ _ h := (lookup_agree g h).bind fun _ _ _ h => by subst h; exact ⟨rfl, rfl⟩
  heapSize g _ _ h := (lookup_agree g h).bind fun _ _ _ h => ⟨rfl, h⟩
  callCheck _ _ h := callCheck_agree h
  pushReturn _ _ h := by subst h; exact (callCheck_agree rfl).bind fun _ _ _ h => by subst h; exact ⟨rfl, rfl⟩
  csPop _ _ h := by subst h; exact .ite ⟨rfl, rfl⟩ ⟨rfl, rfl⟩
  targetCheck _ _ _ h := by subst h; exact .ite ⟨rfl, rfl⟩ ⟨rfl, rfl⟩
  setIp _ _ _ h := by subst h; exact ⟨rfl, rfl⟩
  advance _ _ h := by subst h; exact ⟨rfl, rfl⟩
  halt _ _ h := by subst h; rfl
  error _ _ _ h := by subst h; rfl

theorem eq_mapNext_of_agree {o o' : Host.Outcome State Fault Refusal} (h : OutcomesAgree (SameButRegs x) o o') :
    o' = mapNext (withRegs x) o := by
  cases o with
  | next _ => cases o' with
    | next _ => exact congrArg _ h
    | _ => exact h.elim
  | fault _ => cases o' with
    | fault _ => exact congrArg _ h.symm
    | _ => exact h.elim
  | refused _ => cases o' with
    | refused _ => exact congrArg _ h.symm
    | _ => exact h.elim

/-- Settles O55: the table of writes for the first half, the relation carried through the run for the second. -/
theorem registersOnlyThroughPushRegAndMov : Obligations.RegistersOnlyThroughPushRegAndMov := by
  refine ⟨fun i s t e hne => mov_of_writes_regs ?_, fun i s x hi => ?_⟩
  · exact Bool.eq_true_of_not_eq_false fun hW => hne ((exec_writesOnly e).regs hW)
  · refine eq_mapNext_of_agree ((respects_sameButRegs x).exec i (s := s) (t := withRegs x s) rfl ?_ ?_)
    · rintro _ r (rfl | rfl | rfl) <;> exact absurd (by simp) (hi r)
    · rintro _ r (rfl | rfl | rfl) <;> exact absurd (by simp) (hi r)

end Sys2Proof.Machine
end

section
/-! PROOFS of the statements of 20_memory.md: which handles are live, and the canonical form of the storage. -/

namespace Sys2Proof.Machine

variable {s t : State}

/-! ## Steps -/

/-- What the state changes of an instruction carry, a step carries: it takes an error before it runs anything, or runs
one instruction. -/
theorem Carried.step {P Q : State → Prop} (c : Carried P Q) (h : P s) (e : step s = .next t) : Q t := by
  rcases step_cases s with ⟨_, halted⟩ | ⟨_, _, endOfProgram⟩ | ⟨_, _, _, _, reserved⟩ | ⟨_, i, _, _, _, runs⟩
  · rw [halted] at e; cases e
  · rw [endOfProgram] at e; cases e
    exact c.error _ s h
  · rw [reserved] at e; cases e
    exact c.error _ s h
  · exact c.exec i h (runs ▸ e)

/-! ## The live blocks after an update of the heap -/

theorem blockOf_of_heap_set {h : Word} {b : Block} (e : t.heap = Sparse.set s.heap h.toNat b) :
    blockOf t h = some b := by
  rw [blockOf, e, Sparse.get_set_same]

theorem blockOf_of_heap_set_other {g h : Word} {b : Block} (e : t.heap = Sparse.set s.heap h.toNat b) (hg : g ≠ h) :
    blockOf t g = blockOf s g := by
  rw [blockOf, e, Sparse.get_set_other _ _ (word_toNat_ne hg), blockOf]

theorem blockOf_of_heap_erase {h : Word} (e : t.heap = Sparse.erase s.heap h.toNat) : blockOf t h = none := by
  rw [blockOf, e, Sparse.get_erase_same]

theorem blockOf_of_heap_erase_other {g h : Word} (e : t.heap = Sparse.erase s.heap h.toNat) (hg : g ≠ h) :
    blockOf t g = blockOf s g := by
  rw [blockOf, e, Sparse.get_erase_other _ (word_toNat_ne hg), blockOf]

/-! ## Handles -/

/-- Under ALLOC_SEQ the handle `h` has been issued and is not live (20_memory.md R50). -/
structure Spent (h : Word) (s : State) : Prop where
  seq : s.alloc = .seq
  dead : blockOf s h = none
  issued : h.toNat < s.hnext.toNat

variable {h : Word}

/-- An allocation hands out `hnext`, which is above every spent handle. -/
theorem Spent.heapAlloc {g : Word} {n : Nat} (hs : Spent h s) (e : heapAlloc n s = .ok g t) : Spent h t := by
  have halloc : t.alloc = s.alloc := congrArg Latched.alloc (heapAlloc_latched e)
  obtain ⟨_, _, u, hu, rfl⟩ := heapAlloc_ok_inv e
  obtain ⟨rfl, hnext⟩ := allocHandle_seq hu hs.seq
  have hne : h ≠ s.hnext := fun heq => absurd hs.issued (heq ▸ Nat.lt_irrefl _)
  refine ⟨halloc.trans hs.seq, (blockOf_of_heap_set_other rfl hne).trans hs.dead, ?_⟩
  show h.toNat < u.hnext.toNat
  exact hnext ▸ Nat.lt_succ_of_lt hs.issued

/-- A store goes to a live block, so not to a spent handle. -/
theorem Spent.heapWrite {g : Word} {w : Width} {off : Nat} {v : BitVec w.bits} (hs : Spent h s)
    (e : heapWrite g off v s = .ok () t) : Spent h t := by
  obtain ⟨b, hb, _, rfl⟩ := heapWrite_ok_inv e
  have hne : h ≠ g := by
    rintro rfl
    rw [hs.dead] at hb
    cases hb
  exact ⟨hs.seq, (blockOf_of_heap_set_other rfl hne).trans hs.dead, hs.issued⟩

theorem Spent.heapDelete {g : Word} (hs : Spent h s) (e : heapDelete g s = .ok () t) : Spent h t := by
  obtain ⟨_, _, rfl⟩ := heapDelete_ok_inv e
  refine ⟨hs.seq, ?_, hs.issued⟩
  by_cases hg : h = g
  · subst hg
    exact blockOf_of_heap_erase (s := s) rfl
  · exact (blockOf_of_heap_erase_other rfl hg).trans hs.dead

/-- A spent handle stays spent: all but the heap primitives leave the heap and the allocator alone. -/
theorem carried_spent (h : Word) : Carried (Spent h) (Spent h) where
  push _ _ hs _ := { hs with }
  pop _ _ hs _ := { hs with }
  regWrite _ _ _ hs _ := { hs with }
  heapAlloc _ _ _ _ hs e := hs.heapAlloc e
  heapWrite _ _ _ _ _ hs e := hs.heapWrite e
  heapDelete _ _ _ hs e := hs.heapDelete e
  advance _ hs := { hs with }
  call _ _ hs _ _ := { hs with }
  ret _ hs _ := { hs with }
  jump _ _ hs _ := { hs with }
  halt _ hs := { hs with }
  error _ _ hs := { hs with }

/-- Settles O43: a spent handle is carried through every step.  The policy alone makes it so; the rest of the invariant
is not needed. -/
theorem handlesAreNeverReused : Obligations.HandlesAreNeverReused := by
  intro s t h _ hseq e hissued hdead
  have hspent := (carried_spent h).step ⟨hseq, hdead, hissued⟩ e
  exact ⟨hspent.dead, hspent.issued⟩

/-- Settles O35: not live, as the invariant keeps live handles below `hnext`; under ALLOC_SEQ the handle is `hnext`,
which is at least 1 and which the policy can still advance. -/
theorem allocatedHandleIsNotLive : Obligations.AllocatedHandleIsNotLive := by
  intro s s' h hinv e
  refine ⟨hinv.allocHandle_fresh e, fun hseq => ?_⟩
  obtain ⟨rfl, hnext⟩ := allocHandle_seq e hseq
  have hpos := (hinv.handles hseq).1
  have hlt := s'.hnext.isLt
  omega

/-! ## The canonical form -/

/-- A heap with one block more or replaced is canonical as long as that block is. -/
theorem CanonicalStorage.heap_set (h : CanonicalStorage s) (a : Nat) {b : Block} (hb : Memory.wf b.data = true)
    (hnext : Word) (draws : Nat) :
    CanonicalStorage { s with heap := Sparse.set s.heap a b, hnext := hnext, draws := draws } :=
  { h with
    heap := Sparse.wf_set a b h.heap
    blocks := fun e he => by
      rcases Sparse.mem_set he with rfl | he
      · exact hb
      · exact h.blocks e he }

theorem CanonicalStorage.heapAlloc {n : Nat} {g : Word} (h : CanonicalStorage s) (e : heapAlloc n s = .ok g t) :
    CanonicalStorage t := by
  obtain ⟨_, _, u, hu, rfl⟩ := heapAlloc_ok_inv e
  rw [allocHandle_state hu]
  exact h.heap_set _ (b := newBlock n s) rfl _ _

theorem CanonicalStorage.heapWrite {g : Word} {w : Width} {off : Nat} {v : BitVec w.bits} (h : CanonicalStorage s)
    (e : heapWrite g off v s = .ok () t) : CanonicalStorage t := by
  obtain ⟨b, hb, _, rfl⟩ := heapWrite_ok_inv e
  have hstored : Memory.wf b.data = true := h.blocks _ (Sparse.mem_of_get hb)
  exact h.heap_set _ (b := b.store off v) (Memory.wf_write _ _ hstored) _ _

theorem CanonicalStorage.heapDelete {g : Word} (h : CanonicalStorage s) (e : heapDelete g s = .ok () t) :
    CanonicalStorage t := by
  obtain ⟨_, _, rfl⟩ := heapDelete_ok_inv e
  exact { h with
    heap := Sparse.wf_erase _ h.heap
    blocks := fun e he => h.blocks e (List.mem_of_mem_filter he) }

/-- Every write goes through an operation that keeps keys rising. -/
theorem carried_canonicalStorage : Carried CanonicalStorage CanonicalStorage where
  push _ _ h _ := { h with stack := Memory.wf_write _ _ h.stack }
  pop _ _ h _ := { h with }
  regWrite _ _ _ h _ := { h with }
  heapAlloc _ _ _ _ h e := h.heapAlloc e
  heapWrite _ _ _ _ _ h e := h.heapWrite e
  heapDelete _ _ _ h e := h.heapDelete e
  advance _ h := { h with }
  call _ _ h _ _ := { h with callStack := Sparse.wf_set _ _ h.callStack }
  ret _ h _ := { h with }
  jump _ _ h _ := { h with }
  halt _ h := { h with }
  error _ _ h := { h with }

/-- Settles O53: the canonical form, carried through the step. -/
theorem stepKeepsCanonicalStorage : Obligations.StepKeepsCanonicalStorage :=
  fun _ _ h e => carried_canonicalStorage.step h e

end Sys2Proof.Machine
end

section
/-! PROOFS of the statements of 20_memory.md: no step depends on S at or above `sp` or on CS at or above `csp`. -/

namespace Sys2Proof.Machine

/-! ## Steps of two states -/

/-- Two states that fetch alike step alike, where the primitives and the instructions respect the relation. -/
theorem Respects.step {R : State → State → Prop} {s t : State} (c : Respects R) (hstatus : t.status = s.status)
    (hfetch : (fetchDecode s).Agree R (fetchDecode t))
    (hexec : ∀ (i : Instr) (s t : State), R s t → OutcomesAgree R (Machine.exec i s) (Machine.exec i t)) :
    OutcomesAgree R (Machine.step s) (Machine.step t) := by
  cases hs : s.status with
  | haltedOk => simp only [Machine.step, hstatus, hs]; rfl
  | haltedError k => simp only [Machine.step, hstatus, hs]; rfl
  | running =>
    simp only [Machine.step, hstatus, hs]
    cases hr : fetchDecode s <;> cases hr' : fetchDecode t <;> rw [hr, hr'] at hfetch
    · obtain ⟨rfl, h⟩ := hfetch
      exact hexec _ _ _ h
    · exact hfetch.elim
    · exact hfetch.elim
    · obtain ⟨rfl, h⟩ := hfetch
      exact c.error _ _ _ h

/-! ## The relation under each update of the state -/

/-- The same state with other storage for S and CS. -/
def withStacks (stack : List Host.Cell) (callStack : List (Nat × Word)) (s : State) : State :=
  { s with stack := stack, callStack := callStack }

namespace AgreeBelowCursors

variable {s t : State}

/-- Related states are one state with two storages for S and CS, so that a test which reads neither goes the same way
in both. -/
theorem exists_withStacks (h : AgreeBelowCursors s t) : ∃ m c, t = withStacks m c s :=
  ⟨t.stack, t.callStack, h.fields⟩

theorem topValue_eq (h : AgreeBelowCursors s t) {w : Width} (hw : w.bytes ≤ s.sp.toNat) :
    topValue w t = topValue w s := by
  obtain ⟨m, c, rfl⟩ := h.exists_withStacks
  refine memRead_congr fun k hk => h.stack _ ?_
  show s.sp.toNat - w.bytes + k < s.sp.toNat
  omega

/-- Below the new cursor a byte is one of the pushed value or was below the old cursor. -/
theorem afterPush (h : AgreeBelowCursors s t) {w : Width} (v : BitVec w.bits) :
    AgreeBelowCursors (afterPush v s) (afterPush v t) := by
  obtain ⟨m, c, rfl⟩ := h.exists_withStacks
  refine ⟨rfl, fun a ha => ?_, h.callStack⟩
  have hsp : (Machine.afterPush v s).sp.toNat ≤ s.sp.toNat + w.bytes := by
    rw [afterPush_sp, BitVec.toNat_add, BitVec.toNat_ofNat]
    exact (Nat.mod_le _ _).trans (Nat.add_le_add_left (Nat.mod_le _ _) _)
  by_cases hlow : a < s.sp.toNat
  · calc stackByte (Machine.afterPush v (withStacks m c s)) a
      _ = stackByte (withStacks m c s) a := stackByte_afterPush_outside v _ (.inl hlow)
      _ = stackByte s a := h.stack a hlow
      _ = stackByte (Machine.afterPush v s) a := (stackByte_afterPush_outside v s (.inl hlow)).symm
  · obtain ⟨k, rfl⟩ := Nat.exists_eq_add_of_le (Nat.not_lt.mp hlow)
    have hk : k < w.bytes := by omega
    rw [stackByte_afterPush_inside v s hk]
    exact stackByte_afterPush_inside v _ hk

theorem afterPop (h : AgreeBelowCursors s t) {w : Width} (hw : w.bytes ≤ s.sp.toNat) :
    AgreeBelowCursors (afterPop w s) (afterPop w t) := by
  obtain ⟨m, c, rfl⟩ := h.exists_withStacks
  refine ⟨rfl, fun a ha => h.stack a ?_, h.callStack⟩
  rw [afterPop_sp_toNat hw] at ha
  omega

/-- A return address written at `csp` is in both call stacks. -/
theorem callPushed (h : AgreeBelowCursors s t) (a : Word) :
    AgreeBelowCursors { s with callStack := Sparse.set s.callStack s.csp.toNat a, csp := s.csp + 1 }
      { t with callStack := Sparse.set t.callStack t.csp.toNat a, csp := t.csp + 1 } := by
  obtain ⟨m, c, rfl⟩ := h.exists_withStacks
  refine ⟨rfl, h.stack, fun i hi => ?_⟩
  have hcsp : (s.csp + 1).toNat ≤ s.csp.toNat + 1 := Nat.mod_le _ _
  replace hi : i < (s.csp + 1).toNat := hi
  show (Sparse.get (Sparse.set c s.csp.toNat a) i).getD _ = (Sparse.get (Sparse.set s.callStack s.csp.toNat a) i).getD _
  by_cases hlow : i < s.csp.toNat
  · rw [Sparse.get_set_other _ _ hlow.ne, Sparse.get_set_other _ _ hlow.ne]
    exact h.callStack i hlow
  · have htop : i = s.csp.toNat := by omega
    rw [htop, Sparse.get_set_same, Sparse.get_set_same]

theorem callPopped (h : AgreeBelowCursors s t) (hne : s.csp ≠ 0) :
    AgreeBelowCursors { s with csp := s.csp - 1 } { t with csp := t.csp - 1 } := by
  obtain ⟨m, c, rfl⟩ := h.exists_withStacks
  refine ⟨rfl, h.stack, fun i hi => h.callStack i ?_⟩
  replace hi : i < (s.csp - 1).toNat := hi
  rw [csp_pred_toNat hne] at hi
  omega

/-- The entry on top of the call stack is below `csp`. -/
theorem topEntry_eq (h : AgreeBelowCursors s t) (hne : s.csp ≠ 0) :
    callEntry t (s.csp.toNat - 1) = callEntry s (s.csp.toNat - 1) := by
  have hpos : 0 < s.csp.toNat := Nat.pos_of_ne_zero (word_toNat_ne hne)
  exact h.callStack _ (by omega)

/-- A register write, which reads its cell first. -/
theorem regWrite (h : AgreeBelowCursors s t) {w : Width} (r : Byte) (v : BitVec w.bits) :
    AgreeBelowCursors (regWrite r v s) (regWrite r v t) := by
  obtain ⟨m, c, rfl⟩ := h.exists_withStacks
  exact ⟨rfl, h.stack, h.callStack⟩

theorem withIp (h : AgreeBelowCursors s t) (a : Word) : AgreeBelowCursors { s with ip := a } { t with ip := a } := by
  obtain ⟨m, c, rfl⟩ := h.exists_withStacks
  exact ⟨rfl, h.stack, h.callStack⟩

theorem withStatus (h : AgreeBelowCursors s t) (st : Status) :
    AgreeBelowCursors { s with status := st } { t with status := st } := by
  obtain ⟨m, c, rfl⟩ := h.exists_withStacks
  exact ⟨rfl, h.stack, h.callStack⟩

theorem withHeap (h : AgreeBelowCursors s t) (heap : List (Nat × Block)) (hnext : Word) (draws : Nat) :
    AgreeBelowCursors { s with heap := heap, hnext := hnext, draws := draws }
      { t with heap := heap, hnext := hnext, draws := draws } := by
  obtain ⟨m, c, rfl⟩ := h.exists_withStacks
  exact ⟨rfl, h.stack, h.callStack⟩

/-! ## The primitives in related states -/

theorem push_agree (h : AgreeBelowCursors s t) {w : Width} (v : BitVec w.bits) :
    (push v s).Agree AgreeBelowCursors (push v t) := by
  obtain ⟨m, c, rfl⟩ := h.exists_withStacks
  exact .ite ⟨rfl, h⟩ ⟨rfl, h.afterPush v⟩

theorem pop_agree (h : AgreeBelowCursors s t) (w : Width) : (pop w s).Agree AgreeBelowCursors (pop w t) := by
  have hsp : t.sp = s.sp := by rw [h.fields]
  rcases pop_cases w s with ⟨hw, e⟩ | ⟨hw, e⟩ <;> rw [e]
  · rw [pop_underflow (hsp ▸ hw)]
    exact ⟨rfl, h⟩
  · rw [pop_ok (hsp ▸ hw)]
    exact ⟨(h.topValue_eq hw).symm, h.afterPop hw⟩

theorem peek_agree (h : AgreeBelowCursors s t) (w : Width) : (peek w s).Agree AgreeBelowCursors (peek w t) := by
  have hsp : t.sp = s.sp := by rw [h.fields]
  rcases peek_cases w s with ⟨hw, e⟩ | ⟨hw, e⟩ <;> rw [e]
  · rw [peek_underflow (hsp ▸ hw)]
    exact ⟨rfl, h⟩
  · rw [peek_ok (hsp ▸ hw)]
    exact ⟨(h.topValue_eq hw).symm, h⟩

theorem regCheck_agree (h : AgreeBelowCursors s t) (r : Byte) (w : Width) :
    (regCheck r w s).Agree AgreeBelowCursors (regCheck r w t) := by
  obtain ⟨m, c, rfl⟩ := h.exists_withStacks
  exact .ite ⟨rfl, h⟩ ⟨rfl, h⟩

theorem lookup_agree (h : AgreeBelowCursors s t) (g : Word) :
    (lookup g s).Agree AgreeBelowCursors (lookup g t) := by
  have hblock : blockOf t g = blockOf s g := by rw [h.fields]; rfl
  rcases lookup_cases g s with ⟨hb, e⟩ | ⟨b, hb, e⟩ <;> rw [e]
  · rw [lookup_miss (hblock.trans hb)]
    exact ⟨rfl, h⟩
  · rw [lookup_live (hblock.trans hb)]
    exact ⟨rfl, h⟩

/-- An allocation looks at the heap, the limit and the allocator, which related states share. -/
theorem heapAlloc_agree (h : AgreeBelowCursors s t) (n : Nat) :
    (heapAlloc n s).Agree AgreeBelowCursors (heapAlloc n t) := by
  obtain ⟨m, c, rfl⟩ := h.exists_withStacks
  unfold heapAlloc
  rw [allocHandle_congr (s := s) (t := withStacks m c s) rfl rfl rfl rfl]
  refine .ite ⟨rfl, h⟩ (.ite ⟨rfl, h⟩ ?_)
  cases ha : allocHandle s with
  | none => exact ⟨rfl, h⟩
  | some p =>
    have hp : p.2 = { s with hnext := p.2.hnext } := allocHandle_state (h := p.1) ha
    refine ⟨rfl, ?_⟩
    rw [hp]
    exact h.withHeap (Sparse.set s.heap p.1.toNat (newBlock n s)) p.2.hnext (s.draws + 1)

theorem heapRead_agree (h : AgreeBelowCursors s t) (g : Word) (off : Nat) (w : Width) :
    (heapRead g off w s).Agree AgreeBelowCursors (heapRead g off w t) :=
  (h.lookup_agree g).bind fun _ _ _ h => .ite ⟨rfl, h⟩ ⟨rfl, h⟩

theorem heapWrite_agree (h : AgreeBelowCursors s t) {w : Width} (g : Word) (off : Nat) (v : BitVec w.bits) :
    (heapWrite g off v s).Agree AgreeBelowCursors (heapWrite g off v t) :=
  (h.lookup_agree g).bind fun b s t h => by
    obtain ⟨m, c, rfl⟩ := h.exists_withStacks
    exact .ite ⟨rfl, h⟩ ⟨rfl, h.withHeap (Sparse.set s.heap g.toNat (b.store off v)) s.hnext s.draws⟩

theorem heapDelete_agree (h : AgreeBelowCursors s t) (g : Word) :
    (heapDelete g s).Agree AgreeBelowCursors (heapDelete g t) :=
  (h.lookup_agree g).bind fun _ s t h => by
    obtain ⟨m, c, rfl⟩ := h.exists_withStacks
    exact ⟨rfl, h.withHeap (Sparse.erase s.heap g.toNat) s.hnext s.draws⟩

theorem callCheck_agree (h : AgreeBelowCursors s t) : (callCheck s).Agree AgreeBelowCursors (callCheck t) := by
  obtain ⟨m, c, rfl⟩ := h.exists_withStacks
  exact .ite ⟨rfl, h⟩ ⟨rfl, h⟩

theorem csPush_agree (h : AgreeBelowCursors s t) (a : Word) :
    (csPush a s).Agree AgreeBelowCursors (csPush a t) :=
  h.callCheck_agree.bind fun _ _ _ h => ⟨rfl, h.callPushed a⟩

theorem csPop_agree (h : AgreeBelowCursors s t) : (csPop s).Agree AgreeBelowCursors (csPop t) := by
  have hcsp : t.csp = s.csp := by rw [h.fields]
  rcases csPop_cases s with ⟨hz, e⟩ | ⟨hne, e⟩ <;> rw [e]
  · rw [csPop, if_pos (hcsp ▸ hz)]
    exact ⟨rfl, h⟩
  · rw [csPop, if_neg (hcsp ▸ hne), hcsp]
    exact ⟨(h.topEntry_eq hne).symm, hcsp ▸ h.callPopped hne⟩

theorem targetCheck_agree (h : AgreeBelowCursors s t) (a : Word) :
    (targetCheck a s).Agree AgreeBelowCursors (targetCheck a t) := by
  obtain ⟨m, c, rfl⟩ := h.exists_withStacks
  exact .ite ⟨rfl, h⟩ ⟨rfl, h⟩

theorem advance_agree (h : AgreeBelowCursors s t) : (advance s).Agree AgreeBelowCursors (advance t) := by
  obtain ⟨m, c, rfl⟩ := h.exists_withStacks
  exact ⟨rfl, h.withIp (s.ip + 1)⟩

/-- Related states fetch the same record and decode it to the same instruction. -/
theorem fetchDecode_agree (h : AgreeBelowCursors s t) :
    (fetchDecode s).Agree AgreeBelowCursors (fetchDecode t) := by
  have hfetch : (fetch s).Agree AgreeBelowCursors (fetch t) := by
    have hrec : t.program[t.ip.toNat]? = s.program[s.ip.toNat]? := by rw [h.fields]
    unfold fetch
    rw [hrec]
    cases s.program[s.ip.toNat]? <;> exact ⟨rfl, h⟩
  exact hfetch.bind fun rec _ _ h => by cases decodeRecord rec <;> exact ⟨rfl, h⟩

end AgreeBelowCursors

theorem respects_agreeBelowCursors : Respects AgreeBelowCursors where
  push v _ _ h := h.push_agree v
  pop w _ _ h := h.pop_agree w
  peek w _ _ h := h.peek_agree w
  heapAlloc n _ _ h := h.heapAlloc_agree n
  heapRead g off w _ _ h := h.heapRead_agree g off w
  heapWrite g off v _ _ h := h.heapWrite_agree g off v
  heapDelete g _ _ h := h.heapDelete_agree g
  heapSize g _ _ h := (h.lookup_agree g).bind fun _ _ _ h => ⟨rfl, h⟩
  callCheck _ _ h := h.callCheck_agree
  pushReturn s t h := by
    rw [show t.ip = s.ip by rw [h.fields]]
    exact h.csPush_agree (s.ip + 1)
  csPop _ _ h := h.csPop_agree
  targetCheck a _ _ h := h.targetCheck_agree a
  setIp a _ _ h := ⟨rfl, h.withIp a⟩
  advance _ _ h := h.advance_agree
  halt _ _ h := h.withStatus .haltedOk
  error k _ _ h := h.withStatus (.haltedError k)

/-- PUSH_REG and MOV read registers, which related states share. -/
theorem AgreeBelowCursors.exec_agree {s t : State} (h : AgreeBelowCursors s t) (i : Instr) :
    OutcomesAgree AgreeBelowCursors (exec i s) (exec i t) := by
  have c := respects_agreeBelowCursors
  refine c.exec i h (fun w r _ => ?_) fun w r _ => ?_
  · refine (h.regCheck_agree r w).bind fun _ s t h => ?_
    rw [show regRead r w t = regRead r w s by rw [h.fields]; rfl]
    exact c.pushThenAdvance _ h
  · exact (h.regCheck_agree r w).bind fun _ _ _ h => (h.pop_agree w).bind fun v _ _ h => (h.regWrite r v).advance_agree

/-- Settles O57: every primitive reads S below `sp` and CS below `csp` only, and writes the same in both states. -/
theorem bytesAboveCursorsDoNotMatter : Obligations.BytesAboveCursorsDoNotMatter := fun s t h =>
  respects_agreeBelowCursors.step (show t.status = s.status by rw [h.fields]) h.fetchDecode_agree
    fun i _ _ h => h.exec_agree i

end Sys2Proof.Machine
end

section
/-! PROOFS of the statements of 20_memory.md: the little-endian access, and pops of another width than the push. -/

namespace Sys2Proof.Machine

variable {s : State}

/-! ## The value read -/

theorem leNat_bytesAt (rd : Nat → Byte) (a n : Nat) :
    leNat (bytesAt rd a n) = ((List.range n).map fun k => (rd (a + k)).toNat * 2 ^ (8 * k)).sum := by
  induction n generalizing a with
  | zero => rfl
  | succ n ih =>
    have hshift : ∀ k, (rd (a + (k + 1))).toNat * 2 ^ (8 * (k + 1)) =
        256 * ((rd (a + 1 + k)).toNat * 2 ^ (8 * k)) := fun k => by
      rw [show a + (k + 1) = a + 1 + k by omega, Nat.mul_succ, Nat.pow_add]
      ring
    rw [List.range_succ_eq_map, List.map_cons, List.sum_cons, List.map_map]
    simp only [Function.comp_def, Nat.succ_eq_add_one, hshift, List.sum_map_mul_left, ← ih (a + 1)]
    simp [bytesAt, leNat]

/-- The bytes of a read fill its width: nothing is cut off. -/
theorem memRead_toNat (rd : Nat → Byte) (a : Nat) (w : Width) :
    (memRead rd a w).toNat = leNat (bytesAt rd a w.bytes) := by
  have hlt := leNat_lt (bytesAt rd a w.bytes)
  rw [bytesAt_length, ← Width.two_pow_bits] at hlt
  exact Nat.mod_eq_of_lt hlt

/-! ## The bytes stored -/

theorem get_write_valueBytes (m : List Host.Cell) (a : Nat) {w : Width} (v : BitVec w.bits) {k : Nat}
    (hk : k < w.bytes) :
    Sparse.get (Memory.write m a (valueBytes v)) (a + k) = some (v.extractLsb' (8 * k) 8) := by
  have hk' : k < (valueBytes v).length := by rwa [valueBytes_length]
  rw [Memory.get_write_inside _ _ _ hk', valueBytes_getElem]

/-- Settles O22: the sum from the bytes read one by one, the rest from where a write puts each byte. -/
theorem littleEndianAccess : Obligations.LittleEndianAccess := by
  intro w a
  refine ⟨fun rd => (memRead_toNat rd a w).trans (leNat_bytesAt rd a w.bytes), fun m v dflt => ⟨?_, ?_, ?_⟩⟩
  · exact fun k hk => get_write_valueBytes m a v hk
  · exact fun x hx => Memory.get_write_outside m a _ (by rwa [valueBytes_length])
  · refine memRead_of_bytes fun k hk => ?_
    rw [get_write_valueBytes m a v hk, Option.getD_some]

/-! ## Pops out of a pushed value -/

theorem extractLsb'_extractLsb' {n : Nat} (v : BitVec n) (i j : Nat) {l k : Nat} (h : j + k ≤ l) :
    (v.extractLsb' i l).extractLsb' j k = v.extractLsb' (i + j) k := by
  apply BitVec.eq_of_getLsbD_eq
  intro b hb
  have hbl : j + b < l := by omega
  simp only [BitVec.getLsbD_extractLsb', hb, hbl, decide_true, Bool.true_and, Nat.add_assoc]

/-- A read of width `u` inside a pushed value, `j` bytes above its lowest, gives its bits from `8j` on (20_memory.md
R40, R41). -/
theorem stackValue_afterPush {w : Width} (v : BitVec w.bits) (s : State) (j : Nat) (u : Width)
    (h : j + u.bytes ≤ w.bytes) :
    stackValue (afterPush v s) (s.sp.toNat + j) u = v.extractLsb' (8 * j) u.bits := by
  refine memRead_of_bytes fun k hk => ?_
  have hbits : 8 * k + 8 ≤ u.bits := by rw [Width.bits_eq u]; omega
  rw [Nat.add_assoc, stackByte_afterPush_inside v s (by omega), extractLsb'_extractLsb' v _ _ hbits, Nat.mul_add]

/-- A pop with the cursor inside a pushed value, `u.bytes` above its byte `j`. -/
theorem pop_of_afterPush {w : Width} (v : BitVec w.bits) (j : Nat) (u : Width) {p : Word}
    (h : j + u.bytes ≤ w.bytes) (hp : p.toNat = s.sp.toNat + j + u.bytes) :
    pop u { afterPush v s with sp := p } =
      .ok (v.extractLsb' (8 * j) u.bits) (afterPop u { afterPush v s with sp := p }) := by
  have hv : topValue u { afterPush v s with sp := p } = v.extractLsb' (8 * j) u.bits := by
    show stackValue (afterPush v s) (p.toNat - u.bytes) u = _
    rw [hp, Nat.add_sub_cancel, stackValue_afterPush v s j u h]
  rw [pop_ok (show u.bytes ≤ p.toNat by omega), hv]

/-- The cursor `k` bytes below the top of a pushed value. -/
theorem sp_below_pushed {w : Width} (v : BitVec w.bits) (hr : s.sp.toNat + w.bytes ≤ s.stackMax.toNat) {k : Nat}
    (hk : k ≤ w.bytes) : ((afterPush v s).sp - BitVec.ofNat 64 k).toNat = s.sp.toNat + w.bytes - k := by
  have hsp := afterPush_sp_toNat v hr
  have hw : w.bytes < 2 ^ 64 := by cases w <;> decide
  rw [BitVec.toNat_sub_of_le, hsp, BitVec.toNat_ofNat, Nat.mod_eq_of_lt (by omega)]
  rw [BitVec.le_def, hsp, BitVec.toNat_ofNat, Nat.mod_eq_of_lt (by omega)]
  omega

/-- A pop of the width pushed gives the value back and puts the cursor back. -/
theorem pop_push_same {w : Width} (v : BitVec w.bits) (hr : s.sp.toNat + w.bytes ≤ s.stackMax.toNat) :
    ∃ u, pop w (afterPush v s) = .ok v u ∧ u.sp = s.sp := by
  have hpop := pop_of_afterPush v 0 w (Nat.zero_add _).le (afterPush_sp_toNat v hr)
  rw [Nat.mul_zero, BitVec.extractLsb'_eq_self] at hpop
  exact ⟨_, hpop, BitVec.add_sub_cancel _ _⟩

/-- Two half-word pops of a pushed word: the high half first, then the low half (20_memory.md R44). -/
theorem pop_hwords_of_word (v : BitVec Width.word.bits) (hr : s.sp.toNat + 8 ≤ s.stackMax.toNat) :
    ∃ u u', pop .hword (afterPush v s) = .ok (v.extractLsb' 32 32) u ∧
      pop .hword u = .ok (v.extractLsb' 0 32) u' ∧ u'.sp = s.sp := by
  have hhigh : (afterPush v s).sp.toNat = s.sp.toNat + 4 + 4 := afterPush_sp_toNat v hr
  have hlow : ((afterPush v s).sp - BitVec.ofNat 64 4).toNat = s.sp.toNat + 0 + 4 :=
    sp_below_pushed v hr (k := 4) (by decide)
  refine ⟨_, _, pop_of_afterPush v 4 .hword (by decide) hhigh, pop_of_afterPush v 0 .hword (by decide) hlow, ?_⟩
  show s.sp + 8#64 - 4#64 - 4#64 = s.sp
  bv_omega

/-- The byte pops of a pushed word, the `k`-th from `k` bytes below the top: byte `7 - k` (20_memory.md R44). -/
theorem pop_byte_of_word (v : BitVec Width.word.bits) (hr : s.sp.toNat + 8 ≤ s.stackMax.toNat) {k : Nat} (hk : k < 8) :
    ∃ u, pop .byte { afterPush v s with sp := (afterPush v s).sp - BitVec.ofNat 64 k } =
        .ok (v.extractLsb' (8 * (7 - k)) 8) u ∧ u.sp = (afterPush v s).sp - BitVec.ofNat 64 (k + 1) := by
  have hp : ((afterPush v s).sp - BitVec.ofNat 64 k).toNat = s.sp.toNat + (7 - k) + 1 := by
    rw [sp_below_pushed v hr (show k ≤ 8 by omega)]
    show s.sp.toNat + 8 - k = _
    omega
  refine ⟨_, pop_of_afterPush v (7 - k) .byte (show 7 - k + 1 ≤ 8 by omega) hp, ?_⟩
  show (afterPush v s).sp - BitVec.ofNat 64 k - BitVec.ofNat 64 1 = _
  rw [BitVec.sub_sub, BitVec.ofNat_add]

/-- Settles O23: each pop is a read inside the pushed value, at the byte its cursor leaves beneath it. -/
theorem mixedWidthPops : Obligations.MixedWidthPops := by
  intro s
  refine ⟨fun w v hr => ⟨_, push_ok v hr, pop_push_same v hr⟩, fun v hr => ⟨_, push_ok v hr, ?_, ?_⟩⟩
  · exact pop_hwords_of_word v hr
  · exact fun k hk => pop_byte_of_word v hr hk

end Sys2Proof.Machine
end

section
/-! PROOFS of the statements of 20_memory.md: allocation, and access to a block after a write or a deletion. -/

namespace Sys2Proof.Machine

variable {s t : State}

/-! ## When an allocation is refused -/

theorem exceedsLimit_iff {n : Nat} :
    exceedsLimit n s = true ↔ ∃ limit, s.heapLimit = some limit ∧ limit < liveBytes s + n := by
  cases hl : s.heapLimit <;> simp [exceedsLimit, hl]

/-- The three conditions of R56 are the three tests of `HeapAlloc`. -/
theorem heapAlloc_refused {n : Nat} (h : AllocationRefused n s) : heapAlloc n s = .raised .outOfMemory s := by
  rcases heapAlloc_cases n s with e | ⟨g, u, hsize, hlimit, hhandle, _⟩
  · exact e
  · rcases h with hbig | hover | hnone
    · omega
    · rw [exceedsLimit_iff.mpr hover] at hlimit
      cases hlimit
    · rw [hnone] at hhandle
      cases hhandle

theorem heapAlloc_granted {n : Nat} (h : ¬ AllocationRefused n s) :
    ∃ g u, n < 2 ^ 64 ∧ allocHandle s = some (g, u) ∧
      heapAlloc n s = .ok g { s with
        heap := Sparse.set s.heap g.toNat (newBlock n s)
        hnext := u.hnext
        draws := s.draws + 1 } := by
  rw [AllocationRefused, not_or, not_or, Nat.not_le, ← exceedsLimit_iff] at h
  obtain ⟨hsize, hlimit, hhandle⟩ := h
  obtain ⟨⟨g, u⟩, hp⟩ := Option.ne_none_iff_exists'.mp hhandle
  refine ⟨g, u, hsize, hp, ?_⟩
  rw [heapAlloc, if_neg (Nat.not_le.mpr hsize), if_neg hlimit, hp, allocHandle_state hp]

/-- The new block is live at its handle, and every other handle is as it was. -/
theorem allocatedBlock_of_heap_set {n : Nat} {g : Word} (hn : n < 2 ^ 64)
    (e : t.heap = Sparse.set s.heap g.toNat (newBlock n s)) : AllocatedBlock s t g n where
  block := ⟨_, blockOf_of_heap_set e, newBlock_size hn s⟩
  others _ hne := blockOf_of_heap_set_other e hne

/-! ## MALLOC -/

theorem exec_malloc {w : Width} {i : Word → Instr}
    (hi : (w, i) ∈ [(Width.byte, Instr.mallocByte), (.hword, .mallocHword), (.word, .mallocWord)]) (n : Word)
    (s : State) : exec (i n) s = (allocate w n s).outcome := by
  simp only [List.mem_cons, Prod.mk.injEq, List.not_mem_nil, or_false] at hi
  rcases hi with ⟨rfl, rfl⟩ | ⟨rfl, rfl⟩ | ⟨rfl, rfl⟩ <;> rfl

theorem allocate_refused {w : Width} {n : Word} (h : AllocationRefused (n.toNat * w.bytes) s) :
    allocate w n s = .raised .outOfMemory s := by
  rw [allocate, elementOffset, heapAlloc_refused h, Result.bind_raised]

/-- What is left of MALLOC once the allocation is granted is a push, which does not run out of memory. -/
theorem allocate_granted_status {w : Width} {n : Word} (h : ¬ AllocationRefused (n.toNat * w.bytes) s)
    (e : (allocate w n s).outcome = .next t) : t.status = s.status ∨ t.status = .haltedError .stackOverflow := by
  obtain ⟨g, u, _, _, halloc⟩ := heapAlloc_granted h
  rw [allocate, elementOffset, halloc, Result.bind_ok] at e
  rcases push_cases (w := .word) g
      { s with heap := Sparse.set s.heap g.toNat (newBlock _ s), hnext := u.hnext, draws := s.draws + 1 }
    with ⟨_, hpush⟩ | ⟨_, hpush⟩ <;> rw [hpush] at e <;> cases e
  · exact .inr rfl
  · exact .inl rfl

/-- Settles O36: a refusal is the error OutOfMemory; a grant leaves the status running or is a StackOverflow. -/
theorem outOfMemoryInExactlyThreeCases : Obligations.OutOfMemoryInExactlyThreeCases := by
  intro w i hi n s t hs e
  rw [exec_malloc hi] at e
  refine ⟨fun hstatus => by_contra fun hgranted => ?_, fun hrefused => ?_⟩
  · rcases allocate_granted_status hgranted e with h | h
    · rw [hstatus, hs] at h; cases h
    · rw [hstatus] at h; cases h
  · rw [allocate_refused hrefused] at e
    cases e
    rfl

/-! ## MALLOC under ALLOC_SEQ -/

theorem allocHandle_seq_next (hseq : s.alloc = .seq) (h : s.hnext.toNat ≠ 2 ^ 64 - 1) :
    allocHandle s = some (s.hnext, { s with hnext := s.hnext + 1 }) := by
  simp only [allocHandle, hseq, if_neg h]

theorem allocHandle_seq_last (hseq : s.alloc = .seq) (h : s.hnext.toNat = 2 ^ 64 - 1) : allocHandle s = none := by
  simp only [allocHandle, hseq, if_pos h]

/-- Settles O34: `hnext` is handed out unless it is the last word, and the push of it has room. -/
theorem sequentialAllocation : Obligations.SequentialAllocation := by
  intro w i hi n s hseq
  rw [exec_malloc hi]
  refine ⟨fun hnext hsize hlimit hroom => ?_, fun hlast => ?_⟩
  · have hhandle := allocHandle_seq_next hseq hnext.ne
    have hgranted : ¬ AllocationRefused (n.toNat * w.bytes) s := by
      rintro (hbig | ⟨limit, hl, hover⟩ | hnone)
      · omega
      · exact absurd (hlimit limit hl) (Nat.not_le.mpr hover)
      · rw [hhandle] at hnone; cases hnone
    obtain ⟨g, u, _, hgiven, halloc⟩ := heapAlloc_granted hgranted
    rw [hhandle] at hgiven
    cases hgiven
    obtain ⟨hpush, hleaves⟩ := push_leavesValue (w := .word) s.hnext (s := { s with
      heap := Sparse.set s.heap s.hnext.toNat (newBlock (n.toNat * w.bytes) s)
      hnext := s.hnext + 1
      draws := s.draws + 1 }) hroom
    refine ⟨_, ?_, allocatedBlock_of_heap_set hsize rfl, ⟨hleaves.pushed.cursor, hleaves.pushed.inside,
      hleaves.pushed.outside⟩, rfl⟩
    rw [allocate, elementOffset, halloc, Result.bind_ok, hpush]
    rfl
  · rw [allocate_refused (.inr (.inr (allocHandle_seq_last hseq hlast)))]
    rfl

/-! ## Reading a block after a write -/

theorem blockValue_store_same {w : Width} (b : Block) (off : Nat) (v : BitVec w.bits) :
    blockValue (b.store off v) off w = v :=
  memRead_of_bytes fun _ hk => blockByte_store_inside b off v hk

theorem blockValue_store_disjoint {w u : Width} (b : Block) {off off' : Nat} (v : BitVec w.bits)
    (h : off' + u.bytes ≤ off ∨ off + w.bytes ≤ off') : blockValue (b.store off v) off' u = blockValue b off' u :=
  memRead_congr fun k hk => blockByte_store_outside b off v (by omega)

/-- All that a read of width `u` at `off` uses of a block: its size and the value there. -/
def Block.view (off : Nat) (u : Width) (b : Block) : Word × BitVec u.bits :=
  (b.size, blockValue b off u)

/-- A read gives the same value, or raises the same error, where it finds the same size and value, or no block in
either state. -/
theorem heapRead_of_view {g : Word} {off : Nat} {u : Width}
    (h : (blockOf t g).map (Block.view off u) = (blockOf s g).map (Block.view off u)) :
    (∀ x, heapRead g off u s = .ok x s → heapRead g off u t = .ok x t) ∧
      ∀ k, heapRead g off u s = .raised k s → heapRead g off u t = .raised k t := by
  rcases heapRead_cases g off u s with ⟨hb, e⟩ | ⟨b, hb, ho, e⟩ | ⟨b, hb, ho, e⟩ <;>
    simp only [hb, Option.map_none, Option.map_some, Option.map_eq_none_iff, Option.map_eq_some_iff, Block.view,
      Prod.mk.injEq] at h
  · rw [e, heapRead_miss off u h]
    simp
  · obtain ⟨b', hb', hsize, _⟩ := h
    rw [e, heapRead_bounds hb' (hsize ▸ ho)]
    simp
  · obtain ⟨b', hb', hsize, hvalue⟩ := h
    rw [e, heapRead_ok hb' (hsize ▸ ho), hvalue]
    simp

/-- Settles O41: the block written has the new value in place, its size and its other values as before, and no other
block changes. -/
theorem heapReadAfterWrite : Obligations.HeapReadAfterWrite := by
  intro h off w v s t e
  obtain ⟨b, hb, ho, rfl⟩ := heapWrite_ok_inv e
  have hsame : blockOf { s with heap := Sparse.set s.heap h.toNat (b.store off v) } h = some (b.store off v) :=
    blockOf_of_heap_set (s := s) rfl
  refine ⟨?_, fun g off' u hdisjoint => heapRead_of_view ?_⟩
  · rw [heapRead_ok hsame ho, blockValue_store_same]
  · by_cases hg : g = h
    · subst hg
      have happart := hdisjoint.resolve_left (fun hne => hne rfl)
      rw [hsame, hb, Option.map_some, Option.map_some, Block.view, Block.view, Block.store_size,
        blockValue_store_disjoint b v happart]
    · rw [blockOf_of_heap_set_other (s := s) rfl hg]

/-! ## After a deletion -/

/-- Settles O42: a handle that is not live misses in every access, and a deletion makes its handle one. -/
theorem deletedHandleIsInvalid : Obligations.DeletedHandleIsInvalid := by
  intro h s
  refine ⟨heapDelete_miss, fun hlive => ?_⟩
  obtain ⟨b, hb⟩ := Option.isSome_iff_exists.mp hlive
  have hdead : blockOf { s with heap := Sparse.erase s.heap h.toNat } h = none := blockOf_of_heap_erase (s := s) rfl
  exact ⟨_, heapDelete_live hb, fun g hg => blockOf_of_heap_erase_other rfl hg, heapSize_miss hdead,
    heapDelete_miss hdead, fun off w => ⟨heapRead_miss off w hdead, fun v => heapWrite_miss off v hdead⟩⟩

end Sys2Proof.Machine
end

section
/-! PROOFS of the statements of 30_encoding.md: the record read back from the wire, and the record fields that count. -/

namespace Sys2Proof.Laws

/-- Encoder and decoder agree on every instruction. -/
theorem wireAgrees (i : Instr) : WireAgrees.Statement i := by
  cases i with
  | pushByte imm => exact WireAgrees.pushByte imm
  | pushHword imm => exact WireAgrees.pushHword imm
  | pushWord imm => exact WireAgrees.pushWord imm
  | pushRegByte r => exact WireAgrees.pushRegByte r
  | pushRegHword r => exact WireAgrees.pushRegHword r
  | pushRegWord r => exact WireAgrees.pushRegWord r
  | popByte => exact WireAgrees.popByte
  | popHword => exact WireAgrees.popHword
  | popWord => exact WireAgrees.popWord
  | movByte r => exact WireAgrees.movByte r
  | movHword r => exact WireAgrees.movHword r
  | movWord r => exact WireAgrees.movWord r
  | dupByte => exact WireAgrees.dupByte
  | dupHword => exact WireAgrees.dupHword
  | dupWord => exact WireAgrees.dupWord
  | plusByte => exact WireAgrees.plusByte
  | plusHword => exact WireAgrees.plusHword
  | plusWord => exact WireAgrees.plusWord
  | subByte => exact WireAgrees.subByte
  | subHword => exact WireAgrees.subHword
  | subWord => exact WireAgrees.subWord
  | multByte => exact WireAgrees.multByte
  | multHword => exact WireAgrees.multHword
  | multWord => exact WireAgrees.multWord
  | notByte => exact WireAgrees.notByte
  | notHword => exact WireAgrees.notHword
  | notWord => exact WireAgrees.notWord
  | orByte => exact WireAgrees.orByte
  | orHword => exact WireAgrees.orHword
  | orWord => exact WireAgrees.orWord
  | andByte => exact WireAgrees.andByte
  | andHword => exact WireAgrees.andHword
  | andWord => exact WireAgrees.andWord
  | xorByte => exact WireAgrees.xorByte
  | xorHword => exact WireAgrees.xorHword
  | xorWord => exact WireAgrees.xorWord
  | eqByte => exact WireAgrees.eqByte
  | eqHword => exact WireAgrees.eqHword
  | eqWord => exact WireAgrees.eqWord
  | ltByte => exact WireAgrees.ltByte
  | ltHword => exact WireAgrees.ltHword
  | ltWord => exact WireAgrees.ltWord
  | lteByte => exact WireAgrees.lteByte
  | lteHword => exact WireAgrees.lteHword
  | lteWord => exact WireAgrees.lteWord
  | gtByte => exact WireAgrees.gtByte
  | gtHword => exact WireAgrees.gtHword
  | gtWord => exact WireAgrees.gtWord
  | gteByte => exact WireAgrees.gteByte
  | gteHword => exact WireAgrees.gteHword
  | gteWord => exact WireAgrees.gteWord
  | eqChar => exact WireAgrees.eqChar
  | eqInt => exact WireAgrees.eqInt
  | eqLong => exact WireAgrees.eqLong
  | ltChar => exact WireAgrees.ltChar
  | ltInt => exact WireAgrees.ltInt
  | ltLong => exact WireAgrees.ltLong
  | lteChar => exact WireAgrees.lteChar
  | lteInt => exact WireAgrees.lteInt
  | lteLong => exact WireAgrees.lteLong
  | gtChar => exact WireAgrees.gtChar
  | gtInt => exact WireAgrees.gtInt
  | gtLong => exact WireAgrees.gtLong
  | gteChar => exact WireAgrees.gteChar
  | gteInt => exact WireAgrees.gteInt
  | gteLong => exact WireAgrees.gteLong
  | mallocByte n => exact WireAgrees.mallocByte n
  | mallocHword n => exact WireAgrees.mallocHword n
  | mallocWord n => exact WireAgrees.mallocWord n
  | mgetByte n => exact WireAgrees.mgetByte n
  | mgetHword n => exact WireAgrees.mgetHword n
  | mgetWord n => exact WireAgrees.mgetWord n
  | msetByte n => exact WireAgrees.msetByte n
  | msetHword n => exact WireAgrees.msetHword n
  | msetWord n => exact WireAgrees.msetWord n
  | mdelete => exact WireAgrees.mdelete
  | msize => exact WireAgrees.msize
  | jumpAbs t => exact WireAgrees.jumpAbs t
  | jumpIfByte t => exact WireAgrees.jumpIfByte t
  | jumpIfHword t => exact WireAgrees.jumpIfHword t
  | jumpIfWord t => exact WireAgrees.jumpIfWord t
  | call t => exact WireAgrees.call t
  | ret => exact WireAgrees.ret
  | halt => exact WireAgrees.halt

end Sys2Proof.Laws

namespace Sys2Proof

/-! ## The opcode decoder -/

theorem paylen_le_eight (op : Operation) (w : Option Width) : op.paylen w ≤ 8 := by
  cases op with
  | push => rcases w with _ | _ | _ | _ <;> decide
  | _ => simp [Operation.paylen]

/-- The outputs of `Decode` that depend on the opcode through operation and width alone (30_encoding.md R72, R82). -/
theorem decodeOpcode_fields {o : Byte} {d : Decoded} (h : decodeOpcode o = some d) :
    d.paylen = d.op.paylen d.width ∧ d.usesReg = d.op.usesReg := by
  unfold decodeOpcode at h
  split at h
  · cases h
  · split at h
    · cases h
    · dsimp only at h
      split at h
      · cases h; exact ⟨rfl, rfl⟩
      · cases h

theorem decodeOpcode_paylen_le {o : Byte} {d : Decoded} (h : decodeOpcode o = some d) : d.paylen ≤ 8 :=
  (decodeOpcode_fields h).1 ▸ paylen_le_eight _ _

/-! ## A record on the wire

The payload of a record is `leBytes d.paylen`, so the operand read back is the one written modulo `256 ^ d.paylen`. -/

theorem takeRecord_unknown {o : Byte} (h : decodeOpcode o = none) (tail : List Byte) :
    takeRecord (o :: tail) = .error (.unknownOpcode o) := by
  simp [takeRecord, h]

theorem takeRecord_opcode_alone {o : Byte} {d : Decoded} (h : decodeOpcode o = some d) :
    takeRecord [o] = .error .truncatedRecord := by
  simp [takeRecord, h]

theorem takeRecord_short_payload {o : Byte} {d : Decoded} (h : decodeOpcode o = some d) (r : Byte) {payload : List Byte}
    (hlen : payload.length < d.paylen) : takeRecord (o :: r :: payload) = .error .truncatedRecord := by
  simp [takeRecord, h, hlen]

theorem takeRecord_whole_payload {o : Byte} {d : Decoded} (h : decodeOpcode o = some d) (r : Byte) {payload : List Byte}
    (hlen : payload.length = d.paylen) (rest : List Byte) :
    takeRecord (o :: r :: (payload ++ rest)) = .ok (⟨o, r, BitVec.ofNat 64 (leNat payload)⟩, rest) := by
  simp [takeRecord, h, ← hlen]

/-- Everything an accepted turn of `DecodeStream`'s loop says about its input. -/
theorem takeRecord_ok_inv {bytes rest : List Byte} {rec : Record} (h : takeRecord bytes = .ok (rec, rest)) :
    ∃ d payload, decodeOpcode rec.opcode = some d ∧ payload.length = d.paylen ∧
      rec.operand = BitVec.ofNat 64 (leNat payload) ∧ bytes = rec.opcode :: rec.registerIndex :: (payload ++ rest) := by
  rcases bytes with _ | ⟨o, tail⟩
  · cases h
  · rcases hd : decodeOpcode o with _ | d
    · rw [takeRecord_unknown hd] at h
      cases h
    · rcases tail with _ | ⟨r, tail⟩
      · rw [takeRecord_opcode_alone hd] at h
        cases h
      · by_cases hlen : tail.length < d.paylen
        · rw [takeRecord_short_payload hd r hlen] at h
          cases h
        · have htake : (tail.take d.paylen).length = d.paylen := by simp; omega
          have hwhole := takeRecord_whole_payload hd r htake (tail.drop d.paylen)
          rw [List.take_append_drop, h] at hwhole
          cases hwhole
          exact ⟨d, _, hd, htake, rfl, by rw [List.take_append_drop]⟩

/-- The record that a whole record's bytes are read back as: the operand modulo the payload. -/
theorem takeRecord_written {o : Byte} {d : Decoded} (h : decodeOpcode o = some d) (r : Byte) (imm : Word)
    (rest : List Byte) :
    takeRecord (o :: r :: leBytes d.paylen imm.toNat ++ rest) =
      .ok (⟨o, r, BitVec.ofNat 64 (imm.toNat % 256 ^ d.paylen)⟩, rest) := by
  rw [← Machine.leNat_leBytes]
  exact takeRecord_whole_payload h r (Machine.leBytes_length ..) rest

/-- A record whose operand fits is read back as it was written. -/
theorem takeRecord_written_fits {o : Byte} {d : Decoded} (h : decodeOpcode o = some d) (r : Byte) {imm : Word}
    (hfits : imm.toNat < 256 ^ d.paylen) (rest : List Byte) :
    takeRecord (o :: r :: leBytes d.paylen imm.toNat ++ rest) = .ok (⟨o, r, imm⟩, rest) := by
  rw [takeRecord_written h, Nat.mod_eq_of_lt hfits, BitVec.ofNat_toNat, BitVec.setWidth_eq]

/-! ## One instruction -/

/-- Settles O1: the bytes written are read back as the record stored for `i`, and that record decodes to `i`. -/
theorem decodeReturnsEncodedInstruction : Obligations.DecodeReturnsEncodedInstruction := by
  intro i rest hwf
  obtain ⟨⟨d, hd, hpaylen, -⟩, hfits⟩ := Laws.wireAgrees i
  have htake : takeRecord (encode i ++ rest) = .ok (encodeRecord i, rest) := by
    rw [encode, ← hpaylen]
    exact takeRecord_written_fits hd _ (hpaylen ▸ hfits hwf) rest
  simp only [decode, htake, (Laws.wireAgrees i).decodeRecord]

/-- Settles O7, by running the decoder on each word. -/
theorem specWordsDecode : Obligations.SpecWordsDecode :=
  ⟨rfl, rfl, rfl, rfl, rfl, rfl, rfl, rfl, rfl⟩

/-- Settles O5: a finite table, compared entry by entry on the 256 opcode bytes. -/
theorem reservedOpcodesAreExactlyTheListed : Obligations.ReservedOpcodesAreExactlyTheListed := by
  unfold Obligations.ReservedOpcodesAreExactlyTheListed
  decide

/-! ## The fields of a record that count -/

/-- An operation makes its instruction of the fields it uses (30_encoding.md R70, R82). -/
theorem instrOf_congr {op : Operation} {w : Option Width} {r r' : Byte} {imm imm' : Word}
    (hr : op.usesReg = true → r = r') (himm : op.paylen w ≠ 0 → imm = imm') :
    instrOf op w r imm = instrOf op w r' imm' := by
  cases op with
  | pushReg | mov =>
    cases hr rfl
    rcases w with _ | _ | _ | _ <;> rfl
  | malloc | mget | mset | jumpAbs | jumpIf | call =>
    cases himm (Nat.succ_ne_zero 7)
    rcases w with _ | _ | _ | _ <;> rfl
  | push =>
    rcases w with _ | w
    · rfl
    · cases himm (by cases w <;> decide)
      cases w <;> rfl
  | cmp signed rel => cases signed <;> cases rel <;> rcases w with _ | _ | _ | _ <;> rfl
  | _ => rcases w with _ | _ | _ | _ <;> rfl

theorem decodeRecord_congr {rec rec' : Record} {d : Decoded} (hd : decodeOpcode rec.opcode = some d)
    (ho : rec'.opcode = rec.opcode) (hr : d.usesReg = true → rec'.registerIndex = rec.registerIndex)
    (himm : d.paylen ≠ 0 → rec'.operand = rec.operand) : decodeRecord rec' = decodeRecord rec := by
  obtain ⟨hpaylen, huses⟩ := decodeOpcode_fields hd
  rw [decodeRecord, decodeRecord, ho, hd, Option.bind_some, Option.bind_some]
  exact instrOf_congr (huses ▸ hr) (hpaylen ▸ himm)

theorem Machine.immediate_congr {w : Width} {imm imm' : Word} (h : imm.toNat % 2 ^ w.bits = imm'.toNat % 2 ^ w.bits) :
    Machine.immediate w imm = Machine.immediate w imm' :=
  BitVec.eq_of_toNat_eq (by rwa [Machine.immediate, Machine.immediate, BitVec.toNat_setWidth, BitVec.toNat_setWidth])

theorem Machine.pushImmediate_congr {w : Width} {imm imm' : Word}
    (h : imm.toNat % 2 ^ w.bits = imm'.toNat % 2 ^ w.bits) (s : Machine.State) :
    Machine.pushImmediate w imm s = Machine.pushImmediate w imm' s := by
  rw [Machine.pushImmediate, Machine.pushImmediate, Machine.immediate_congr h]

/-- Settles O6: the operation decides which fields its instruction is made of, and PUSH takes the low bytes of its
operand. -/
theorem unusedFieldsAreIgnored : Obligations.UnusedFieldsAreIgnored := by
  refine ⟨fun rec d hd => ⟨fun huses r => ?_, fun hpaylen imm => ?_⟩, fun imm imm' s h => ?_, fun imm imm' s h => ?_⟩
  · exact decodeRecord_congr hd rfl (fun h => absurd h (by simp [huses])) (fun _ => rfl)
  · exact decodeRecord_congr hd rfl (fun _ => rfl) (fun h => absurd hpaylen h)
  · exact congrArg Machine.Result.outcome (Machine.pushImmediate_congr (w := .byte) h s)
  · exact congrArg Machine.Result.outcome (Machine.pushImmediate_congr (w := .hword) h s)

end Sys2Proof
end

section
/-! PROOFS of the statements of 30_encoding.md: whole streams, encoded, decoded and rejected. -/

namespace Sys2Proof

/-! ## Records and their bytes -/

theorem recordBytes_eq_some {rec : Record} {whole : List Byte} :
    recordBytes rec = some whole ↔ ∃ d, decodeOpcode rec.opcode = some d ∧
      rec.opcode :: rec.registerIndex :: leBytes d.paylen rec.operand.toNat = whole := by
  simp [recordBytes]

theorem fitsWire_iff {rec : Record} :
    rec.fitsWire = true ↔ ∃ d, decodeOpcode rec.opcode = some d ∧ rec.operand.toNat < 256 ^ d.paylen := by
  rw [Record.fitsWire]
  cases decodeOpcode rec.opcode <;> simp [Nat.pow_mul]

/-- A record that fits the wire has bytes, and they are read back as that record. -/
theorem takeRecord_of_fitsWire {rec : Record} (h : rec.fitsWire = true) :
    ∃ whole, recordBytes rec = some whole ∧ ∀ rest, takeRecord (whole ++ rest) = .ok (rec, rest) := by
  obtain ⟨d, hd, hfits⟩ := fitsWire_iff.mp h
  exact ⟨_, recordBytes_eq_some.mpr ⟨d, hd, rfl⟩, takeRecord_written_fits hd _ hfits⟩

/-- The bytes of a record are read as a record whether its operand fits or not. -/
theorem takeRecord_of_recordBytes {rec : Record} {whole : List Byte} (h : recordBytes rec = some whole)
    (rest : List Byte) : ∃ rec', takeRecord (whole ++ rest) = .ok (rec', rest) := by
  obtain ⟨d, hd, rfl⟩ := recordBytes_eq_some.mp h
  exact ⟨_, takeRecord_written hd _ _ rest⟩

/-- A record read off a byte string fits the wire, and its bytes are the ones it was read from. -/
theorem recordBytes_of_takeRecord {bytes rest : List Byte} {rec : Record} (h : takeRecord bytes = .ok (rec, rest)) :
    ∃ whole, recordBytes rec = some whole ∧ bytes = whole ++ rest ∧ rec.fitsWire = true := by
  obtain ⟨d, payload, hd, hlen, hop, rfl⟩ := takeRecord_ok_inv h
  have hlt : leNat payload < 256 ^ d.paylen := hlen ▸ Machine.leNat_lt payload
  have hword : 256 ^ d.paylen ≤ 2 ^ 64 := Nat.pow_le_pow_right (n := 256) (by decide) (decodeOpcode_paylen_le hd)
  have hoperand : rec.operand.toNat = leNat payload := by
    rw [hop, BitVec.toNat_ofNat, Nat.mod_eq_of_lt (hlt.trans_le hword)]
  refine ⟨_, recordBytes_eq_some.mpr ⟨d, hd, rfl⟩, ?_, fitsWire_iff.mpr ⟨d, hd, hoperand ▸ hlt⟩⟩
  rw [hoperand, ← hlen, Machine.leBytes_leNat]
  rfl

theorem takeRecord_rest_length {bytes rest : List Byte} {rec : Record} (h : takeRecord bytes = .ok (rec, rest)) :
    rest.length < bytes.length := by
  obtain ⟨d, payload, -, -, -, rfl⟩ := takeRecord_ok_inv h
  simp only [List.length_cons, List.length_append]
  omega

/-- The first bytes of a record, some but not all of them, are a truncated record. -/
theorem takeRecord_truncated {rec : Record} {whole : List Byte} {n : Nat} (h : recordBytes rec = some whole)
    (hpos : 0 < n) (hn : n < whole.length) : takeRecord (whole.take n) = .error .truncatedRecord := by
  obtain ⟨d, hd, rfl⟩ := recordBytes_eq_some.mp h
  match n with
  | 1 => exact takeRecord_opcode_alone hd
  | n + 2 =>
    simp only [List.length_cons, Machine.leBytes_length] at hn
    exact takeRecord_short_payload hd _ (by rw [List.length_take, Machine.leBytes_length]; omega)

/-! ## The loop of `DecodeStream` without its fuel -/

theorem decodeStreamFuel_congr {n m : Nat} {bytes : List Byte} (hn : bytes.length ≤ n) (hm : bytes.length ≤ m) :
    decodeStreamFuel n bytes = decodeStreamFuel m bytes := by
  induction n generalizing m bytes with
  | zero =>
    cases List.length_eq_zero_iff.mp (Nat.le_zero.mp hn)
    cases m <;> rfl
  | succ n ih =>
    match bytes, m with
    | [], 0 | [], m + 1 => rfl
    | b :: bs, m + 1 =>
      simp only [List.length_cons] at hn hm
      simp only [decodeStreamFuel]
      rcases htake : takeRecord (b :: bs) with _ | ⟨rec, rest⟩
      · rfl
      · have hrest := takeRecord_rest_length htake
        simp only [List.length_cons] at hrest
        simp only [ih (bytes := rest) (m := m) (by omega) (by omega)]

theorem decodeStream_of_ok {bytes rest : List Byte} {rec : Record} (h : takeRecord bytes = .ok (rec, rest)) :
    decodeStream bytes = (decodeStream rest).map (rec :: ·) := by
  have hrest := takeRecord_rest_length h
  rcases bytes with _ | ⟨b, bs⟩
  · cases h
  · have hfuel : decodeStreamFuel bs.length rest = decodeStream rest :=
      decodeStreamFuel_congr (Nat.le_of_lt_succ hrest) le_rfl
    simp only [decodeStream, List.length_cons, decodeStreamFuel, h] at hfuel ⊢
    rw [hfuel]
    cases decodeStreamFuel rest.length rest <;> rfl

theorem decodeStream_of_error {bytes : List Byte} {e : DecodeError} (hne : bytes ≠ [])
    (h : takeRecord bytes = .error e) : decodeStream bytes = .error .invalidOpcode := by
  obtain ⟨b, bs, rfl⟩ := List.exists_cons_of_ne_nil hne
  simp only [decodeStream, List.length_cons, decodeStreamFuel, h]

/-- The three ways a stream goes on. -/
theorem decodeStream_cases (bytes : List Byte) :
    bytes = [] ∨ decodeStream bytes = .error .invalidOpcode ∨
      ∃ rec rest, takeRecord bytes = .ok (rec, rest) ∧ decodeStream bytes = (decodeStream rest).map (rec :: ·) := by
  by_cases hne : bytes = []
  · exact .inl hne
  · rcases htake : takeRecord bytes with e | ⟨rec, rest⟩
    · exact .inr (.inl (decodeStream_of_error hne htake))
    · exact .inr (.inr ⟨rec, rest, rfl, decodeStream_of_ok htake⟩)

theorem decodeStream_eq_nil {bytes : List Byte} (h : decodeStream bytes = .ok []) : bytes = [] := by
  rcases decodeStream_cases bytes with hnil | hbad | ⟨rec, rest, -, hgood⟩
  · exact hnil
  · rw [hbad] at h
    cases h
  · rw [hgood] at h
    cases hrest : decodeStream rest <;> rw [hrest] at h <;> cases h

theorem decodeStream_eq_cons {bytes : List Byte} {rec : Record} {recs : List Record}
    (h : decodeStream bytes = .ok (rec :: recs)) :
    ∃ rest, takeRecord bytes = .ok (rec, rest) ∧ decodeStream rest = .ok recs := by
  rcases decodeStream_cases bytes with rfl | hbad | ⟨rec', rest, htake, hgood⟩
  · cases h
  · rw [hbad] at h
    cases h
  · rw [hgood] at h
    rcases hrest : decodeStream rest with k | recs'
    · rw [hrest] at h
      cases h
    · rw [hrest] at h
      cases h
      exact ⟨rest, htake, hrest⟩

/-- The loop raises InvalidOpcode and nothing else (60_exceptions.md R265). -/
theorem decodeStreamFuel_error {n : Nat} {bytes : List Byte} {k : ErrorKind} (h : decodeStreamFuel n bytes = .error k) :
    k = .invalidOpcode := by
  induction n generalizing bytes with
  | zero =>
    cases bytes <;> cases h
    rfl
  | succ n ih =>
    rcases bytes with _ | ⟨b, bs⟩
    · cases h
    · simp only [decodeStreamFuel] at h
      split at h
      · cases h; rfl
      · split at h
        · cases h; exact ih ‹_›
        · cases h

/-! ## Both directions -/

theorem encodeStream_cons {rec : Record} {recs : List Record} {bytes : List Byte} :
    encodeStream (rec :: recs) = some bytes ↔
      ∃ whole rest, recordBytes rec = some whole ∧ encodeStream recs = some rest ∧ whole ++ rest = bytes := by
  rw [encodeStream]
  cases recordBytes rec <;> cases encodeStream recs <;> simp

/-- Settles O2, by induction on the program: each record's bytes are read back as the record. -/
theorem decodeStreamInvertsEncodeStream : Obligations.DecodeStreamInvertsEncodeStream := by
  intro records hfits
  induction records with
  | nil => exact ⟨[], rfl, rfl⟩
  | cons rec recs ih =>
    obtain ⟨hrec, hrecs⟩ := List.forall_mem_cons.mp hfits
    obtain ⟨whole, hwhole, htake⟩ := takeRecord_of_fitsWire hrec
    obtain ⟨rest, hrest, hdecode⟩ := ih hrecs
    refine ⟨whole ++ rest, encodeStream_cons.mpr ⟨whole, rest, hwhole, hrest, rfl⟩, ?_⟩
    rw [decodeStream_of_ok (htake rest), hdecode]
    rfl

/-- Settles O3, by induction on the decoded program: each record is written as the bytes it was read from. -/
theorem encodeStreamInvertsDecodeStream : Obligations.EncodeStreamInvertsDecodeStream := by
  intro bytes records h
  induction records generalizing bytes with
  | nil =>
    cases decodeStream_eq_nil h
    exact ⟨rfl, List.forall_mem_nil _⟩
  | cons rec recs ih =>
    obtain ⟨rest, htake, hrest⟩ := decodeStream_eq_cons h
    obtain ⟨whole, hwhole, hbytes, hfits⟩ := recordBytes_of_takeRecord htake
    obtain ⟨hencode, hall⟩ := ih rest hrest
    exact ⟨encodeStream_cons.mpr ⟨whole, rest, hwhole, hencode, hbytes.symm⟩, List.forall_mem_cons.mpr ⟨hfits, hall⟩⟩

/-! ## Rejected streams -/

/-- What follows good records decides whether the stream is rejected. -/
theorem decodeStream_append_error {good : List Record} {bytes tail : List Byte} {k : ErrorKind}
    (hgood : encodeStream good = some bytes) (htail : decodeStream tail = .error k) :
    decodeStream (bytes ++ tail) = .error k := by
  induction good generalizing bytes with
  | nil =>
    cases hgood
    exact htail
  | cons rec recs ih =>
    obtain ⟨whole, rest, hwhole, hrest, rfl⟩ := encodeStream_cons.mp hgood
    obtain ⟨rec', htake⟩ := takeRecord_of_recordBytes hwhole (rest ++ tail)
    rw [List.append_assoc, decodeStream_of_ok htake, ih hrest]
    rfl

/-- Settles O4: after the good records the loop meets bytes that are no record, and InvalidOpcode is all it raises. -/
theorem badRecordRejectsTheStream : Obligations.BadRecordRejectsTheStream := by
  refine ⟨fun good bytes hgood => ⟨fun o rest ho => ?_, fun rec whole n hwhole hpos hn => ?_⟩,
    fun bytes k h => decodeStreamFuel_error h⟩
  · exact decodeStream_append_error hgood (decodeStream_of_error (List.cons_ne_nil o rest) (takeRecord_unknown ho rest))
  · have hne : whole.take n ≠ [] := List.ne_nil_of_length_pos (by rw [List.length_take]; omega)
    exact decodeStream_append_error hgood (decodeStream_of_error hne (takeRecord_truncated hwhole hpos hn))

end Sys2Proof
end

section
/-! PROOFS of the statements of 40_engine.md: how a step begins, and how a run ends. -/

namespace Sys2Proof.Machine

variable {s t : State}

/-! ## One step, by what stands at `ip` -/

/-- The record at `ip` decodes: its instruction runs (40_engine.md R101, R104). -/
theorem step_of_decoded {rec : Record} {i : Instr} (hs : s.status = .running) (hrec : s.program[s.ip.toNat]? = some rec)
    (hi : decodeRecord rec = some i) : step s = exec i s := by
  simp [step, hs, fetchDecode, fetch, hrec, hi]

/-- The record at `ip` is reserved: decoding raises before anything is run (40_engine.md R103). -/
theorem step_of_reserved {rec : Record} (hs : s.status = .running) (hrec : s.program[s.ip.toNat]? = some rec)
    (hi : decodeRecord rec = none) : step s = .next (takeError .invalidOpcode s) := by
  simp [step, hs, fetchDecode, fetch, hrec, hi]

/-- No record stands at `ip`: the fetch raises (40_engine.md R102). -/
theorem step_past_end (hs : s.status = .running) (hend : s.program.length ≤ s.ip.toNat) :
    step s = .next (takeError .endOfProgram s) := by
  simp [step, hs, fetchDecode, fetch, List.getElem?_eq_none hend]

theorem step_of_halted (hs : s.status ≠ .running) : step s = .fault .halted := by
  rcases step_cases s with ⟨_, e⟩ | ⟨h, _⟩ | ⟨_, h, _⟩ | ⟨_, _, h, _⟩
  · exact e
  all_goals exact absurd h hs

/-- The opcode byte alone decides whether a record is reserved (30_encoding.md R80). -/
theorem decodeRecord_of_reserved {rec : Record} (h : decodeOpcode rec.opcode = none) : decodeRecord rec = none := by
  rw [decodeRecord, h, Option.bind_none]

/-- Settles O8; the record of an instruction decodes to it. -/
theorem stepRunsDecodedInstruction : Obligations.StepRunsDecodedInstruction :=
  ⟨fun _ _ _ hs hrec hi => step_of_decoded hs hrec hi,
    fun _ i _ hs hrec => step_of_decoded hs hrec (Laws.wireAgrees i).decodeRecord⟩

/-- Settles O9: the fetch is the first thing a step does. -/
theorem endOfProgramStep : Obligations.EndOfProgramStep :=
  fun _ hs hend => step_past_end hs hend

/-- Settles O10: a reserved opcode makes the whole record reserved. -/
theorem invalidOpcodeStep : Obligations.InvalidOpcodeStep :=
  fun _ _ hs hrec ho => step_of_reserved hs hrec (decodeRecord_of_reserved ho)

/-! ## The host's `execute()` and `execute_all()` -/

theorem execute_of_halted (hs : s.status ≠ .running) : execute s = s := by
  rw [execute, step_of_halted hs]

/-- Settles O11. -/
theorem haltedMachineHasNoSuccessor : Obligations.HaltedMachineHasNoSuccessor :=
  fun _ hs => ⟨step_of_halted hs, execute_of_halted hs⟩

/-- A halted state is where its run ends, under every budget (40_engine.md R109). -/
theorem executeAll_of_halted (hs : s.status ≠ .running) (n : Nat) : executeAll n s = some s := by
  cases n with
  | zero => exact if_neg hs
  | succ n => exact if_neg hs

theorem executeAll_zero_of_running (hs : s.status = .running) : executeAll 0 s = none :=
  if_pos hs

theorem executeAll_succ_of_running (hs : s.status = .running) (n : Nat) :
    executeAll (n + 1) s = executeAll n (execute s) :=
  if_pos hs

/-- Halted is final or faulted (40_engine.md R112). -/
theorem not_running_iff : s.status ≠ .running ↔ Final s ∨ Faulted s := by
  unfold Final Faulted
  cases s.status <;> simp

/-- A run that ends within its budget ends halted, and in the same state under a larger one. -/
theorem executeAll_eq_some {n : Nat} (h : executeAll n s = some t) :
    t.status ≠ .running ∧ ∀ m, executeAll (n + m) s = some t := by
  induction n generalizing s with
  | zero =>
    by_cases hs : s.status = .running
    · rw [executeAll_zero_of_running hs] at h
      cases h
    · rw [executeAll_of_halted hs] at h
      cases h
      exact ⟨hs, fun _ => executeAll_of_halted hs _⟩
  | succ n ih =>
    by_cases hs : s.status = .running
    · rw [executeAll_succ_of_running hs] at h
      obtain ⟨hhalted, hmore⟩ := ih h
      refine ⟨hhalted, fun m => ?_⟩
      rw [Nat.add_right_comm, executeAll_succ_of_running hs]
      exact hmore m
    · rw [executeAll_of_halted hs] at h
      cases h
      exact ⟨hs, fun _ => executeAll_of_halted hs _⟩

/-- Settles O16, by induction on the budget. -/
theorem runEndsHaltedWhateverTheBudget : Obligations.RunEndsHaltedWhateverTheBudget := by
  intro n s t h
  obtain ⟨hhalted, hmore⟩ := executeAll_eq_some h
  exact ⟨not_running_iff.mp hhalted, hmore⟩

end Sys2Proof.Machine
end

section
/-! PROOFS of the statements of 40_engine.md: how an instruction ends, completed or raising. -/

namespace Sys2Proof.Machine

variable {s t : State}

/-! ## The checks: primitives that change nothing -/

theorem regCheck_keeps {P : State → Prop} (r : Byte) (w : Width) (h : P s) : (regCheck r w s).Keeps P := by
  rcases regCheck_cases r w s with ⟨_, e⟩ | ⟨_, e⟩ <;> rw [e] <;> exact h

theorem peek_keeps {P : State → Prop} (w : Width) (h : P s) : (peek w s).Keeps P := by
  rcases peek_cases w s with ⟨_, e⟩ | ⟨_, e⟩ <;> rw [e] <;> exact h

theorem callCheck_keeps {P : State → Prop} (h : P s) : (callCheck s).Keeps P := by
  rcases callCheck_cases s with ⟨_, e⟩ | ⟨_, e⟩ <;> rw [e] <;> exact h

theorem targetCheck_keeps {P : State → Prop} (a : Word) (h : P s) : (targetCheck a s).Keeps P := by
  rcases targetCheck_cases a s with ⟨_, e⟩ | ⟨_, e⟩ <;> rw [e] <;> exact h

/-! ## Every instruction has an end -/

theorem exec_next (i : Instr) (s : State) : ∃ t, exec i s = .next t := by
  rw [exec_eq_run]
  exact Result.outcome_next _

/-- Settles O12: an error at fetch or decode is a next state, and so is every end of an instruction. -/
theorem runningMachineAlwaysSteps : Obligations.RunningMachineAlwaysSteps := by
  intro s hs
  rcases step_cases s with ⟨halted, _⟩ | ⟨_, _, endOfProgram⟩ | ⟨_, _, _, _, reserved⟩ | ⟨_, i, _, _, _, runs⟩
  · exact absurd hs halted
  · exact ⟨_, endOfProgram⟩
  · exact ⟨_, reserved⟩
  · rw [runs]
    exact exec_next i s

/-! ## Only HALT writes Halted(Ok) -/

/-- The machine runs: what every sequence but HALT's keeps. -/
def Running (u : State) : Prop :=
  u.status = .running

theorem Running.afterHeap (h : Running s) (hf : OnlyHeap s t) : Running t := by
  rw [hf]
  exact h

/-- No data primitive touches `status` (40_engine.md R106). -/
theorem carriedData_running : CarriedData Running Running where
  push _ _ h _ := h
  pop _ _ h _ := h
  regWrite _ _ _ h _ := h
  heapAlloc _ _ _ _ h e := h.afterHeap (heapAlloc_onlyHeap e)
  heapWrite _ _ _ _ _ h e := h.afterHeap (heapWrite_onlyHeap e)
  heapDelete _ _ _ h e := h.afterHeap (heapDelete_onlyHeap e)
  advance _ h := h

theorem Running.jumpTo (h : Running s) (t : Word) : (jumpTo t s).Ends Running Running :=
  Result.Ends.bind (targetCheck_keeps t h) fun _ _ _ h => h

theorem Running.csPush (h : Running s) (a : Word) : (csPush a s).Keeps Running := by
  rcases csPush_cases a s with ⟨_, e⟩ | ⟨_, e⟩ <;> rw [e] <;> exact h

theorem Running.csPop (h : Running s) : (csPop s).Keeps Running := by
  rcases csPop_cases s with ⟨_, e⟩ | ⟨_, e⟩ <;> rw [e] <;> exact h

/-- A sequence other than HALT's never writes `status`: an error is taken only after it has raised (40_engine.md R106,
R108). -/
theorem Sequence.run_running {q : Sequence} (hq : q ≠ .halt) (h : Running s) : (q.run s).Ends Running Running := by
  have c := carriedData_running
  cases q with
  | pushImmediate w imm => exact c.pushImmediate w imm h
  | pushRegister w r => exact c.pushRegister w r h
  | popDiscard w => exact c.popDiscard w h
  | moveToRegister w r => exact c.moveToRegister w r h
  | duplicate w => exact c.duplicate w h
  | binaryOp w f => exact c.binaryOp w f h
  | unaryOp w f => exact c.unaryOp w f h
  | compareUnsigned w rel => exact c.binaryOp w _ h
  | compareSigned w rel => exact c.binaryOp w _ h
  | allocate w n => exact c.allocate w n h
  | getElement w n => exact c.getElement w n h
  | setElement w n => exact c.setElement w n h
  | delete =>
    exact Result.Ends.bind (c.pop_keeps .word h) fun g _ _ h1 =>
      Result.Ends.bind (c.heapDelete_keeps g h1) fun _ _ _ h2 => h2
  | size =>
    exact Result.Ends.bind (c.pop_keeps .word h) fun _ _ _ h1 =>
      Result.Ends.bind (CarriedData.heapSize_keeps h1) fun _ _ _ h2 => c.push_then_advance _ h2
  | jumpTo a => exact h.jumpTo a
  | jumpIf w a =>
    refine Result.Ends.bind (c.pop_keeps w h) fun v u _ h1 => ?_
    show Result.Ends _ _ (if v.toNat ≠ 0 then _ else _)
    split
    · exact h1.jumpTo a
    · exact h1
  | call a =>
    exact Result.Ends.bind (callCheck_keeps h) fun _ _ _ h1 =>
      Result.Ends.bind (targetCheck_keeps a h1) fun _ u _ h2 =>
        Result.Ends.bind (h2.csPush (u.ip + 1)) fun _ _ _ h3 => h3
  | ret => exact Result.Ends.bind h.csPop fun _ _ _ h1 => h1
  | halt => exact absurd rfl hq

theorem sequenceOf_eq_halt {i : Instr} : sequenceOf i = .halt ↔ i = .halt := by
  cases i <;> simp [sequenceOf]

theorem Running.not_final (h : Running s) : ¬ Final s := by
  rw [Final, h]
  simp

theorem takeError_not_final (k : ErrorKind) (s : State) : ¬ Final (takeError k s) := by
  simp [Final]

/-- A sequence that never writes `status` ends running or in an error, not in Halted(Ok). -/
theorem Result.Ends.not_final {r : Result Unit} (h : r.Ends Running Running) (e : r.outcome = .next t) : ¬ Final t := by
  cases r with
  | ok _ u => cases e; exact Running.not_final h
  | raised k u => cases e; exact takeError_not_final k u

theorem exec_final {i : Instr} (hs : s.status = .running) (e : exec i s = .next t) (ht : Final t) : i = .halt := by
  by_contra hi
  have hrun : ((sequenceOf i).run s).Ends Running Running := Sequence.run_running (mt sequenceOf_eq_halt.mp hi) hs
  exact hrun.not_final (exec_eq_run i s ▸ e) ht

/-- Settles O14: an error at fetch or decode is not Halted(Ok), and no instruction but HALT ends there. -/
theorem onlyHaltEndsInSuccess : Obligations.OnlyHaltEndsInSuccess := by
  intro s t e ht
  rcases step_cases s with ⟨_, halted⟩ | ⟨_, _, endOfProgram⟩ | ⟨_, _, _, _, reserved⟩ | ⟨rec, i, hs, hrec, hi, runs⟩
  · rw [halted] at e; cases e
  · rw [endOfProgram] at e; cases e
    exact absurd ht (takeError_not_final _ s)
  · rw [reserved] at e; cases e
    exact absurd ht (takeError_not_final _ s)
  · have hhalt : i = .halt := exec_final hs (runs ▸ e) ht
    exact ⟨rec, hrec, hhalt ▸ hi⟩

/-! ## Errors without a partial effect -/

/-- If the result raises, the state at the raise is `s`: nothing was written before (40_engine.md R107). -/
def Result.RaisesAt {α : Type} (s : State) (r : Result α) : Prop :=
  r.Ends (· = s) fun _ => True

/-- The sequences outside the table of 40_engine.md R107. -/
def Sequence.raisesBeforeWrites : Sequence → Bool
  | .pushImmediate _ _ | .pushRegister _ _ | .popDiscard _ | .moveToRegister _ _ | .duplicate _ | .unaryOp _ _
  | .jumpTo _ | .call _ | .ret | .halt => true
  | .binaryOp _ _ | .compareUnsigned _ _ | .compareSigned _ _ | .allocate _ _ | .getElement _ _ | .setElement _ _
  | .delete | .size | .jumpIf _ _ => false

/-- After a check the state is still `s`. -/
theorem Result.RaisesAt.bind_check {α β : Type} {r : Result α} {f : α → State → Result β} (hr : r.Keeps (· = s))
    (hf : ∀ a, r = .ok a s → (f a s).RaisesAt s) : (r.bind f).RaisesAt s :=
  Result.Ends.bind hr fun a u e h => by
    cases h
    exact hf a e

/-- After a primitive that raises before it writes, nothing raises. -/
theorem Result.RaisesAt.bind_total {α β : Type} {r : Result α} {f : α → State → Result β} (hr : r.RaisesAt s)
    (hf : ∀ a u, ∃ b v, f a u = .ok b v) : (r.bind f).RaisesAt s := by
  cases r with
  | ok a u =>
    obtain ⟨b, v, e⟩ := hf a u
    rw [bind_ok, e]
    trivial
  | raised k u => exact hr

theorem push_raisesAt {w : Width} (v : BitVec w.bits) (s : State) : (push v s).RaisesAt s := by
  rcases push_cases v s with ⟨_, e⟩ | ⟨_, e⟩ <;> rw [e]
  · rfl
  · trivial

theorem pop_raisesAt (w : Width) (s : State) : (pop w s).RaisesAt s := by
  rcases pop_cases w s with ⟨_, e⟩ | ⟨_, e⟩ <;> rw [e]
  · rfl
  · trivial

theorem csPush_raisesAt (a : Word) (s : State) : (csPush a s).RaisesAt s := by
  rcases csPush_cases a s with ⟨_, e⟩ | ⟨_, e⟩ <;> rw [e]
  · rfl
  · trivial

theorem csPop_raisesAt (s : State) : (csPop s).RaisesAt s := by
  rcases csPop_cases s with ⟨_, e⟩ | ⟨_, e⟩ <;> rw [e]
  · rfl
  · trivial

theorem push_then_advance_raisesAt {w : Width} (v : BitVec w.bits) (s : State) :
    ((push v s).bind fun _ s => advance s).RaisesAt s :=
  (push_raisesAt v s).bind_total fun _ _ => ⟨_, _, rfl⟩

/-- The pop of NOT makes the room its push needs, so nothing raises after it. -/
theorem unaryOp_raisesAt {w : Width} (f : BitVec w.bits → BitVec w.bits) (hs : StackCursorInRange s) :
    (unaryOp w f s).RaisesAt s := by
  by_cases h : w.bytes ≤ s.sp.toNat
  · obtain ⟨t, e, _⟩ := unaryOp_ok f h hs
    rw [e]
    trivial
  · rw [unaryOp, pop_underflow (Nat.lt_of_not_le h)]
    rfl

/-- Outside the table of R107 a sequence is some checks, one primitive that may raise, and then nothing that raises:
NOT too, whose push has the room its pop made. -/
theorem Sequence.run_raisesAt {q : Sequence} (hq : q.raisesBeforeWrites = true) (hs : StackCursorInRange s) :
    (q.run s).RaisesAt s := by
  cases q with
  | pushImmediate w imm => exact push_then_advance_raisesAt _ s
  | pushRegister w r =>
    exact Result.RaisesAt.bind_check (regCheck_keeps r w rfl) fun _ _ => push_then_advance_raisesAt _ s
  | popDiscard w => exact (pop_raisesAt w s).bind_total fun _ _ => ⟨_, _, rfl⟩
  | moveToRegister w r =>
    exact Result.RaisesAt.bind_check (regCheck_keeps r w rfl) fun _ _ =>
      (pop_raisesAt w s).bind_total fun _ _ => ⟨_, _, rfl⟩
  | duplicate w =>
    exact Result.RaisesAt.bind_check (peek_keeps w rfl) fun v _ => push_then_advance_raisesAt v s
  | unaryOp w f => exact unaryOp_raisesAt f hs
  | jumpTo a => exact Result.RaisesAt.bind_check (targetCheck_keeps a rfl) fun _ _ => trivial
  | call a =>
    exact Result.RaisesAt.bind_check (callCheck_keeps rfl) fun _ _ =>
      Result.RaisesAt.bind_check (targetCheck_keeps a rfl) fun _ _ =>
        (csPush_raisesAt _ s).bind_total fun _ _ => ⟨_, _, rfl⟩
  | ret => exact (csPop_raisesAt s).bind_total fun _ _ => ⟨_, _, rfl⟩
  | halt => trivial
  | binaryOp | compareUnsigned | compareSigned | allocate | getElement | setElement | delete | size | jumpIf => cases hq

/-- An error out of a sequence that raises where it began: the status of that state is all that changes. -/
theorem error_of_raisesAt {r : Result Unit} {a n : Word} {k : ErrorKind} (hr : r.RaisesAt s)
    (hc : r.Ends (RunningAt a) (CompletedAt n)) (e : r.outcome = .next t) (ht : t.status = .haltedError k) :
    t = takeError k s := by
  cases r with
  | ok _ u => cases e; exact absurd ⟨k, ht⟩ hc.unfaulted
  | raised l u => cases e; cases ht; cases hr; rfl

/-- Settles O15, sequence by sequence. -/
theorem cleanErrorsChangeOnlyStatus : Obligations.CleanErrorsChangeOnlyStatus := by
  intro r imm i hi s t k hrange hs e ht
  have hclean : (sequenceOf i).raisesBeforeWrites = true := by fin_cases hi <;> rfl
  exact error_of_raisesAt (Sequence.run_raisesAt hclean hrange) ((sequenceOf i).run_ip hs) (exec_eq_run i s ▸ e) ht

end Sys2Proof.Machine
end

section
/-! PROOFS of the statements of 41_stack_register.md: PUSH, PUSH_REG, POP, MOV and DUP. -/

namespace Sys2Proof.Machine

variable {s : State}

/-! ## The opcodes and the sequences their instructions run

Per family: the decoder's answer on each opcode, the instruction it makes of a record's fields (30_encoding.md R82), and
the sequence that instruction runs (40_engine.md R104). -/

theorem encodedAs_of_decodeOpcode {op : Byte} {d : Decoded} {i : Byte → Word → Instr} (hd : decodeOpcode op = some d)
    (hi : ∀ r imm, instrOf d.op d.width r imm = some (i r imm)) : EncodedAs op d.paylen i where
  length := by rw [hd, Option.map_some]
  instruction r imm := by rw [decodeRecord, hd, Option.bind_some, hi]

theorem pushImmediate_opcode {op : Byte} {w : Width} {i : Word → Instr}
    (hi : (op, w, i) ∈ [((0x11 : Byte), Width.byte, Instr.pushByte), (0x12, .hword, .pushHword),
      (0x13, .word, .pushWord)]) :
    decodeOpcode op = some ⟨.push, .push, some w, false, w.bytes, false⟩ ∧
      (∀ r imm, instrOf .push (some w) r imm = some (i imm)) ∧
      ∀ imm s, exec (i imm) s = (pushImmediate w imm s).outcome := by
  simp only [List.mem_cons, Prod.mk.injEq, List.not_mem_nil, or_false] at hi
  rcases hi with ⟨rfl, rfl, rfl⟩ | ⟨rfl, rfl, rfl⟩ | ⟨rfl, rfl, rfl⟩ <;>
    exact ⟨by decide, fun _ _ => rfl, fun _ _ => rfl⟩

theorem pushRegister_opcode {op : Byte} {w : Width} {i : Byte → Instr} {k : ErrorKind}
    (hi : (op, w, i, k) ∈ [((0x21 : Byte), Width.byte, Instr.pushRegByte, ErrorKind.invalidRegisterByte),
      (0x22, .hword, .pushRegHword, .invalidRegisterHWord), (0x23, .word, .pushRegWord, .invalidRegisterWord)]) :
    decodeOpcode op = some ⟨.pushReg, .pushReg, some w, false, 0, true⟩ ∧
      (∀ r imm, instrOf .pushReg (some w) r imm = some (i r)) ∧ k = invalidRegister w ∧
      ∀ r s, exec (i r) s = (pushRegister w r s).outcome := by
  simp only [List.mem_cons, Prod.mk.injEq, List.not_mem_nil, or_false] at hi
  rcases hi with ⟨rfl, rfl, rfl, rfl⟩ | ⟨rfl, rfl, rfl, rfl⟩ | ⟨rfl, rfl, rfl, rfl⟩ <;>
    exact ⟨by decide, fun _ _ => rfl, rfl, fun _ _ => rfl⟩

theorem popDiscard_opcode {op : Byte} {w : Width} {i : Instr}
    (hi : (op, w, i) ∈ [((0x31 : Byte), Width.byte, Instr.popByte), (0x32, .hword, .popHword),
      (0x33, .word, .popWord)]) :
    decodeOpcode op = some ⟨.pop, .pop, some w, false, 0, false⟩ ∧
      (∀ r imm, instrOf .pop (some w) r imm = some i) ∧
      ∀ s, exec i s = (popDiscard w s).outcome := by
  simp only [List.mem_cons, Prod.mk.injEq, List.not_mem_nil, or_false] at hi
  rcases hi with ⟨rfl, rfl, rfl⟩ | ⟨rfl, rfl, rfl⟩ | ⟨rfl, rfl, rfl⟩ <;>
    exact ⟨by decide, fun _ _ => rfl, fun _ => rfl⟩

theorem moveToRegister_opcode {op : Byte} {w : Width} {i : Byte → Instr} {k : ErrorKind}
    (hi : (op, w, i, k) ∈ [((0x41 : Byte), Width.byte, Instr.movByte, ErrorKind.invalidRegisterByte),
      (0x42, .hword, .movHword, .invalidRegisterHWord), (0x43, .word, .movWord, .invalidRegisterWord)]) :
    decodeOpcode op = some ⟨.mov, .mov, some w, false, 0, true⟩ ∧
      (∀ r imm, instrOf .mov (some w) r imm = some (i r)) ∧ k = invalidRegister w ∧
      ∀ r s, exec (i r) s = (moveToRegister w r s).outcome := by
  simp only [List.mem_cons, Prod.mk.injEq, List.not_mem_nil, or_false] at hi
  rcases hi with ⟨rfl, rfl, rfl, rfl⟩ | ⟨rfl, rfl, rfl, rfl⟩ | ⟨rfl, rfl, rfl, rfl⟩ <;>
    exact ⟨by decide, fun _ _ => rfl, rfl, fun _ _ => rfl⟩

theorem duplicate_opcode {op : Byte} {w : Width} {i : Instr}
    (hi : (op, w, i) ∈ [((0x51 : Byte), Width.byte, Instr.dupByte), (0x52, .hword, .dupHword),
      (0x53, .word, .dupWord)]) :
    decodeOpcode op = some ⟨.dup, .dup, some w, false, 0, false⟩ ∧
      (∀ r imm, instrOf .dup (some w) r imm = some i) ∧
      ∀ s, exec i s = (duplicate w s).outcome := by
  simp only [List.mem_cons, Prod.mk.injEq, List.not_mem_nil, or_false] at hi
  rcases hi with ⟨rfl, rfl, rfl⟩ | ⟨rfl, rfl, rfl⟩ | ⟨rfl, rfl, rfl⟩ <;>
    exact ⟨by decide, fun _ _ => rfl, fun _ => rfl⟩

/-! ## A push that ends the instruction -/

theorem push_then_advance_ok {w : Width} (v : BitVec w.bits) (h : s.sp.toNat + w.bytes ≤ s.stackMax.toNat) :
    ∃ t, (push v s).bind (fun _ s => advance s) = .ok () t ∧ LeavesValue s t s.sp.toNat v := by
  obtain ⟨hpush, hleaves⟩ := push_leavesValue v h
  exact ⟨_, by rw [hpush, Result.bind_ok, advance_eq], hleaves⟩

theorem push_then_advance_overflow {w : Width} (v : BitVec w.bits) (h : s.stackMax.toNat < s.sp.toNat + w.bytes) :
    (push v s).bind (fun _ s => advance s) = .raised .stackOverflow s := by
  rw [push_overflow v h, Result.bind_raised]

/-! ## PUSH -/

theorem immediate_toNat (w : Width) (imm : Word) : (immediate w imm).toNat = imm.toNat % 2 ^ w.bits :=
  BitVec.toNat_setWidth ..

/-- Settles O17: PUSH is a push of the operand's low bytes. -/
theorem pushImmediateRule : Obligations.PushImmediateRule := by
  intro op w i hi
  obtain ⟨hdecode, hinstr, hexec⟩ := pushImmediate_opcode hi
  refine ⟨encodedAs_of_decodeOpcode hdecode hinstr, fun imm s => ?_⟩
  rw [hexec imm s, pushImmediate]
  refine ⟨fun hroom => ?_, fun hfull => ?_⟩
  · obtain ⟨t, hrun, hleaves⟩ := push_then_advance_ok (immediate w imm) hroom
    exact ⟨t, by rw [hrun, Result.outcome_ok], _, immediate_toNat w imm, hleaves⟩
  · rw [push_then_advance_overflow _ hfull]
    rfl

/-! ## PUSH_REG -/

theorem regCell_of_getElem? {n : Nat} {c : Word} (h : s.regs[n]? = some c) : regCell s n = c := by
  rw [regCell, List.getD_eq_getElem?_getD, h, Option.getD_some]

theorem regRead_toNat {r : Byte} {c : Word} (w : Width) (h : s.regs[r.toNat]? = some c) :
    (regRead r w s).toNat = c.toNat % 2 ^ w.bits := by
  rw [regRead, registerNumber, regCell_of_getElem? h, BitVec.toNat_setWidth]

theorem pushRegister_valid {r : Byte} (w : Width) (h : r.toNat < s.regs.length) :
    pushRegister w r s = (push (regRead r w s) s).bind fun _ s => advance s := by
  rw [pushRegister, regCheck_ok w h, Result.bind_ok]

theorem pushRegister_invalid {r : Byte} (w : Width) (h : s.regs.length ≤ r.toNat) :
    pushRegister w r s = .raised (invalidRegister w) s := by
  rw [pushRegister, regCheck_invalid w h, Result.bind_raised]

/-- Settles O18: the register index is checked first, and then PUSH_REG is a push of the cell's low bytes. -/
theorem pushRegisterRule : Obligations.PushRegisterRule := by
  intro op w i k hi
  obtain ⟨hdecode, hinstr, rfl, hexec⟩ := pushRegister_opcode hi
  refine ⟨encodedAs_of_decodeOpcode hdecode hinstr, fun r s => ?_⟩
  rw [hexec r s]
  refine ⟨fun c hc hroom => ?_, fun hinvalid => ?_, fun hvalid hfull => ?_⟩
  · have hvalid : r.toNat < s.regs.length := (List.getElem?_eq_some_iff.mp hc).1
    obtain ⟨t, hrun, hleaves⟩ := push_then_advance_ok (regRead r w s) hroom
    exact ⟨t, by rw [pushRegister_valid w hvalid, hrun, Result.outcome_ok], _, regRead_toNat w hc, hleaves⟩
  · rw [pushRegister_invalid w hinvalid]
    rfl
  · rw [pushRegister_valid w hvalid, push_then_advance_overflow _ hfull]
    rfl

/-! ## POP -/

/-- Settles O19: POP moves the cursor and `ip` alone. -/
theorem popRule : Obligations.PopRule := by
  intro op w i hi
  obtain ⟨hdecode, hinstr, hexec⟩ := popDiscard_opcode hi
  refine ⟨encodedAs_of_decodeOpcode hdecode hinstr, fun s => ?_⟩
  rw [hexec s, popDiscard]
  refine ⟨fun hpresent => ?_, fun hshort => ?_⟩
  · rw [pop_ok hpresent]
    rfl
  · rw [pop_underflow hshort]
    rfl

/-! ## MOV -/

theorem replaceLow_low {w : Width} (cell : Word) (v : BitVec w.bits) :
    (replaceLow cell v).toNat % 2 ^ w.bits = v.toNat := by
  rw [replaceLow_toNat, Nat.mul_add_mod', Nat.mod_eq_of_lt v.isLt]

theorem replaceLow_high {w : Width} (cell : Word) (v : BitVec w.bits) :
    (replaceLow cell v).toNat / 2 ^ w.bits = cell.toNat / 2 ^ w.bits := by
  rw [replaceLow_toNat, Nat.mul_comm, Nat.mul_add_div (Nat.two_pow_pos _), Nat.div_eq_of_lt v.isLt, Nat.add_zero]

theorem moveToRegister_ok {w : Width} {r : Byte} {c : Word} (hc : s.regs[r.toNat]? = some c)
    (h : w.bytes ≤ s.sp.toNat) :
    moveToRegister w r s = .ok () { s with
      regs := s.regs.set r.toNat (replaceLow c (rightOperand w s))
      sp := s.sp - BitVec.ofNat 64 w.bytes
      ip := s.ip + 1 } := by
  have hvalid : r.toNat < s.regs.length := (List.getElem?_eq_some_iff.mp hc).1
  have hcell : regCell (afterPop w s) r.toNat = c := regCell_of_getElem? hc
  rw [moveToRegister, regCheck_ok w hvalid, Result.bind_ok, pop_ok h, Result.bind_ok, advance_eq, topValue_eq,
    regWrite, registerNumber, hcell]
  rfl

theorem moveToRegister_invalid {r : Byte} (w : Width) (h : s.regs.length ≤ r.toNat) :
    moveToRegister w r s = .raised (invalidRegister w) s := by
  rw [moveToRegister, regCheck_invalid w h, Result.bind_raised]

theorem moveToRegister_underflow {w : Width} {r : Byte} (hvalid : r.toNat < s.regs.length)
    (h : s.sp.toNat < w.bytes) : moveToRegister w r s = .raised .stackUnderflow s := by
  rw [moveToRegister, regCheck_ok w hvalid, Result.bind_ok, pop_underflow h, Result.bind_raised]

/-- Settles O20: MOV sets one cell of the register list, to the cell with its low bytes replaced. -/
theorem moveRule : Obligations.MoveRule := by
  intro op w i k hi
  obtain ⟨hdecode, hinstr, rfl, hexec⟩ := moveToRegister_opcode hi
  refine ⟨encodedAs_of_decodeOpcode hdecode hinstr, fun r s => ?_⟩
  rw [hexec r s]
  refine ⟨fun c hc hpresent => ?_, fun hinvalid => ?_, fun hvalid hshort => ?_⟩
  · have hvalid : r.toNat < s.regs.length := (List.getElem?_eq_some_iff.mp hc).1
    refine ⟨_, by rw [moveToRegister_ok hc hpresent, Result.outcome_ok], rfl, ⟨_, List.getElem?_set_self hvalid,
      replaceLow_low c _, replaceLow_high c _⟩, List.length_set, fun j hj => List.getElem?_set_ne hj.symm⟩
  · rw [moveToRegister_invalid w hinvalid]
    rfl
  · rw [moveToRegister_underflow hvalid hshort]
    rfl

/-! ## DUP -/

theorem duplicate_present {w : Width} (h : w.bytes ≤ s.sp.toNat) :
    duplicate w s = (push (rightOperand w s) s).bind fun _ s => advance s := by
  rw [duplicate, peek_ok h, Result.bind_ok, topValue_eq]

theorem duplicate_underflow {w : Width} (h : s.sp.toNat < w.bytes) :
    duplicate w s = .raised .stackUnderflow s := by
  rw [duplicate, peek_underflow h, Result.bind_raised]

/-- Settles O21: DUP is a push of the top value, whose bytes are those beneath the cursor. -/
theorem duplicateRule : Obligations.DuplicateRule := by
  intro op w i hi
  obtain ⟨hdecode, hinstr, hexec⟩ := duplicate_opcode hi
  refine ⟨encodedAs_of_decodeOpcode hdecode hinstr, fun s => ?_⟩
  rw [hexec s]
  refine ⟨fun hpresent hroom => ?_, fun hshort => ?_, fun hpresent hfull => ?_⟩
  · obtain ⟨t, hrun, hleaves⟩ := push_then_advance_ok (rightOperand w s) hroom
    refine ⟨t, by rw [duplicate_present hpresent, hrun, Result.outcome_ok], hleaves, fun k hk => ?_⟩
    calc stackByte t (s.sp.toNat + k)
      _ = (rightOperand w s).extractLsb' (8 * k) 8 := hleaves.pushed.inside k hk
      _ = stackByte s (s.sp.toNat - w.bytes + k) := memRead_byte (stackByte s) _ w hk
  · rw [duplicate_underflow hshort]
    rfl
  · rw [duplicate_present hpresent, push_then_advance_overflow _ hfull]
    rfl

end Sys2Proof.Machine
end

section
/-! PROOFS of the statements of 42_arithmetic.md: PLUS, SUB and MULT. -/

namespace Sys2Proof.Machine

variable {s : State}

/-! ## An instruction that runs the two-operand sequence

The rules of 42_arithmetic.md, 43_comparison.md and 44_logic.md say the same of the stack (R150) and differ in the
result alone. -/

theorem completesWithTwoOperands_of_binaryOp {w u : Width} {i : Instr} {f : BitVec w.bits → BitVec w.bits → BitVec u.bits}
    {P : BitVec w.bits → BitVec w.bits → BitVec u.bits → Prop} (hexec : exec i s = (binaryOp w f s).outcome)
    (hroom : u.bytes ≤ 2 * w.bytes) (hresult : ∀ a b, P a b (f a b)) : CompletesWithTwoOperands w u i P s := by
  intro hpresent hrange
  obtain ⟨t, hrun, hleaves⟩ := binaryOp_ok f hpresent hrange hroom
  exact ⟨t, by rw [hexec, hrun, Result.outcome_ok], _, hresult _ _, hleaves⟩

theorem underflowsLikeTwoPops_of_binaryOp {w u : Width} {i : Instr} {f : BitVec w.bits → BitVec w.bits → BitVec u.bits}
    (hexec : exec i s = (binaryOp w f s).outcome) : UnderflowsLikeTwoPops w i s := by
  refine ⟨fun hnone => ?_, fun hone hshort => ?_⟩
  · rw [hexec, binaryOp_underflow_first f hnone]
    rfl
  · rw [hexec, binaryOp_underflow_second f hone hshort]
    rfl

/-! ## The results as naturals -/

theorem plus_toNat {n : Nat} (a b : BitVec n) : (plus a b).toNat = (a.toNat + b.toNat) % 2 ^ n :=
  BitVec.toNat_add a b

theorem minus_toNat {n : Nat} (a b : BitVec n) :
    (minus a b).toNat = if b.toNat ≤ a.toNat then a.toNat - b.toNat else a.toNat + 2 ^ n - b.toNat := by
  have hb : b.toNat < 2 ^ n := b.isLt
  split
  case isTrue hle => exact BitVec.toNat_sub_of_le hle
  case isFalse hlt =>
    have hborrow : (a - b).toNat = 2 ^ n - (b.toNat - a.toNat) := BitVec.toNat_sub_of_lt (Nat.lt_of_not_le hlt)
    rw [minus, hborrow]
    omega

theorem times_toNat {n : Nat} (a b : BitVec n) : (times a b).toNat = a.toNat * b.toNat % 2 ^ n :=
  BitVec.toNat_mul a b

/-! ## The nine instructions -/

/-- The operation each opcode decodes to, the function its instruction runs the two-operand sequence with, and that
function's result (30_encoding.md R79, 40_engine.md R104). -/
theorem arithmetic_opcode {op : Byte} {w : Width} {i : Instr} {f : Nat → Nat → Nat → Nat}
    (hi : (op, w, i, f) ∈ [((0x61 : Byte), Width.byte, Instr.plusByte, fun m a b : Nat => (a + b) % m),
      (0x62, .hword, .plusHword, fun m a b => (a + b) % m), (0x63, .word, .plusWord, fun m a b => (a + b) % m),
      (0x65, .byte, .subByte, fun m a b => if b ≤ a then a - b else a + m - b),
      (0x66, .hword, .subHword, fun m a b => if b ≤ a then a - b else a + m - b),
      (0x67, .word, .subWord, fun m a b => if b ≤ a then a - b else a + m - b),
      (0x69, .byte, .multByte, fun m a b => a * b % m), (0x6A, .hword, .multHword, fun m a b => a * b % m),
      (0x6B, .word, .multWord, fun m a b => a * b % m)]) :
    ∃ (o : Operation) (g : BitVec w.bits → BitVec w.bits → BitVec w.bits),
      decodeOpcode op = some ⟨.arith, o, some w, false, 0, false⟩ ∧
      (∀ r imm, instrOf o (some w) r imm = some i) ∧
      (∀ s, exec i s = (binaryOp w g s).outcome) ∧
      ∀ a b, (g a b).toNat = f (2 ^ w.bits) a.toNat b.toNat := by
  simp only [List.mem_cons, Prod.mk.injEq, List.not_mem_nil, or_false] at hi
  rcases hi with h | h | h | h | h | h | h | h | h
  all_goals obtain ⟨rfl, rfl, rfl, rfl⟩ := h
  iterate 3 exact ⟨.plus, plus, by decide, fun _ _ => rfl, fun _ => rfl, plus_toNat⟩
  iterate 3 exact ⟨.sub, minus, by decide, fun _ _ => rfl, fun _ => rfl, minus_toNat⟩
  iterate 3 exact ⟨.mult, times, by decide, fun _ _ => rfl, fun _ => rfl, times_toNat⟩

/-- Settles O24: each instruction is the two-operand sequence, run with `plus`, `minus` or `times`. -/
theorem arithmeticRule : Obligations.ArithmeticRule := by
  intro op w i f hi
  obtain ⟨o, g, hdecode, hinstr, hexec, hresult⟩ := arithmetic_opcode hi
  have hroom : w.bytes ≤ 2 * w.bytes := Nat.le_mul_of_pos_left _ Nat.two_pos
  exact ⟨encodedAs_of_decodeOpcode hdecode hinstr, fun s =>
    ⟨completesWithTwoOperands_of_binaryOp (hexec s) hroom hresult, underflowsLikeTwoPops_of_binaryOp (hexec s)⟩⟩

/-! ## The two's-complement reading -/

theorem signedValue_eq_toInt {n : Nat} (v : BitVec n) : signedValue v = v.toInt := rfl

/-- A value whose signed reading is the balanced remainder of `z` is congruent to `z`. -/
theorem signedValue_congr_of_bmod {n : Nat} {v : BitVec n} {z : Int} (h : v.toInt = z.bmod (2 ^ n)) :
    (signedValue v - z) % (2 ^ n : Nat) = 0 := by
  rw [signedValue_eq_toInt, h, ← Int.emod_eq_emod_iff_emod_sub_eq_zero, Int.bmod_emod]

/-- Settles O25: each operation's signed reading is the balanced remainder of the integer one. -/
theorem arithmeticIsSignAgnostic : Obligations.ArithmeticIsSignAgnostic := fun _ a b =>
  ⟨signedValue_congr_of_bmod (BitVec.toInt_add a b), signedValue_congr_of_bmod BitVec.toInt_sub,
    signedValue_congr_of_bmod (BitVec.toInt_mul a b)⟩

end Sys2Proof.Machine
end

section
/-! PROOFS of the statements of 43_comparison.md: EQ, LT, LTE, GT and GTE, unsigned and signed. -/

namespace Sys2Proof.Machine

variable {s : State}

/-! ## The relations on the two readings (R190) and the byte that is pushed (R191)

The model's `signedValue` is `BitVec.toInt` by its definition (00_scope.md R10). -/

section
variable {n : Nat} (a b : BitVec n)

theorem unsignedHolds_eq : unsignedHolds .eq a b = (a.toNat == b.toNat) := rfl
theorem unsignedHolds_lt : unsignedHolds .lt a b = decide (a.toNat < b.toNat) := rfl
theorem unsignedHolds_lte : unsignedHolds .lte a b = decide (a.toNat ≤ b.toNat) := rfl
theorem unsignedHolds_gt : unsignedHolds .gt a b = decide (a.toNat > b.toNat) := rfl
theorem unsignedHolds_gte : unsignedHolds .gte a b = decide (a.toNat ≥ b.toNat) := rfl

theorem signedHolds_eq : signedHolds .eq a b = (a.toInt == b.toInt) := rfl
theorem signedHolds_lt : signedHolds .lt a b = decide (a.toInt < b.toInt) := rfl
theorem signedHolds_lte : signedHolds .lte a b = decide (a.toInt ≤ b.toInt) := rfl
theorem signedHolds_gt : signedHolds .gt a b = decide (a.toInt > b.toInt) := rfl
theorem signedHolds_gte : signedHolds .gte a b = decide (a.toInt ≥ b.toInt) := rfl

end

theorem booleanByte_toNat (b : Bool) : (booleanByte b).toNat = if b then 1 else 0 := by
  cases b <;> rfl

/-! ## An instruction that runs the CMP sequence -/

/-- The result byte is never wider than the two operands it replaces (R191). -/
theorem booleanByte_has_room (w : Width) : Width.byte.bytes ≤ 2 * w.bytes := by
  cases w <;> decide

/-- What the rules of 43_comparison.md say of an opcode, whichever of the two readings its relation `holds` is of. -/
theorem comparison_rule {op : Byte} {w : Width} {i : Instr} (signed : Bool) (rel : Relation)
    {holds related : BitVec w.bits → BitVec w.bits → Bool}
    (hdecode : decodeOpcode op = some ⟨.cmp, .cmp signed rel, some w, signed, 0, false⟩)
    (hinstr : ∀ r imm, instrOf (.cmp signed rel) (some w) r imm = some i)
    (hexec : ∀ s, exec i s = (binaryOp (u := .byte) w (fun a b => booleanByte (holds a b)) s).outcome)
    (hrelated : ∀ a b, holds a b = related a b) :
    EncodedAs op 0 (fun _ _ => i) ∧
      ∀ s : State,
        CompletesWithTwoOperands w .byte i (fun a b v => v.toNat = if related a b then 1 else 0) s ∧
          UnderflowsLikeTwoPops w i s := by
  have hresult : ∀ a b, (booleanByte (holds a b)).toNat = if related a b then 1 else 0 := fun a b => by
    rw [booleanByte_toNat, hrelated]
  exact ⟨encodedAs_of_decodeOpcode hdecode hinstr, fun s =>
    ⟨completesWithTwoOperands_of_binaryOp (hexec s) (booleanByte_has_room w) hresult,
      underflowsLikeTwoPops_of_binaryOp (hexec s)⟩⟩

/-! ## The thirty instructions

Per opcode: its relation, the sequence its instruction runs (30_encoding.md R79, 40_engine.md R104), and the relation's
equation. -/

/-- Settles O28: each instruction is the CMP sequence with the unsigned relation its opcode codes. -/
theorem unsignedEqualAndLessRule : Obligations.UnsignedEqualAndLessRule := by
  intro op w i rel hi
  simp only [List.mem_cons, Prod.mk.injEq, List.not_mem_nil, or_false] at hi
  rcases hi with h | h | h | h | h | h | h | h | h
  all_goals obtain ⟨rfl, rfl, rfl, rfl⟩ := h
  iterate 3 exact comparison_rule false .eq (by decide) (fun _ _ => rfl) (fun _ => rfl) unsignedHolds_eq
  iterate 3 exact comparison_rule false .lt (by decide) (fun _ _ => rfl) (fun _ => rfl) unsignedHolds_lt
  iterate 3 exact comparison_rule false .lte (by decide) (fun _ _ => rfl) (fun _ => rfl) unsignedHolds_lte

/-- Settles O29: as for O28, with the unsigned relations GT and GTE. -/
theorem unsignedGreaterRule : Obligations.UnsignedGreaterRule := by
  intro op w i rel hi
  simp only [List.mem_cons, Prod.mk.injEq, List.not_mem_nil, or_false] at hi
  rcases hi with h | h | h | h | h | h
  all_goals obtain ⟨rfl, rfl, rfl, rfl⟩ := h
  iterate 3 exact comparison_rule false .gt (by decide) (fun _ _ => rfl) (fun _ => rfl) unsignedHolds_gt
  iterate 3 exact comparison_rule false .gte (by decide) (fun _ _ => rfl) (fun _ => rfl) unsignedHolds_gte

/-- Settles O30: each instruction is the CMP sequence with the signed relation its opcode codes. -/
theorem signedEqualAndLessRule : Obligations.SignedEqualAndLessRule := by
  intro op w i rel hi
  simp only [List.mem_cons, Prod.mk.injEq, List.not_mem_nil, or_false] at hi
  rcases hi with h | h | h | h | h | h | h | h | h
  all_goals obtain ⟨rfl, rfl, rfl, rfl⟩ := h
  iterate 3 exact comparison_rule true .eq (by decide) (fun _ _ => rfl) (fun _ => rfl) signedHolds_eq
  iterate 3 exact comparison_rule true .lt (by decide) (fun _ _ => rfl) (fun _ => rfl) signedHolds_lt
  iterate 3 exact comparison_rule true .lte (by decide) (fun _ _ => rfl) (fun _ => rfl) signedHolds_lte

/-- Settles O31: as for O30, with the signed relations GT and GTE. -/
theorem signedGreaterRule : Obligations.SignedGreaterRule := by
  intro op w i rel hi
  simp only [List.mem_cons, Prod.mk.injEq, List.not_mem_nil, or_false] at hi
  rcases hi with h | h | h | h | h | h
  all_goals obtain ⟨rfl, rfl, rfl, rfl⟩ := h
  iterate 3 exact comparison_rule true .gt (by decide) (fun _ _ => rfl) (fun _ => rfl) signedHolds_gt
  iterate 3 exact comparison_rule true .gte (by decide) (fun _ _ => rfl) (fun _ => rfl) signedHolds_gte

/-! ## The pattern of -1 against that of 1 -/

section
variable {n : Nat} {a b : BitVec n}

theorem minusOne_signed_lt_one (hn : 1 < n) (ha : a.toNat = 2 ^ n - 1) (hb : b.toNat = 1) :
    signedHolds .lt a b = true := by
  obtain rfl : a = BitVec.allOnes n := BitVec.eq_of_toNat_eq (by rw [ha, BitVec.toNat_allOnes])
  obtain rfl : b = 1#n := BitVec.eq_of_toNat_eq (by rw [hb, BitVec.toNat_ofNat, Nat.one_mod_two_pow (by omega)])
  rw [signedHolds_lt, BitVec.toInt_allOnes, if_pos (by omega), BitVec.toInt_one hn]
  rfl

theorem one_lt_minusOne_pattern (hn : 1 < n) : 1 < 2 ^ n - 1 := by
  have hpow : 2 ^ 2 ≤ 2 ^ n := Nat.pow_le_pow_right Nat.two_pos hn
  omega

theorem minusOne_not_unsigned_lt_one (hn : 1 < n) (ha : a.toNat = 2 ^ n - 1) (hb : b.toNat = 1) :
    unsignedHolds .lt a b = false := by
  rw [unsignedHolds_lt, ha, hb]
  exact decide_eq_false (one_lt_minusOne_pattern hn).not_gt

theorem minusOne_unsigned_gt_one (hn : 1 < n) (ha : a.toNat = 2 ^ n - 1) (hb : b.toNat = 1) :
    unsignedHolds .gt a b = true := by
  rw [unsignedHolds_gt, ha, hb]
  exact decide_eq_true (one_lt_minusOne_pattern hn)

end

theorem one_lt_bits (w : Width) : 1 < w.bits := by
  cases w <;> decide

/-- As `completesWithTwoOperands_of_binaryOp`, for a comparison whose answer is known. -/
theorem comparison_leaves {w : Width} {i : Instr} {holds : BitVec w.bits → BitVec w.bits → Bool} {answer : Bool}
    (hexec : exec i s = (binaryOp (u := .byte) w (fun a b => booleanByte (holds a b)) s).outcome)
    (hpresent : 2 * w.bytes ≤ s.sp.toNat) (hrange : StackCursorInRange s)
    (hanswer : holds (leftOperand w s) (rightOperand w s) = answer) :
    ∃ t, exec i s = .next t ∧ LeavesValue s t (s.sp.toNat - 2 * w.bytes) (booleanByte answer) := by
  obtain ⟨t, hrun, hleaves⟩ :=
    binaryOp_ok (fun a b => booleanByte (holds a b)) hpresent hrange (booleanByte_has_room w)
  exact ⟨t, by rw [hexec, hrun, Result.outcome_ok], hanswer ▸ hleaves⟩

theorem less_and_greater_exec {w : Width} {signedLt unsignedLt unsignedGt : Instr}
    (hi : (w, signedLt, unsignedLt, unsignedGt) ∈ [(Width.byte, Instr.ltChar, Instr.ltByte, Instr.gtByte),
      (.hword, .ltInt, .ltHword, .gtHword), (.word, .ltLong, .ltWord, .gtWord)]) (s : State) :
    exec signedLt s = (compareSigned w .lt s).outcome ∧ exec unsignedLt s = (compareUnsigned w .lt s).outcome ∧
      exec unsignedGt s = (compareUnsigned w .gt s).outcome := by
  simp only [List.mem_cons, Prod.mk.injEq, List.not_mem_nil, or_false] at hi
  rcases hi with ⟨rfl, rfl, rfl, rfl⟩ | ⟨rfl, rfl, rfl, rfl⟩ | ⟨rfl, rfl, rfl, rfl⟩ <;>
    exact ⟨rfl, rfl, rfl⟩

/-- Settles O32: the two readings of the all-ones pattern lie on different sides of 1. -/
theorem minusOneAgainstOne : Obligations.MinusOneAgainstOne := by
  intro w signedLt unsignedLt unsignedGt hi s hpresent hrange hleft hright
  obtain ⟨hsignedLt, hunsignedLt, hunsignedGt⟩ := less_and_greater_exec hi s
  have hbits : 1 < w.bits := one_lt_bits w
  exact ⟨comparison_leaves hsignedLt hpresent hrange (minusOne_signed_lt_one hbits hleft hright),
    comparison_leaves hunsignedLt hpresent hrange (minusOne_not_unsigned_lt_one hbits hleft hright),
    comparison_leaves hunsignedGt hpresent hrange (minusOne_unsigned_gt_one hbits hleft hright)⟩

end Sys2Proof.Machine
end

section
/-! PROOFS of the statements of 44_logic.md: NOT, OR, AND and XOR. -/

namespace Sys2Proof.Machine

variable {s : State}

/-! ## The results as naturals and bit by bit (R212) -/

theorem complement_toNat {n : Nat} (v : BitVec n) : (complement v).toNat = 2 ^ n - 1 - v.toNat :=
  BitVec.toNat_not

theorem complement_getLsbD {n k : Nat} (v : BitVec n) (hk : k < n) : (complement v).getLsbD k = !v.getLsbD k := by
  rw [complement, BitVec.getLsbD_not, decide_eq_true hk, Bool.true_and]

section
variable {n : Nat} (a b : BitVec n) (k : Nat)

theorem bitOr_getLsbD : (bitOr a b).getLsbD k = or (a.getLsbD k) (b.getLsbD k) := BitVec.getLsbD_or
theorem bitAnd_getLsbD : (bitAnd a b).getLsbD k = and (a.getLsbD k) (b.getLsbD k) := BitVec.getLsbD_and
theorem bitXor_getLsbD : (bitXor a b).getLsbD k = xor (a.getLsbD k) (b.getLsbD k) := BitVec.getLsbD_xor

end

/-! ## NOT -/

theorem unaryOp_underflow {w : Width} (f : BitVec w.bits → BitVec w.bits) (h : s.sp.toNat < w.bytes) :
    unaryOp w f s = .raised .stackUnderflow s := by
  rw [unaryOp, pop_underflow h, Result.bind_raised]

theorem not_opcode {op : Byte} {w : Width} {i : Instr}
    (hi : (op, w, i) ∈ [((0x71 : Byte), Width.byte, Instr.notByte), (0x72, .hword, .notHword),
      (0x73, .word, .notWord)]) :
    decodeOpcode op = some ⟨.logic, .not, some w, false, 0, false⟩ ∧
      (∀ r imm, instrOf .not (some w) r imm = some i) ∧
      ∀ s, exec i s = (unaryOp w complement s).outcome := by
  simp only [List.mem_cons, Prod.mk.injEq, List.not_mem_nil, or_false] at hi
  rcases hi with ⟨rfl, rfl, rfl⟩ | ⟨rfl, rfl, rfl⟩ | ⟨rfl, rfl, rfl⟩ <;>
    exact ⟨by decide, fun _ _ => rfl, fun _ => rfl⟩

/-- Settles O26: NOT is the one-operand sequence, run with `complement`. -/
theorem notRule : Obligations.NotRule := by
  intro op w i hi
  obtain ⟨hdecode, hinstr, hexec⟩ := not_opcode hi
  refine ⟨encodedAs_of_decodeOpcode hdecode hinstr, fun s => ?_⟩
  rw [hexec s]
  refine ⟨fun hpresent hrange => ?_, fun hshort => ?_⟩
  · obtain ⟨t, hrun, hleaves⟩ := unaryOp_ok complement hpresent hrange
    exact ⟨t, by rw [hrun, Result.outcome_ok], _, complement_toNat _, fun _ => complement_getLsbD _, hleaves⟩
  · rw [unaryOp_underflow complement hshort]
    rfl

/-! ## OR, AND and XOR -/

/-- What R203 to R211 say of an opcode whose instruction runs the two-operand sequence with `g`, where each bit of `g`
is `f` of the operands' bits. -/
theorem bitwise_rule {op : Byte} {w : Width} {i : Instr} {f : Bool → Bool → Bool} (o : Operation)
    (g : BitVec w.bits → BitVec w.bits → BitVec w.bits)
    (hdecode : decodeOpcode op = some ⟨.logic, o, some w, false, 0, false⟩)
    (hinstr : ∀ r imm, instrOf o (some w) r imm = some i)
    (hexec : ∀ s, exec i s = (binaryOp w g s).outcome)
    (hbits : ∀ a b k, (g a b).getLsbD k = f (a.getLsbD k) (b.getLsbD k)) :
    EncodedAs op 0 (fun _ _ => i) ∧
      ∀ s : State,
        CompletesWithTwoOperands w w i (fun a b v => ∀ k < w.bits, v.getLsbD k = f (a.getLsbD k) (b.getLsbD k)) s ∧
          UnderflowsLikeTwoPops w i s := by
  have hroom : w.bytes ≤ 2 * w.bytes := Nat.le_mul_of_pos_left _ Nat.two_pos
  exact ⟨encodedAs_of_decodeOpcode hdecode hinstr, fun s =>
    ⟨completesWithTwoOperands_of_binaryOp (hexec s) hroom fun a b k _ => hbits a b k,
      underflowsLikeTwoPops_of_binaryOp (hexec s)⟩⟩

/-- Settles O27: each instruction is the two-operand sequence with the operation its opcode codes. -/
theorem bitwiseRule : Obligations.BitwiseRule := by
  intro op w i f hi
  simp only [List.mem_cons, Prod.mk.injEq, List.not_mem_nil, or_false] at hi
  rcases hi with h | h | h | h | h | h | h | h | h
  all_goals obtain ⟨rfl, rfl, rfl, rfl⟩ := h
  iterate 3 exact bitwise_rule .or bitOr (by decide) (fun _ _ => rfl) (fun _ => rfl) bitOr_getLsbD
  iterate 3 exact bitwise_rule .and bitAnd (by decide) (fun _ _ => rfl) (fun _ => rfl) bitAnd_getLsbD
  iterate 3 exact bitwise_rule .xor bitXor (by decide) (fun _ _ => rfl) (fun _ => rfl) bitXor_getLsbD

end Sys2Proof.Machine
end

section
/-! PROOFS of the statements of 45_heap.md: MALLOC, MGET, MSET, MDELETE and MSIZE. -/

namespace Sys2Proof.Machine

variable {s : State}

/-! ## The opcodes and the sequences their instructions run

Per family, as in 41_stack_register.md (30_encoding.md R82, 40_engine.md R104). -/

theorem allocate_opcode {op : Byte} {w : Width} {i : Word → Instr}
    (hi : (op, w, i) ∈ [((0xC1 : Byte), Width.byte, Instr.mallocByte), (0xC2, .hword, .mallocHword),
      (0xC3, .word, .mallocWord)]) :
    decodeOpcode op = some ⟨.heap, .malloc, some w, false, 8, false⟩ ∧
      (∀ r imm, instrOf .malloc (some w) r imm = some (i imm)) ∧
      ∀ n s, exec (i n) s = (allocate w n s).outcome := by
  simp only [List.mem_cons, Prod.mk.injEq, List.not_mem_nil, or_false] at hi
  rcases hi with ⟨rfl, rfl, rfl⟩ | ⟨rfl, rfl, rfl⟩ | ⟨rfl, rfl, rfl⟩ <;>
    exact ⟨by decide, fun _ _ => rfl, fun _ _ => rfl⟩

theorem getElement_opcode {op : Byte} {w : Width} {i : Word → Instr}
    (hi : (op, w, i) ∈ [((0xC5 : Byte), Width.byte, Instr.mgetByte), (0xC6, .hword, .mgetHword),
      (0xC7, .word, .mgetWord)]) :
    decodeOpcode op = some ⟨.heap, .mget, some w, false, 8, false⟩ ∧
      (∀ r imm, instrOf .mget (some w) r imm = some (i imm)) ∧
      ∀ n s, exec (i n) s = (getElement w n s).outcome := by
  simp only [List.mem_cons, Prod.mk.injEq, List.not_mem_nil, or_false] at hi
  rcases hi with ⟨rfl, rfl, rfl⟩ | ⟨rfl, rfl, rfl⟩ | ⟨rfl, rfl, rfl⟩ <;>
    exact ⟨by decide, fun _ _ => rfl, fun _ _ => rfl⟩

theorem setElement_opcode {op : Byte} {w : Width} {i : Word → Instr}
    (hi : (op, w, i) ∈ [((0xC9 : Byte), Width.byte, Instr.msetByte), (0xCA, .hword, .msetHword),
      (0xCB, .word, .msetWord)]) :
    decodeOpcode op = some ⟨.heap, .mset, some w, false, 8, false⟩ ∧
      (∀ r imm, instrOf .mset (some w) r imm = some (i imm)) ∧
      ∀ n s, exec (i n) s = (setElement w n s).outcome := by
  simp only [List.mem_cons, Prod.mk.injEq, List.not_mem_nil, or_false] at hi
  rcases hi with ⟨rfl, rfl, rfl⟩ | ⟨rfl, rfl, rfl⟩ | ⟨rfl, rfl, rfl⟩ <;>
    exact ⟨by decide, fun _ _ => rfl, fun _ _ => rfl⟩

theorem mdelete_opcode : EncodedAs 0xCC 0 fun _ _ => .mdelete :=
  encodedAs_of_decodeOpcode (d := ⟨.heap, .mdelete, none, false, 0, false⟩) (by decide) fun _ _ => rfl

theorem msize_opcode : EncodedAs 0xD0 0 fun _ _ => .msize :=
  encodedAs_of_decodeOpcode (d := ⟨.heap, .msize, none, false, 0, false⟩) (by decide) fun _ _ => rfl

/-! ## MALLOC -/

/-- The state once the policy, left in state `u`, has given the handle `g` to a new block of `n` bytes. -/
def afterAlloc (g : Word) (u : State) (n : Nat) (s : State) : State :=
  { s with heap := Sparse.set s.heap g.toNat (newBlock n s), hnext := u.hnext, draws := s.draws + 1 }

/-- Once the allocation is granted, MALLOC is a push of the handle the policy gives. -/
theorem allocate_granted {w : Width} {n g : Word} {u : State} (h : ¬ AllocationRefused (n.toNat * w.bytes) s)
    (hg : allocHandle s = some (g, u)) :
    n.toNat * w.bytes < 2 ^ 64 ∧
      allocate w n s =
        (push (w := .word) g (afterAlloc g u (n.toNat * w.bytes) s)).bind fun _ s => advance s := by
  obtain ⟨_, _, hsize, hgiven, halloc⟩ := heapAlloc_granted h
  rw [hg] at hgiven
  cases hgiven
  exact ⟨hsize, by rw [allocate, elementOffset, halloc, Result.bind_ok, afterAlloc]⟩

/-- `PushedAt` looks at no more of the state before than the bytes of S. -/
theorem PushedAt.of_stack_eq {w : Width} {t u : State} {base : Nat} {v : BitVec w.bits} (h : PushedAt u t base v)
    (hu : u.stack = s.stack) : PushedAt s t base v where
  cursor := h.cursor
  inside := h.inside
  outside a ha := by rw [h.outside a ha, stackByte, stackByte, hu]

/-- Settles O33: a granted allocation has changed the heap before its handle is pushed, and the error of that push
leaves the new block live. -/
theorem allocateRule : Obligations.AllocateRule := by
  intro op w i hi
  obtain ⟨hdecode, hinstr, hexec⟩ := allocate_opcode hi
  refine ⟨encodedAs_of_decodeOpcode hdecode hinstr, fun n s => ?_⟩
  rw [hexec n s]
  refine ⟨fun hrefused => ?_, fun g u hgranted hg => ?_⟩
  · rw [allocate_refused hrefused]
    rfl
  · obtain ⟨hsize, hrun⟩ := allocate_granted hgranted hg
    rw [hrun]
    refine ⟨fun hroom => ?_, fun hfull => ?_⟩
    · obtain ⟨hpush, hleaves⟩ :=
        push_leavesValue (w := .word) g (s := afterAlloc g u (n.toNat * w.bytes) s) hroom
      exact ⟨_, by rw [hpush, Result.bind_ok, advance_eq, Result.outcome_ok], allocatedBlock_of_heap_set hsize rfl,
        hleaves.pushed.of_stack_eq rfl, rfl⟩
    · rw [push_then_advance_overflow (w := .word) (s := afterAlloc g u (n.toNat * w.bytes) s) g hfull]
      exact ⟨_, rfl, allocatedBlock_of_heap_set hsize rfl, rfl⟩

/-! ## The handle on top of the stack -/

/-- With a word on the stack, an instruction that begins by popping a handle goes on with that word. -/
theorem pop_handle_bind {α : Type} (f : Word → State → Result α) (h : 8 ≤ s.sp.toNat) :
    (pop .word s).bind f = f (rightOperand .word s) (afterPop .word s) := by
  rw [pop_ok (w := .word) h, Result.bind_ok, topValue_eq]

theorem pop_handle_bind_underflow {α : Type} (f : Word → State → Result α) (h : s.sp.toNat < 8) :
    (pop .word s).bind f = .raised .stackUnderflow s := by
  rw [pop_underflow (w := .word) h, Result.bind_raised]

/-- No value is wider than the handle it replaces, so its push has room. -/
theorem push_over_handle {w : Width} (v : BitVec w.bits) (h : 8 ≤ s.sp.toNat) (hrange : StackCursorInRange s) :
    ∃ t, (push v (afterPop .word s)).bind (fun _ s => advance s) = .ok () t ∧
      LeavesValue s t (s.sp.toNat - 8) v := by
  have hwidth : w.bytes ≤ 8 := by cases w <;> decide
  have hroom : s.sp.toNat - 8 + w.bytes ≤ s.stackMax.toNat := by
    have hsp : s.sp.toNat ≤ s.stackMax.toNat := hrange
    omega
  obtain ⟨hpush, hleaves⟩ := leavesValue_of_push v (afterPop_eq .word s) (afterPop_sp_toNat (w := .word) h) hroom
  exact ⟨_, by rw [hpush, Result.bind_ok, advance_eq], hleaves⟩

/-! ## MGET -/

section
variable {w : Width} {n : Word} {b : Block}

theorem getElement_ok (h : 8 ≤ s.sp.toNat) (hb : blockOf s (rightOperand .word s) = some b)
    (hin : n.toNat * w.bytes + w.bytes ≤ b.size.toNat) (hrange : StackCursorInRange s) :
    ∃ t, getElement w n s = .ok () t ∧ LeavesValue s t (s.sp.toNat - 8) (blockValue b (n.toNat * w.bytes) w) := by
  rw [getElement, pop_handle_bind _ h, elementOffset, heapRead_ok (s := afterPop .word s) hb hin]
  exact push_over_handle _ h hrange

theorem getElement_bounds (h : 8 ≤ s.sp.toNat) (hb : blockOf s (rightOperand .word s) = some b)
    (hout : b.size.toNat < n.toNat * w.bytes + w.bytes) :
    getElement w n s = .raised .outOfBounds (afterPop .word s) := by
  rw [getElement, pop_handle_bind _ h, elementOffset, heapRead_bounds (s := afterPop .word s) hb hout,
    Result.bind_raised]

theorem getElement_miss (h : 8 ≤ s.sp.toNat) (hb : blockOf s (rightOperand .word s) = none) :
    getElement w n s = .raised .invalidPageAddress (afterPop .word s) := by
  rw [getElement, pop_handle_bind _ h, heapRead_miss (s := afterPop .word s) _ w hb, Result.bind_raised]

theorem getElement_underflow (h : s.sp.toNat < 8) : getElement w n s = .raised .stackUnderflow s :=
  pop_handle_bind_underflow _ h

end

/-- Settles O37: MGET pushes the value at the element's offset, whose bytes are those of the block. -/
theorem getElementRule : Obligations.GetElementRule := by
  intro op w i hi
  obtain ⟨hdecode, hinstr, hexec⟩ := getElement_opcode hi
  refine ⟨encodedAs_of_decodeOpcode hdecode hinstr, fun n s => ?_⟩
  rw [hexec n s]
  refine ⟨fun hpresent => ⟨fun b hlive => ⟨fun hin hrange => ?_, fun hout => ?_⟩, fun hdead => ?_⟩, fun hshort => ?_⟩
  · obtain ⟨t, hrun, hleaves⟩ := getElement_ok hpresent hlive hin hrange
    exact ⟨t, by rw [hrun, Result.outcome_ok], _, fun _ => memRead_byte (blockByte b) _ w, hleaves⟩
  · rw [getElement_bounds hpresent hlive hout]
    rfl
  · rw [getElement_miss hpresent hdead]
    rfl
  · rw [getElement_underflow hshort]
    rfl

/-! ## MSET -/

section
variable {w : Width} {n : Word}

/-- The state after MSET has popped the value and the handle beneath it (45_heap.md R231). -/
def afterPopElement (w : Width) (s : State) : State :=
  { s with sp := s.sp - BitVec.ofNat 64 (w.bytes + 8) }

/-- With both operands on the stack, MSET is a heap write at the handle beneath the value. -/
theorem setElement_present (h : w.bytes + 8 ≤ s.sp.toNat) :
    setElement w n s =
      (heapWrite (stackValue s (s.sp.toNat - (w.bytes + 8)) .word) (n.toNat * w.bytes) (rightOperand w s)
        (afterPopElement w s)).bind fun _ s => advance s := by
  rw [setElement, pop_ok (Nat.le_of_add_right_le h), Result.bind_ok, pop_handle_afterPop h, Result.bind_ok, topValue_eq,
    elementOffset, afterPopElement]

theorem setElement_value_underflow (h : s.sp.toNat < w.bytes) : setElement w n s = .raised .stackUnderflow s := by
  rw [setElement, pop_underflow h, Result.bind_raised]

theorem setElement_handle_underflow (h : w.bytes ≤ s.sp.toNat) (h' : s.sp.toNat < w.bytes + 8) :
    setElement w n s = .raised .stackUnderflow (afterPop w s) := by
  have hshort : (afterPop w s).sp.toNat < 8 := by
    rw [afterPop_sp_toNat h]
    omega
  rw [setElement, pop_ok h, Result.bind_ok, pop_handle_bind_underflow _ hshort]

end

/-- A heap that differs in one block, by a store into it, holds the value there and all else as before. -/
theorem storedInBlock_of_heap_set {w : Width} {t : State} {h : Word} {b : Block} {off : Nat} {v : BitVec w.bits}
    (e : t.heap = Sparse.set s.heap h.toNat (b.store off v)) : StoredInBlock s t h b off v where
  block := ⟨_, blockOf_of_heap_set e, b.store_size off v, fun _ => blockByte_store_inside b off v,
    fun _ => blockByte_store_outside b off v⟩
  others _ hne := blockOf_of_heap_set_other e hne

/-- Settles O38: the pops do not touch the heap, and then MSET does what its heap write does. -/
theorem setElementRule : Obligations.SetElementRule := by
  intro op w i hi
  obtain ⟨hdecode, hinstr, hexec⟩ := setElement_opcode hi
  refine ⟨encodedAs_of_decodeOpcode hdecode hinstr, fun n s => ?_⟩
  rw [hexec n s]
  refine ⟨?present, fun hnone => ?_, fun hvalue hshort => ?_⟩
  case present =>
    rintro hpresent h rfl
    rw [setElement_present hpresent]
    refine ⟨fun b hlive => ⟨fun hin => ?_, fun hout => ?_⟩, fun hdead => ?_⟩
    · rw [heapWrite_ok (s := afterPopElement w s) _ hlive hin]
      exact ⟨_, rfl, storedInBlock_of_heap_set rfl, rfl⟩
    · rw [heapWrite_bounds (s := afterPopElement w s) _ hlive hout]
      rfl
    · rw [heapWrite_miss (s := afterPopElement w s) _ _ hdead]
      rfl
  · rw [setElement_value_underflow hnone]
    rfl
  · rw [setElement_handle_underflow hvalue hshort]
    rfl

/-! ## MDELETE -/

/-- Settles O39: the block is erased at the handle popped, and nowhere else. -/
theorem deleteRule : Obligations.DeleteRule := by
  refine ⟨mdelete_opcode, fun s => ?_⟩
  rw [exec, execMdelete]
  refine ⟨fun hpresent => ?_, fun hshort => ?_⟩
  · rw [pop_handle_bind _ hpresent]
    refine ⟨fun hlive => ?_, fun hdead => ?_⟩
    · obtain ⟨b, hb⟩ := Option.isSome_iff_exists.mp hlive
      rw [heapDelete_live (s := afterPop .word s) hb]
      exact ⟨_, rfl, blockOf_of_heap_erase (s := s) rfl, fun g hg => blockOf_of_heap_erase_other rfl hg, rfl⟩
    · rw [heapDelete_miss (s := afterPop .word s) hdead]
      rfl
  · rw [pop_handle_bind_underflow _ hshort]
    rfl

/-! ## MSIZE -/

/-- Settles O40: the size replaces the handle, a word for a word. -/
theorem sizeRule : Obligations.SizeRule := by
  refine ⟨msize_opcode, fun s => ?_⟩
  rw [exec, execMsize]
  refine ⟨fun hpresent => ?_, fun hshort => ?_⟩
  · rw [pop_handle_bind _ hpresent]
    refine ⟨fun b hlive hrange => ?_, fun hdead => ?_⟩
    · obtain ⟨t, hrun, hleaves⟩ := push_over_handle (w := .word) b.size hpresent hrange
      rw [heapSize_live (s := afterPop .word s) hlive, Result.bind_ok, hrun]
      exact ⟨t, rfl, hleaves⟩
    · rw [heapSize_miss (s := afterPop .word s) hdead]
      rfl
  · rw [pop_handle_bind_underflow _ hshort]
    rfl

end Sys2Proof.Machine
end

section
/-! PROOFS of the statements of 46_control.md: JUMP_ABS, JUMP_IF, CALL, RET and HALT. -/

namespace Sys2Proof.Machine

variable {s : State} {t : Word}

/-! ## The opcodes and the sequences their instructions run

Per family, as in 41_stack_register.md (30_encoding.md R82, 40_engine.md R104). -/

theorem jumpAbs_opcode : EncodedAs 0xE0 8 fun _ imm => .jumpAbs imm :=
  encodedAs_of_decodeOpcode (d := ⟨.ctrl, .jumpAbs, none, false, 8, false⟩) (by decide) fun _ _ => rfl

theorem jumpIf_opcode {op : Byte} {w : Width} {i : Word → Instr}
    (hi : (op, w, i) ∈ [((0xE5 : Byte), Width.byte, Instr.jumpIfByte), (0xE6, .hword, .jumpIfHword),
      (0xE7, .word, .jumpIfWord)]) :
    decodeOpcode op = some ⟨.ctrl, .jumpIf, some w, false, 8, false⟩ ∧
      (∀ r imm, instrOf .jumpIf (some w) r imm = some (i imm)) ∧
      ∀ t s, exec (i t) s = (jumpIf w t s).outcome := by
  simp only [List.mem_cons, Prod.mk.injEq, List.not_mem_nil, or_false] at hi
  rcases hi with ⟨rfl, rfl, rfl⟩ | ⟨rfl, rfl, rfl⟩ | ⟨rfl, rfl, rfl⟩ <;>
    exact ⟨by decide, fun _ _ => rfl, fun _ _ => rfl⟩

theorem call_opcode : EncodedAs 0xE8 8 fun _ imm => .call imm :=
  encodedAs_of_decodeOpcode (d := ⟨.ctrl, .call, none, false, 8, false⟩) (by decide) fun _ _ => rfl

theorem ret_opcode : EncodedAs 0xEC 0 fun _ _ => .ret :=
  encodedAs_of_decodeOpcode (d := ⟨.ctrl, .ret, none, false, 0, false⟩) (by decide) fun _ _ => rfl

theorem halt_opcode : EncodedAs 0xF0 0 fun _ _ => .halt :=
  encodedAs_of_decodeOpcode (d := ⟨.halt, .halt, none, false, 0, false⟩) (by decide) fun _ _ => rfl

/-! ## JUMP_ABS -/

theorem jumpTo_ok (h : t.toNat < s.program.length) : jumpTo t s = .ok () { s with ip := t } := by
  rw [jumpTo, targetCheck_ok h, Result.bind_ok, setIp_eq]

theorem jumpTo_invalid (h : s.program.length ≤ t.toNat) : jumpTo t s = .raised .invalidProgramAddress s := by
  rw [jumpTo, targetCheck_invalid h, Result.bind_raised]

/-- Settles O44: the target check alone decides between the jump and the error. -/
theorem jumpRule : Obligations.JumpRule := by
  refine ⟨jumpAbs_opcode, fun t s => ?_⟩
  rw [exec, execJumpAbs]
  refine ⟨fun hin => ?_, fun hout => ?_⟩
  · rw [jumpTo_ok hin, Result.outcome_ok]
  · rw [jumpTo_invalid hout]
    rfl

/-! ## JUMP_IF -/

section
variable {w : Width}

/-- A condition that is not zero leaves JUMP_IF with the jump to make. -/
theorem jumpIf_taken (h : w.bytes ≤ s.sp.toNat) (hc : (rightOperand w s).toNat ≠ 0) :
    jumpIf w t s = jumpTo t (afterPop w s) := by
  rw [jumpIf, pop_ok h, Result.bind_ok, topValue_eq, if_pos hc]

/-- A condition that is zero leaves the target unexamined (46_control.md R242). -/
theorem jumpIf_not_taken (h : w.bytes ≤ s.sp.toNat) (hc : (rightOperand w s).toNat = 0) :
    jumpIf w t s = advance (afterPop w s) := by
  rw [jumpIf, pop_ok h, Result.bind_ok, topValue_eq, if_neg (not_not.mpr hc)]

theorem jumpIf_underflow (h : s.sp.toNat < w.bytes) : jumpIf w t s = .raised .stackUnderflow s := by
  rw [jumpIf, pop_underflow h, Result.bind_raised]

end

/-- Settles O45: the condition is popped first, and only where it is not zero is JUMP_IF a jump. -/
theorem jumpIfRule : Obligations.JumpIfRule := by
  intro op w i hi
  obtain ⟨hdecode, hinstr, hexec⟩ := jumpIf_opcode hi
  refine ⟨encodedAs_of_decodeOpcode hdecode hinstr, fun t s => ?_⟩
  rw [hexec t s]
  refine ⟨fun hpresent => ⟨fun hcond hin => ?_, fun hzero => ?_, fun hcond hout => ?_⟩, fun hshort => ?_⟩
  · rw [jumpIf_taken hpresent hcond, jumpTo_ok (s := afterPop w s) hin]
    rfl
  · rw [jumpIf_not_taken hpresent hzero]
    rfl
  · rw [jumpIf_taken hpresent hcond, jumpTo_invalid (s := afterPop w s) hout]
    rfl
  · rw [jumpIf_underflow hshort]
    rfl

/-! ## CALL -/

/-- The state once CALL has stored the return address and jumped to `t` (46_control.md R245). -/
def afterCall (t : Word) (s : State) : State :=
  { s with callStack := Sparse.set s.callStack s.csp.toNat (s.ip + 1), csp := s.csp + 1, ip := t }

@[simp] theorem callEntry_afterCall_top (t : Word) (s : State) :
    callEntry (afterCall t s) s.csp.toNat = s.ip + 1 := by
  rw [callEntry, afterCall, Sparse.get_set_same, Option.getD_some]

theorem callEntry_afterCall_other {i : Nat} (t : Word) (h : i ≠ s.csp.toNat) :
    callEntry (afterCall t s) i = callEntry s i := by
  rw [callEntry, afterCall, Sparse.get_set_other _ _ h, callEntry]

theorem csPush_ok (a : Word) (h : s.csp ≠ s.callMax) :
    csPush a s = .ok () { s with callStack := Sparse.set s.callStack s.csp.toNat a, csp := s.csp + 1 } := by
  rw [csPush, callCheck_ok h, Result.bind_ok]

theorem exec_call_ok (h : s.csp ≠ s.callMax) (ht : t.toNat < s.program.length) :
    exec (.call t) s = .next (afterCall t s) := by
  rw [exec, execCall, callCheck_ok h, Result.bind_ok, targetCheck_ok ht, Result.bind_ok, csPush_ok _ h,
    Result.bind_ok, setIp_eq, Result.outcome_ok, afterCall]

/-- The call stack is checked before the target. -/
theorem exec_call_full (h : s.csp = s.callMax) : exec (.call t) s = .next (takeError .callStackOverflow s) := by
  rw [exec, execCall, callCheck_full h, Result.bind_raised, Result.outcome_raised]

theorem exec_call_invalid (h : s.csp ≠ s.callMax) (ht : s.program.length ≤ t.toNat) :
    exec (.call t) s = .next (takeError .invalidProgramAddress s) := by
  rw [exec, execCall, callCheck_ok h, Result.bind_ok, targetCheck_invalid ht, Result.bind_raised,
    Result.outcome_raised]

/-- Settles O46: the two checks come before the one write, so a CALL that raises has stored nothing. -/
theorem callRule : Obligations.CallRule :=
  ⟨call_opcode, fun t _ =>
    ⟨fun hroom hin => ⟨_, exec_call_ok hroom hin, callEntry_afterCall_top t _,
      fun _ => callEntry_afterCall_other t, rfl⟩, exec_call_full, exec_call_invalid⟩⟩

/-! ## RET -/

theorem csPop_ok (h : s.csp ≠ 0) : csPop s = .ok (callEntry s (s.csp.toNat - 1)) { s with csp := s.csp - 1 } :=
  if_neg h

theorem csPop_underflow (h : s.csp = 0) : csPop s = .raised .callStackUnderflow s :=
  if_pos h

theorem exec_ret_ok (h : s.csp ≠ 0) :
    exec .ret s = .next { s with csp := s.csp - 1, ip := callEntry s (s.csp.toNat - 1) } := by
  rw [exec, execRet, csPop_ok h, Result.bind_ok, setIp_eq, Result.outcome_ok]

theorem exec_ret_empty (h : s.csp = 0) : exec .ret s = .next (takeError .callStackUnderflow s) := by
  rw [exec, execRet, csPop_underflow h, Result.bind_raised, Result.outcome_raised]

/-- Settles O47: RET reads the entry beneath `csp` and writes no entry. -/
theorem returnRule : Obligations.ReturnRule :=
  ⟨ret_opcode, fun _ => ⟨exec_ret_ok, exec_ret_empty⟩⟩

/-! ## CALL, then RET -/

/-- Below CALL_MAX the cursor of the call stack advances without wrapping. -/
theorem csp_succ_toNat (h : s.csp.toNat < s.callMax.toNat) : (s.csp + 1).toNat = s.csp.toNat + 1 := by
  have := s.callMax.isLt
  exact Nat.mod_eq_of_lt (show s.csp.toNat + 1 < 2 ^ 64 by omega)

/-- A RET in the state a CALL leaves takes back all but the stored entry, and goes on after the CALL. -/
theorem exec_ret_afterCall (h : s.csp.toNat < s.callMax.toNat) :
    exec .ret (afterCall t s) = .next { s with callStack := (afterCall t s).callStack, ip := s.ip + 1 } := by
  have hcsp : (afterCall t s).csp.toNat = s.csp.toNat + 1 := csp_succ_toNat h
  have hne : (afterCall t s).csp ≠ 0 := fun h0 => by
    rw [h0] at hcsp
    exact absurd hcsp (Nat.succ_ne_zero _).symm
  have hback : (afterCall t s).csp - 1 = s.csp := BitVec.add_sub_cancel s.csp 1
  rw [exec_ret_ok hne, hcsp, Nat.add_sub_cancel, callEntry_afterCall_top, hback]
  rfl

/-- Settles O49: the entry RET reads is the one CALL stored. -/
theorem callThenReturn : Obligations.CallThenReturn := by
  intro a s hroom hin
  have hne : s.csp ≠ s.callMax := fun h => absurd (congrArg BitVec.toNat h) hroom.ne
  exact ⟨_, _, exec_call_ok hne hin, exec_ret_afterCall hroom, rfl, fun _ => callEntry_afterCall_other a⟩

/-! ## HALT -/

theorem exec_halt (s : State) : exec .halt s = .next { s with ip := s.ip + 1, status := .haltedOk } := by
  rw [exec, execHalt, advance_eq, Result.bind_ok, Result.outcome_ok]

/-- Settles O48: HALT checks nothing, and the state it leaves is halted. -/
theorem haltRule : Obligations.HaltRule :=
  ⟨halt_opcode, fun s => ⟨exec_halt s, step_of_halted Status.noConfusion⟩⟩

end Sys2Proof.Machine
end

section
/-! PROOFS of the statements of 70_reset_and_hazards.md: loading a program, and the machine a rejected load leaves. -/

namespace Sys2Proof.Machine

variable {l : Launch} {bytes : List Byte}

/-! ## What `load-program(bytes)` does with the answer of `DecodeStream` -/

theorem loadBytes_of_ok {records : List Record} (h : decodeStream bytes = .ok records) :
    l.loadBytes bytes = l.loadRecords records := by
  simp only [Launch.loadBytes, h, Launch.loadRecords]

/-- A rejected stream loads the empty program and marks it rejected. -/
theorem loadBytes_of_error {k : ErrorKind} (h : decodeStream bytes = .error k) :
    l.loadBytes bytes = { l.loadRecords [] with rejected := true } := by
  simp only [Launch.loadBytes, h, Launch.loadRecords]

/-! ## Where a rejected launch starts -/

/-- Of the start, the verdict decides the status and nothing else. -/
theorem start_of_rejected (l : Launch) :
    { l with rejected := true }.start = { l.start with status := .haltedError .invalidOpcode } := rfl

theorem loadBytes_start_of_error {k : ErrorKind} (h : decodeStream bytes = .error k) :
    (l.loadBytes bytes).start = { (l.loadRecords []).start with status := .haltedError .invalidOpcode } := by
  rw [loadBytes_of_error h, start_of_rejected]

/-- Settles O59: a stream is either loaded as its records, or leaves the empty launch halted, where no step exists. -/
theorem programLoad : Obligations.ProgramLoad := by
  intro l
  refine ⟨fun _ => ⟨rfl, start_running rfl⟩, fun _ _ => loadBytes_of_ok, fun bytes k hbad => ?_⟩
  have hstart := loadBytes_start_of_error (l := l) hbad
  refine ⟨decodeStreamFuel_error hbad, hstart, ?_⟩
  rw [hstart]
  exact ⟨rfl, rfl, step_of_halted Status.noConfusion⟩

end Sys2Proof.Machine
end
